-- ==== Sys2Proof/Word.lean ====
section
/-! DEFINITION. The two data widths of the machine (rules R6, R13, R17). -/

namespace Sys2Proof

/-- WORD, "the universal unit of memory, registers, and instruction encoding": 16 bits, bit 15 the
most significant (rules R6, R17). Addition on it wraps modulo 2^16. -/
abbrev Word := BitVec 16

/-- One character of the input source or one byte of the output sink (rules R12, R13). -/
abbrev Byte := BitVec 8

end Sys2Proof
end

