-- ==== Sys2Proof/Syntax.lean ====
section
/-! DEFINITION. The abstract syntax: register indices, the sixteen opcode names (rule R83) and one
constructor of `Instr` for each row of the opcode table (rule R86). -/

namespace Sys2Proof

/-- A register index, "a 3-bit number 0..7; index i names Ri" (rule R20). -/
abbrev Reg := Fin 8

/-- The sixteen opcode names of rule R83. JSR and JSRR are two forms under one opcode. -/
inductive Opcode where
  | br | add | ld | st | jsr | and | ldr | str | rti | not | ldi | sti | jmp | res | lea | trap
  deriving DecidableEq, Repr

/-- Every opcode name, in the order of rule R84's table. -/
def Opcode.all : List Opcode :=
  [.br, .add, .ld, .st, .jsr, .and, .ldr, .str, .rti, .not, .ldi, .sti, .jmp, .res, .lea, .trap]

/-- An instruction: one constructor for each row of the opcode table. Immediates keep the width of
their field (rule R87) and are extended where they are used. The three forms that raise a fault
carry the whole fetched word, which the fault record reports (rules R180, R181, R168, R192). -/
inductive Instr where
  /-- ADD, register mode (rule R120). -/
  | addReg (dr sr1 sr2 : Reg)
  /-- ADD, immediate mode (rule R121). -/
  | addImm (dr sr1 : Reg) (imm5 : BitVec 5)
  /-- AND, register mode (rule R122). -/
  | andReg (dr sr1 sr2 : Reg)
  /-- AND, immediate mode (rule R123). -/
  | andImm (dr sr1 : Reg) (imm5 : BitVec 5)
  /-- NOT (rule R124). -/
  | not (dr sr : Reg)
  /-- BR with the three bits of its condition mask (rule R130). -/
  | br (n z p : Bool) (pcOffset9 : BitVec 9)
  /-- JMP; RET is `jmp 7` (rule R131). -/
  | jmp (baseR : Reg)
  /-- JSR (rule R132). -/
  | jsr (pcOffset11 : BitVec 11)
  /-- JSRR (rule R133). -/
  | jsrr (baseR : Reg)
  /-- LD (rule R140). -/
  | ld (dr : Reg) (pcOffset9 : BitVec 9)
  /-- LDI (rule R141). -/
  | ldi (dr : Reg) (pcOffset9 : BitVec 9)
  /-- LDR (rule R142). -/
  | ldr (dr baseR : Reg) (offset6 : BitVec 6)
  /-- LEA (rule R143). -/
  | lea (dr : Reg) (pcOffset9 : BitVec 9)
  /-- ST (rule R150). -/
  | st (sr : Reg) (pcOffset9 : BitVec 9)
  /-- STI (rule R151). -/
  | sti (sr : Reg) (pcOffset9 : BitVec 9)
  /-- STR (rule R152). -/
  | str (sr baseR : Reg) (offset6 : BitVec 6)
  /-- TRAP 0x20, GETC (rule R162). -/
  | trapGetc
  /-- TRAP 0x21, OUT (rule R163). -/
  | trapOut
  /-- TRAP 0x22, PUTS (rule R164). -/
  | trapPuts
  /-- TRAP 0x23, IN (rule R165). -/
  | trapIn
  /-- TRAP 0x24, PUTSP (rule R166). -/
  | trapPutsp
  /-- TRAP 0x25, HALT (rule R167). -/
  | trapHalt
  /-- TRAP with any other vector (rule R168); `instr` is the fetched word. -/
  | trapUnknown (instr : Word)
  /-- RTI, reserved (rule R180); `instr` is the fetched word. -/
  | rti (instr : Word)
  /-- RES, reserved (rule R181); `instr` is the fetched word. -/
  | res (instr : Word)
  deriving DecidableEq, Repr

end Sys2Proof
end

