-- ==== Sys2Proof/Config.lean ====
section
/-! DEFINITION. The named parameters a model takes as configuration (rule R7): the encoding table,
the two keyboard addresses, the two texts, and the reading of rule R201. The values the machine is
reset with are in Sys2Proof/Decode.lean (`Encoding.published`) and Sys2Proof/Machine/Defaults.lean
(`Config.default`). -/

namespace Sys2Proof

/-- "opcode numbering and sub-field positions", the table parameter of rule R7 (decisions D1, D2).
A position is the number of the field's lowest bit; the widths are LC3VM's own (rule R6). The opcode
field 15:12 and the trap vector 7:0 are LC3VM's and are no parameters (rule R81). -/
structure Encoding where
  /-- Entry k is the opcode whose number `instr[15:12]` is k (rule R84). -/
  opcodes    : Vector Opcode 16
  /-- DR (3 bits). -/
  dr         : Nat
  /-- SR of the stores (3 bits). -/
  sr         : Nat
  /-- SR1 of ADD and AND, SR of NOT (3 bits). -/
  sr1        : Nat
  /-- SR2 (3 bits). -/
  sr2        : Nat
  /-- BaseR (3 bits). -/
  baseR      : Nat
  /-- The immediate flag of ADD and AND (1 bit). -/
  immFlag    : Nat
  /-- The long flag of opcode JSR (1 bit). -/
  longFlag   : Nat
  /-- The mask bit of BR that selects NEGATIVE (1 bit). -/
  maskN      : Nat
  /-- The mask bit of BR that selects ZERO (1 bit). -/
  maskZ      : Nat
  /-- The mask bit of BR that selects POSITIVE (1 bit). -/
  maskP      : Nat
  /-- imm5. -/
  imm5       : Nat
  /-- offset6. -/
  offset6    : Nat
  /-- PCoffset9. -/
  pcOffset9  : Nat
  /-- PCoffset11. -/
  pcOffset11 : Nat
  /-- What an assembler writes in the bits of NOT that the hardware ignores (rule R86). -/
  notFill    : BitVec 12
  deriving DecidableEq, Repr

/-- The configuration record of rule R7. -/
structure Config where
  /-- `KBSR_ADDR` (decision D3). -/
  kbsrAddr     : Word
  /-- `KBDR_ADDR`, different from `KBSR_ADDR` (decision D3). -/
  kbdrAddr     : Word
  /-- `IN_PROMPT` (decision D8). -/
  inPrompt     : List Byte
  /-- `HALT_NOTICE` (decision D9). -/
  haltNotice   : List Byte
  /-- The encoding table (decisions D1, D2). -/
  encoding     : Encoding
  /-- Reading (b) of rule R201: a stop request ends a GETC or IN that waits for input. With `false`
  the reading is (a), the default of decision D12. -/
  stopEndsWait : Bool
  deriving DecidableEq, Repr

end Sys2Proof
end

