-- ==== Sys2Proof/WellFormed.lean ====
section
/-! DEFINITION. What makes an instruction, an encoding table and a configuration well formed. Only
the three faulting forms have a check of their own: every operand of every other instruction is legal
at every value of its type (rules R21, R87). -/

namespace Sys2Proof

/-- The six vectors 0x20 to 0x25 are recognised, no other is (rule R161). -/
def recognisedVector (v : BitVec 8) : Bool := 0x20#8 ≤ v && v ≤ 0x25#8

/-- `op` is the opcode that the table gives the word's top four bits (rules R81, R84). -/
def Encoding.hasOpcode (e : Encoding) (w : Word) (op : Opcode) : Bool :=
  e.opcodes.get (w.extractLsb' 12 4).toFin == op

/-- A faulting form carries a word that the table decodes to it; nothing else is restricted. -/
def Instr.wf (e : Encoding) : Instr → Bool
  | .addReg _ _ _ => true
  | .addImm _ _ _ => true
  | .andReg _ _ _ => true
  | .andImm _ _ _ => true
  | .not _ _ => true
  | .br _ _ _ _ => true
  | .jmp _ => true
  | .jsr _ => true
  | .jsrr _ => true
  | .ld _ _ => true
  | .ldi _ _ => true
  | .ldr _ _ _ => true
  | .lea _ _ => true
  | .st _ _ => true
  | .sti _ _ => true
  | .str _ _ _ => true
  | .trapGetc => true
  | .trapOut => true
  | .trapPuts => true
  | .trapIn => true
  | .trapPutsp => true
  | .trapHalt => true
  | .trapUnknown w => e.hasOpcode w .trap && !recognisedVector (w.extractLsb' 0 8)
  | .rti w => e.hasOpcode w .rti
  | .res w => e.hasOpcode w .res

/-- Two fields, each a lowest bit and a width, share no bit. -/
def disjointFields (f g : Nat × Nat) : Bool := f.1 + f.2 ≤ g.1 || g.1 + g.2 ≤ f.1

/-- The fields of one format lie below the opcode field and share no bit. -/
def fieldsFit (fs : List (Nat × Nat)) : Bool :=
  fs.all (fun f => f.1 + f.2 ≤ 12) && decide (fs.Pairwise fun f g => disjointFields f g = true)

/-- The sub-fields of each instruction format (rules R85, R86), as lowest bit and width. -/
def Encoding.formats (e : Encoding) : List (List (Nat × Nat)) :=
  [ [(e.dr, 3), (e.sr1, 3), (e.immFlag, 1), (e.sr2, 3)],
    [(e.dr, 3), (e.sr1, 3), (e.immFlag, 1), (e.imm5, 5)],
    [(e.dr, 3), (e.sr1, 3)],
    [(e.maskN, 1), (e.maskZ, 1), (e.maskP, 1), (e.pcOffset9, 9)],
    [(e.baseR, 3)],
    [(e.longFlag, 1), (e.pcOffset11, 11)],
    [(e.longFlag, 1), (e.baseR, 3)],
    [(e.dr, 3), (e.pcOffset9, 9)],
    [(e.dr, 3), (e.baseR, 3), (e.offset6, 6)],
    [(e.sr, 3), (e.pcOffset9, 9)],
    [(e.sr, 3), (e.baseR, 3), (e.offset6, 6)] ]

/-- A table is usable when each of the sixteen opcodes has a number and the fields of each format do
not overlap. -/
def Encoding.wf (e : Encoding) : Bool :=
  Opcode.all.all (fun op => op ∈ e.opcodes.toList) && e.formats.all fieldsFit

/-- The two keyboard addresses are distinct (rule R7) and the encoding table is usable. -/
def Config.wf (c : Config) : Bool := c.kbsrAddr != c.kbdrAddr && c.encoding.wf

end Sys2Proof
end

