-- ==== Sys2Proof/Decode.lean ====
section
/-! DEFINITION. The published encoding table (rules R84 to R86), the decoder of rule R91 over any
table, total on every word, and the encoder over the same table. -/

namespace Sys2Proof

/-- The table of rules R84 to R86, which the spec supplies from general knowledge (decisions D1,
D2). -/
def Encoding.published : Encoding where
  opcodes    := #v[.br, .add, .ld, .st, .jsr, .and, .ldr, .str,
                   .rti, .not, .ldi, .sti, .jmp, .res, .lea, .trap]
  dr         := 9
  sr         := 9
  sr1        := 6
  sr2        := 0
  baseR      := 6
  immFlag    := 5
  longFlag   := 11
  maskN      := 11
  maskZ      := 10
  maskP      := 9
  imm5       := 0
  offset6    := 0
  pcOffset9  := 0
  pcOffset11 := 0
  notFill    := 0x03F#12

/-- `w[lo+n-1 : lo]` (rule R17). -/
def bitField (w : Word) (lo n : Nat) : BitVec n := w.extractLsb' lo n

/-- A register field, "3-bit indices read as unsigned 0..7" (rule R87). -/
def regField (w : Word) (lo : Nat) : Reg := (bitField w lo 3).toFin

/-- A one-bit field. -/
def flagField (w : Word) (lo : Nat) : Bool := w.getLsbD lo

/-- `opcode = instr >> 12` looked up in the table (rules R81, R84). -/
def Encoding.opcodeOf (e : Encoding) (w : Word) : Opcode :=
  e.opcodes.get (bitField w 12 4).toFin

/-- The TRAP forms: "the low 8 bits of the instruction select one of" the services (rule R160). -/
def decodeTrap (w : Word) : Instr :=
  match (bitField w 0 8).toNat with
  | 0x20 => .trapGetc
  | 0x21 => .trapOut
  | 0x22 => .trapPuts
  | 0x23 => .trapIn
  | 0x24 => .trapPutsp
  | 0x25 => .trapHalt
  | _ => .trapUnknown w

/-- The decoding algorithm of rule R91. Every word has an instruction: an illegal one is a
constructor of its own, which faults when it is executed (rule R89). Bits that no field covers are
not looked at (rule R88). -/
def Encoding.decode (e : Encoding) (w : Word) : Instr :=
  match e.opcodeOf w with
  | .br => .br (flagField w e.maskN) (flagField w e.maskZ) (flagField w e.maskP)
      (bitField w e.pcOffset9 9)
  | .add =>
      if flagField w e.immFlag then
        .addImm (regField w e.dr) (regField w e.sr1) (bitField w e.imm5 5)
      else .addReg (regField w e.dr) (regField w e.sr1) (regField w e.sr2)
  | .ld => .ld (regField w e.dr) (bitField w e.pcOffset9 9)
  | .st => .st (regField w e.sr) (bitField w e.pcOffset9 9)
  | .jsr =>
      if flagField w e.longFlag then .jsr (bitField w e.pcOffset11 11)
      else .jsrr (regField w e.baseR)
  | .and =>
      if flagField w e.immFlag then
        .andImm (regField w e.dr) (regField w e.sr1) (bitField w e.imm5 5)
      else .andReg (regField w e.dr) (regField w e.sr1) (regField w e.sr2)
  | .ldr => .ldr (regField w e.dr) (regField w e.baseR) (bitField w e.offset6 6)
  | .str => .str (regField w e.sr) (regField w e.baseR) (bitField w e.offset6 6)
  | .rti => .rti w
  | .not => .not (regField w e.dr) (regField w e.sr1)
  | .ldi => .ldi (regField w e.dr) (bitField w e.pcOffset9 9)
  | .sti => .sti (regField w e.sr) (bitField w e.pcOffset9 9)
  | .jmp => .jmp (regField w e.baseR)
  | .res => .res w
  | .lea => .lea (regField w e.dr) (bitField w e.pcOffset9 9)
  | .trap => decodeTrap w

/-! ### The encoder, from the same tables -/

/-- The opcode an instruction form belongs to (rule R84). -/
def Instr.opcode : Instr → Opcode
  | .addReg _ _ _ => .add
  | .addImm _ _ _ => .add
  | .andReg _ _ _ => .and
  | .andImm _ _ _ => .and
  | .not _ _ => .not
  | .br _ _ _ _ => .br
  | .jmp _ => .jmp
  | .jsr _ => .jsr
  | .jsrr _ => .jsr
  | .ld _ _ => .ld
  | .ldi _ _ => .ldi
  | .ldr _ _ _ => .ldr
  | .lea _ _ => .lea
  | .st _ _ => .st
  | .sti _ _ => .sti
  | .str _ _ _ => .str
  | .trapGetc => .trap
  | .trapOut => .trap
  | .trapPuts => .trap
  | .trapIn => .trap
  | .trapPutsp => .trap
  | .trapHalt => .trap
  | .trapUnknown _ => .trap
  | .rti _ => .rti
  | .res _ => .res

/-- The number the table gives an opcode. -/
def Encoding.number (e : Encoding) (op : Opcode) : BitVec 4 :=
  BitVec.ofNat 4 (e.opcodes.toList.idxOf op)

/-- The word with the opcode in bits 15:12 and `fill` below it. -/
def Encoding.base (e : Encoding) (op : Opcode) (fill : BitVec 12) : Word := e.number op ++ fill

/-- The word `w` with the n-bit field at `lo` replaced by `v`. -/
def putField {n : Nat} (lo : Nat) (v : BitVec n) (w : Word) : Word :=
  (w &&& ~~~((BitVec.allOnes n).setWidth 16 <<< lo)) ||| (v.setWidth 16 <<< lo)

/-- Replace a register field. -/
def putReg (lo : Nat) (r : Reg) (w : Word) : Word := putField lo (BitVec.ofFin r : BitVec 3) w

/-- Replace a one-bit field. -/
def putFlag (lo : Nat) (b : Bool) (w : Word) : Word := putField lo (BitVec.ofBool b) w

/-- The instruction word of a well-formed instruction, the ignored bits at their canonical values
(rule R86). -/
def Encoding.encode (e : Encoding) : Instr → Word
  | .addReg d a b =>
      putReg e.dr d (putReg e.sr1 a (putFlag e.immFlag false (putReg e.sr2 b (e.base .add 0))))
  | .addImm d a i =>
      putReg e.dr d (putReg e.sr1 a (putFlag e.immFlag true (putField e.imm5 i (e.base .add 0))))
  | .andReg d a b =>
      putReg e.dr d (putReg e.sr1 a (putFlag e.immFlag false (putReg e.sr2 b (e.base .and 0))))
  | .andImm d a i =>
      putReg e.dr d (putReg e.sr1 a (putFlag e.immFlag true (putField e.imm5 i (e.base .and 0))))
  | .not d a => putReg e.dr d (putReg e.sr1 a (e.base .not e.notFill))
  | .br n z p o =>
      putFlag e.maskN n (putFlag e.maskZ z (putFlag e.maskP p
        (putField e.pcOffset9 o (e.base .br 0))))
  | .jmp b => putReg e.baseR b (e.base .jmp 0)
  | .jsr o => putFlag e.longFlag true (putField e.pcOffset11 o (e.base .jsr 0))
  | .jsrr b => putFlag e.longFlag false (putReg e.baseR b (e.base .jsr 0))
  | .ld d o => putReg e.dr d (putField e.pcOffset9 o (e.base .ld 0))
  | .ldi d o => putReg e.dr d (putField e.pcOffset9 o (e.base .ldi 0))
  | .ldr d b o => putReg e.dr d (putReg e.baseR b (putField e.offset6 o (e.base .ldr 0)))
  | .lea d o => putReg e.dr d (putField e.pcOffset9 o (e.base .lea 0))
  | .st r o => putReg e.sr r (putField e.pcOffset9 o (e.base .st 0))
  | .sti r o => putReg e.sr r (putField e.pcOffset9 o (e.base .sti 0))
  | .str r b o => putReg e.sr r (putReg e.baseR b (putField e.offset6 o (e.base .str 0)))
  | .trapGetc => e.base .trap 0x020#12
  | .trapOut => e.base .trap 0x021#12
  | .trapPuts => e.base .trap 0x022#12
  | .trapIn => e.base .trap 0x023#12
  | .trapPutsp => e.base .trap 0x024#12
  | .trapHalt => e.base .trap 0x025#12
  | .trapUnknown w => w
  | .rti w => w
  | .res w => w

/-- The word an assembler writes for an instruction: `encode`, with the ignored bits of the three
faulting forms zero as well (rule R86; 0x8000 for RTI and 0xD000 for RES, rules R180, R181). -/
def Encoding.assembled (e : Encoding) : Instr → Word
  | .addReg d a b => e.encode (.addReg d a b)
  | .addImm d a i => e.encode (.addImm d a i)
  | .andReg d a b => e.encode (.andReg d a b)
  | .andImm d a i => e.encode (.andImm d a i)
  | .not d a => e.encode (.not d a)
  | .br n z p o => e.encode (.br n z p o)
  | .jmp b => e.encode (.jmp b)
  | .jsr o => e.encode (.jsr o)
  | .jsrr b => e.encode (.jsrr b)
  | .ld d o => e.encode (.ld d o)
  | .ldi d o => e.encode (.ldi d o)
  | .ldr d b o => e.encode (.ldr d b o)
  | .lea d o => e.encode (.lea d o)
  | .st r o => e.encode (.st r o)
  | .sti r o => e.encode (.sti r o)
  | .str r b o => e.encode (.str r b o)
  | .trapGetc => e.encode .trapGetc
  | .trapOut => e.encode .trapOut
  | .trapPuts => e.encode .trapPuts
  | .trapIn => e.encode .trapIn
  | .trapPutsp => e.encode .trapPutsp
  | .trapHalt => e.encode .trapHalt
  | .trapUnknown w => e.base .trap (0#4 ++ bitField w 0 8)
  | .rti _ => e.base .rti 0
  | .res _ => e.base .res 0

/-- The mark of rule R88: the word's ignored bits are those an assembler writes. -/
def Encoding.canonical (e : Encoding) (w : Word) : Bool := e.assembled (e.decode w) == w

/-- Executing the instruction raises a fatal fault (rule R89). -/
def Instr.illegal : Instr → Bool
  | .addReg _ _ _ => false
  | .addImm _ _ _ => false
  | .andReg _ _ _ => false
  | .andImm _ _ _ => false
  | .not _ _ => false
  | .br _ _ _ _ => false
  | .jmp _ => false
  | .jsr _ => false
  | .jsrr _ => false
  | .ld _ _ => false
  | .ldi _ _ => false
  | .ldr _ _ _ => false
  | .lea _ _ => false
  | .st _ _ => false
  | .sti _ _ => false
  | .str _ _ _ => false
  | .trapGetc => false
  | .trapOut => false
  | .trapPuts => false
  | .trapIn => false
  | .trapPutsp => false
  | .trapHalt => false
  | .trapUnknown _ => true
  | .rti _ => true
  | .res _ => true

/-- The instruction that the decoder reads from an opcode-table word under the published table. An
instruction is one 16-bit word (rule R80), so bit k of the table's number is bit k of the word. -/
def decodeTableWord (nbits w : Nat) : Option Instr :=
  some (Encoding.published.decode (BitVec.ofNat 16 (w % 2 ^ nbits)))

end Sys2Proof
end

