-- ==== Sys2Proof/Machine/Defaults.lean ====
section
/-! DEFINITION. The default values of rule R7's parameters, which the machine is reset with. -/

namespace Sys2Proof

/-- The recommended configuration of rule R7, with the default reading of rule R201. The two texts are
the ASCII bytes of `Enter a character: ` and of `HALT` with a line feed. -/
def Config.default : Config where
  kbsrAddr     := 0xFE00#16
  kbdrAddr     := 0xFE02#16
  inPrompt     := [0x45, 0x6E, 0x74, 0x65, 0x72, 0x20, 0x61, 0x20, 0x63, 0x68,
                   0x61, 0x72, 0x61, 0x63, 0x74, 0x65, 0x72, 0x3A, 0x20]
  haltNotice   := [0x48, 0x41, 0x4C, 0x54, 0x0A]
  encoding     := Encoding.published
  stopEndsWait := false

end Sys2Proof
end

