-- ==== Sys2Proof/Machine/State.lean ====
section
/-! DEFINITION. The state of the engine, plain data (files 10_state.md and 00_scope.md section 6), the
reasons a step can stop, and the state right after reset (rule R37). -/

namespace Sys2Proof.Machine

/-- The condition code, "always exactly one of" three values (rule R25). -/
inductive Cond where
  | negative | zero | positive
  deriving DecidableEq, Repr

/-- The run state RUN (rule R28). Every value but `running` is terminal. -/
inductive RunState where
  | running | halted | faulted | stopped
  deriving DecidableEq, Repr

/-- The two kinds of fatal fault (rules R190, R191). -/
inductive FaultKind where
  | illegalOpcode | illegalTrapVector
  deriving DecidableEq, Repr

/-- The fault record FAULT: the kind, the instruction word that faulted and the address it was fetched
from (rule R29). -/
structure FaultRecord where
  kind  : FaultKind
  instr : Word
  addr  : Word
  deriving DecidableEq, Repr

/-- The service whose step has begun and has not ended: a GETC or IN that waits for a character (rule
R116), or a PUTS or PUTSP that never ends (rule R169). -/
inductive Wait where
  | getc | inService | puts | putsp
  deriving DecidableEq, Repr

/-- What the environment does before the engine looks at it once: characters arrive at the input
source, and the stop request may be raised (rules R9, R113, R236). -/
structure EnvEvent where
  chars : List Byte
  stop  : Bool
  deriving DecidableEq, Repr

/-- The memory array: the cells that do not hold zero, as (address, word) pairs. The addressable unit
of this hardware is the 16-bit word (rule R50), so a cell holds a word and no byte order exists
(rule R60). -/
abbrev Memory := List (Nat × Word)

/-- The canonical form of a memory: addresses strictly rising, every address below 65536, and no entry
equal to what an unlisted address reads as, which is zero (rule R37). -/
abbrev Memory.wf (m : Memory) : Prop :=
  m.Pairwise (fun c d => c.1 < d.1) ∧ ∀ c ∈ m, c.1 < 65536 ∧ c.2 ≠ 0#16

/-- The whole state of the engine and of its abstract ports. -/
structure State where
  /-- R0 to R7 (rule R20). -/
  regs        : Vector Word 8
  /-- The program counter (rule R23). -/
  pc          : Word
  /-- COND (rule R25). -/
  cond        : Cond
  /-- RUN (rule R28). -/
  run         : RunState
  /-- FAULT, meaningful only when RUN is FAULTED (rule R29). -/
  fault       : Option FaultRecord
  /-- The memory array, KBSR and KBDR being two of its cells (rules R32, R34). -/
  mem         : Memory
  /-- The input queue: characters the source holds and has not given up, oldest first (rules R12,
  R35). -/
  input       : List Byte
  /-- The output log, oldest byte first (rules R13, R35). -/
  output      : List Byte
  /-- StopReq, raised by the environment and never cleared (rules R14, R197). -/
  stopReq     : Bool
  /-- The service whose step has not ended, if there is one (rules R116, R169). -/
  hold        : Option Wait
  /-- The future of the input source and of the stop request, the oracle of rules R10 and R35: one
  entry for each coming time the engine looks at the environment, which it does at the start of a
  step, at each try of a GETC or IN that waits and at each poll of the keyboard. -/
  environment : List EnvEvent
  /-- What the environment does after the last entry of `environment`, again and again without end: an
  endless source. Nothing more happens if it is empty. -/
  recurring   : List EnvEvent
  /-- The configuration, which no step changes (rule R7). -/
  config      : Config
  deriving DecidableEq, Repr

/-- The reasons a step stops with no next state: there are none. The hardware's own faults lead to the
state FAULTED (rule R192), and a service that never ends goes on from step to step (rule R169). -/
inductive Fault where
  deriving DecidableEq, Repr

/-- The reasons an instruction has no meaning. -/
inductive Refusal where
  /-- An arm of `exec` that has no meaning yet. Raised by no arm now. Safe. -/
  | notModelled (mnemonic : String)
  deriving DecidableEq, Repr

/-- The state right after reset (rule R37): "fully zero-initialized except for the program counter
(set to the architecture's fixed entry address, 0x3000) and the condition code (initialized to
ZERO)". DESIGN CHOICE: the input queue, which reset does not touch, and the future of the
environment are empty (notes/assumptions/7.md). -/
def State.reset : State where
  regs        := Vector.replicate 8 0#16
  pc          := 0x3000#16
  cond        := .zero
  run         := .running
  fault       := none
  mem         := []
  input       := []
  output      := []
  stopReq     := false
  hold        := none
  environment := []
  recurring   := []
  config      := Config.default

end Sys2Proof.Machine
end

