-- ==== Sys2Proof/Machine/Flags.lean ====
section
/-! DEFINITION. The condition code: computed from a result (rule R26), as the one-hot value BR tests
(rule R31), and the test itself (rule R130). No other flag exists (rule R125). -/

namespace Sys2Proof.Machine

/-- The condition code of a result word: "ZERO if the Word equals 0; NEGATIVE if the Word's most
significant bit is set; POSITIVE otherwise" (rule R26). -/
def condOf (v : Word) : Cond :=
  if v = 0#16 then .zero else if v.msb then .negative else .positive

/-- COND as a one-hot 3-bit value: NEGATIVE 0b100, ZERO 0b010, POSITIVE 0b001 (rule R31). -/
def Cond.oneHot : Cond → BitVec 3
  | .negative => 0b100#3
  | .zero => 0b010#3
  | .positive => 0b001#3

/-- The condition of BR: the mask bit of the current condition code is set (rule R130). -/
def brTaken (n z p : Bool) : Cond → Bool
  | .negative => n
  | .zero => z
  | .positive => p

end Sys2Proof.Machine
end

