-- ==== Sys2Proof/Machine/Memory.lean ====
section
/-! DEFINITION. Raw access to one cell of the memory array, `M[a]` of rule R18, in the canonical form
of `Memory.wf`. -/

namespace Sys2Proof.Machine

/-- The word at a key; an unlisted address reads as zero (rule R37). -/
def lookupCell (k : Nat) : Memory → Word
  | [] => 0#16
  | c :: rest => if c.1 = k then c.2 else lookupCell k rest

/-- List `v` at the key `k`, or drop the entry when `v` is what an unlisted address reads as. -/
def storeCell (k : Nat) (v : Word) : Memory → Memory
  | [] => if v = 0#16 then [] else [(k, v)]
  | c :: rest =>
    if k < c.1 then (if v = 0#16 then c :: rest else (k, v) :: c :: rest)
    else if k = c.1 then (if v = 0#16 then rest else (k, v) :: rest)
    else c :: storeCell k v rest

/-- `M[a]`, with no side effect. Every address is legal (rule R51). -/
def Memory.read (m : Memory) (a : Word) : Word := lookupCell a.toNat m

/-- `M[a] <- v`, with no side effect. -/
def Memory.write (m : Memory) (a v : Word) : Memory := storeCell a.toNat v m

end Sys2Proof.Machine
end

