-- ==== Sys2Proof/Machine/Ops.lean ====
section
/-! DEFINITION. The named operations of rule R18 over the state: registers, the flag update, memory
access with the keyboard poll, the ports, the raising of a fault and the link write that every TRAP
makes on entry. No trap or fault is ever returned from by an instruction: a service ends by ending
(rule R204), and a fault is terminal (rule R195). -/

namespace Sys2Proof.Machine

/-! ### One setter for each field a step writes -/

/-- `R[i]` (rule R18). -/
def State.reg (s : State) (r : Reg) : Word := s.regs.get r

/-- `R[i] <- v` (rule R18). No register is hardwired (rule R20). -/
def State.setReg (s : State) (r : Reg) (v : Word) : State :=
  { s with regs := s.regs.set r.val v r.isLt }

/-- `PC <- v`. -/
def State.setPc (s : State) (v : Word) : State := { s with pc := v }

/-- `COND <- c`. -/
def State.setCond (s : State) (c : Cond) : State := { s with cond := c }

/-- `RUN <- r`. -/
def State.setRun (s : State) (r : RunState) : State := { s with run := r }

/-- `FAULT <- f`. -/
def State.setFault (s : State) (f : FaultRecord) : State := { s with fault := some f }

/-- Replace the memory array. -/
def State.setMem (s : State) (m : Memory) : State := { s with mem := m }

/-- Replace the input queue. -/
def State.setInput (s : State) (q : List Byte) : State := { s with input := q }

/-- Mark the step as not ended, or as ended (rules R116, R169). -/
def State.setHold (s : State) (w : Option Wait) : State := { s with hold := w }

/-- Append bytes to the output log. -/
def State.emit (s : State) (bs : List Byte) : State := { s with output := s.output ++ bs }

/-! ### Registers and flags -/

/-- `setcc(i)`: COND from the word that register i holds now (rule R26). -/
def State.setcc (s : State) (r : Reg) : State := s.setCond (condOf (s.reg r))

/-- `R[i] <- v; setcc(i)`, the end of every flag-setting instruction (rule R27). -/
def State.setResult (s : State) (r : Reg) (v : Word) : State := (s.setReg r v).setcc r

/-- `R[7] <- PC`, the link write of JSR, JSRR and every TRAP; COND stays (rules R27, R160). -/
def State.link (s : State) : State := s.setReg 7 s.pc

/-! ### The ports -/

/-- The environment's coming events. -/
def State.upcoming (s : State) : List EnvEvent :=
  if s.environment = [] then s.recurring else s.environment

/-- The environment may add input characters and raise the stop request "at any point between or
during steps" (rules R9, R236): its next event takes effect. It acts before each look that the engine
takes at it, at the start of a step, at each try of a GETC or IN that waits and at each poll; nothing
could see an arrival in between. -/
def State.environmentActs (s : State) : State :=
  match s.upcoming with
  | [] => s
  | e :: rest =>
    { s with
      environment := rest
      input := s.input ++ e.chars
      stopReq := s.stopReq || e.stop }

/-- `InAvail()`: a character is pending; nothing is consumed (rule R12). -/
def State.inAvail (s : State) : Bool := !s.input.isEmpty

/-- `InTake()`: the oldest pending character and the state without it, or nothing while the queue is
empty, where the engine waits (rule R12). -/
def State.inTake (s : State) : Option (Byte × State) :=
  match s.input with
  | [] => none
  | c :: rest => some (c, s.setInput rest)

/-- `Out(b)`: append one byte to the output (rule R13). -/
def State.out (s : State) (b : Byte) : State := s.emit [b]

/-- What the engine exposes: the run state, and the fault record when it is faulted (rule R16). -/
def State.status (s : State) : RunState × Option FaultRecord :=
  (s.run, if s.run = .faulted then s.fault else none)

/-! ### Memory access -/

/-- `zext_8(b)`, the word `0x00 ++ b` (rule R18). -/
def zext8 (b : Byte) : Word := 0x00#8 ++ b

/-- `MemWrite(a, 1, v)`: "a plain store with no side effects for any address" (rule R57). -/
def State.memWrite (s : State) (a v : Word) : State := s.setMem (s.mem.write a v)

/-- `KbPoll()` once the environment has acted: a pending character is taken from the source, KBSR
becomes 0x8000 and KBDR the character; with none pending KBSR becomes zero and KBDR stays. -/
def State.latch (s : State) : State :=
  match s.inTake with
  | some (c, s') => (s'.memWrite s.config.kbsrAddr 0x8000#16).memWrite s.config.kbdrAddr (zext8 c)
  | none => s.memWrite s.config.kbsrAddr 0x0000#16

/-- `KbPoll()` (rule R55): a look at the input source. It never blocks. -/
def State.kbPoll (s : State) : State := s.environmentActs.latch

/-- The possible update that reading an address makes first (rule R54). -/
def State.pollAt (s : State) (a : Word) : State := if a = s.config.kbsrAddr then s.kbPoll else s

/-- `MemRead(a, 1)`: the word "currently stored at the target address after this possible update",
and the state the read leaves (rule R54). The engine has no other way to read memory. -/
def State.memRead (s : State) (a : Word) : Word × State :=
  ((s.pollAt a).mem.read a, s.pollAt a)

/-! ### Taking a fault -/

/-- `raise Kind(instr, addr)` (rule R192): the record and RUN, and "nothing else changes". -/
def State.raise (s : State) (kind : FaultKind) (instr addr : Word) : State :=
  (s.setFault { kind := kind, instr := instr, addr := addr }).setRun .faulted

end Sys2Proof.Machine
end

