-- ==== Sys2Proof/Machine/Operands.lean ====
section
/-! DEFINITION. The operand forms: sign extension (rule R19), the two bytes of a word (rule R17) and
the effective addresses of rule R144. In each, `s.pc` is the incremented PC (rule R112). -/

namespace Sys2Proof.Machine

/-- `sext_n(v)` (rule R19). -/
def sext {n : Nat} (v : BitVec n) : Word := v.signExtend 16

/-- `w[7:0]`, the low byte (rule R17). -/
def lowByte (w : Word) : Byte := w.extractLsb' 0 8

/-- `w[15:8]`, the high byte (rule R17). -/
def highByte (w : Word) : Byte := w.extractLsb' 8 8

/-- PC-relative: `PC + sext_n(offset)` modulo 2^16, n being 9 or, for JSR, 11 (rules R87, R144). -/
def State.pcRelative {n : Nat} (s : State) (offset : BitVec n) : Word := s.pc + sext offset

/-- Base plus offset: `R[BaseR] + sext_6(offset6)` modulo 2^16 (rule R144). -/
def State.baseOffset (s : State) (baseR : Reg) (offset6 : BitVec 6) : Word :=
  s.reg baseR + sext offset6

/-- Indirect: the pointer that `MemRead(PC + sext_9(PCoffset9), 1)` answers, and the state after that
read (rule R144). -/
def State.indirect (s : State) (pcOffset9 : BitVec 9) : Word × State :=
  s.memRead (s.pcRelative pcOffset9)

end Sys2Proof.Machine
end

