-- ==== Sys2Proof/Machine/Control.lean ====
section
/-! DEFINITION. Control transfer BR, JMP, JSR, JSRR (42_control.md). -/

namespace Sys2Proof.Machine

/-- BR: if the mask bit of COND is set, `PC <- PC + sext_9(PCoffset9)` (rule R130). -/
def execBr (n z p : Bool) (pcOffset9 : BitVec 9) (s : State) : Host.Outcome State Fault Refusal :=
  .next (if brTaken n z p s.cond then s.setPc (s.pcRelative pcOffset9) else s)

/-- JMP: `PC <- R[BaseR]` (rule R131). -/
def execJmp (baseR : Reg) (s : State) : Host.Outcome State Fault Refusal :=
  .next (s.setPc (s.reg baseR))

/-- JSR: `R[7] <- PC; PC <- PC + sext_11(PCoffset11)` (rule R132). -/
def execJsr (pcOffset11 : BitVec 11) (s : State) : Host.Outcome State Fault Refusal :=
  .next (s.link.setPc (s.link.pcRelative pcOffset11))

/-- JSRR: `R[7] <- PC; PC <- R[BaseR]`, the base register read AFTER the link write (rule R133). -/
def execJsrr (baseR : Reg) (s : State) : Host.Outcome State Fault Refusal :=
  .next (s.link.setPc (s.link.reg baseR))

end Sys2Proof.Machine
end

