-- ==== Sys2Proof/Machine/Load.lean ====
section
/-! DEFINITION. The loads LD, LDI, LDR and LEA (43_load.md). Every memory read is `memRead`, with its
keyboard side effect, and the state is threaded through the reads in the order of rule R59. -/

namespace Sys2Proof.Machine

/-- `R[DR] <- MemRead(ea, 1); setcc(DR)`, shared by the loads. -/
def State.loadFrom (s : State) (dr : Reg) (ea : Word) : State :=
  (s.memRead ea).2.setResult dr (s.memRead ea).1

/-- LD (rule R140). -/
def execLd (dr : Reg) (pcOffset9 : BitVec 9) (s : State) : Host.Outcome State Fault Refusal :=
  .next (s.loadFrom dr (s.pcRelative pcOffset9))

/-- LDI: the pointer is read first, then the data (rule R141). -/
def execLdi (dr : Reg) (pcOffset9 : BitVec 9) (s : State) : Host.Outcome State Fault Refusal :=
  .next ((s.indirect pcOffset9).2.loadFrom dr (s.indirect pcOffset9).1)

/-- LDR: the base register is read before DR is written (rule R142). -/
def execLdr (dr baseR : Reg) (offset6 : BitVec 6) (s : State) : Host.Outcome State Fault Refusal :=
  .next (s.loadFrom dr (s.baseOffset baseR offset6))

/-- LEA: "address computation only, no memory access; updates flags" (rule R143). -/
def execLea (dr : Reg) (pcOffset9 : BitVec 9) (s : State) : Host.Outcome State Fault Refusal :=
  .next (s.setResult dr (s.pcRelative pcOffset9))

end Sys2Proof.Machine
end

