-- ==== Sys2Proof/Machine/Operate.lean ====
section
/-! DEFINITION. The operate instructions ADD, AND, NOT (41_operate.md). -/

namespace Sys2Proof.Machine

/-- ADD, register mode: `R[DR] <- R[SR1] + R[SR2]; setcc(DR)` (rule R120). -/
def execAddReg (dr sr1 sr2 : Reg) (s : State) : Host.Outcome State Fault Refusal :=
  .next (s.setResult dr (s.reg sr1 + s.reg sr2))

/-- ADD, immediate mode: `R[DR] <- R[SR1] + sext_5(imm5); setcc(DR)` (rule R121). -/
def execAddImm (dr sr1 : Reg) (imm5 : BitVec 5) (s : State) : Host.Outcome State Fault Refusal :=
  .next (s.setResult dr (s.reg sr1 + sext imm5))

/-- AND, register mode: `R[DR] <- R[SR1] & R[SR2]; setcc(DR)` (rule R122). -/
def execAndReg (dr sr1 sr2 : Reg) (s : State) : Host.Outcome State Fault Refusal :=
  .next (s.setResult dr (s.reg sr1 &&& s.reg sr2))

/-- AND, immediate mode: "the mask is the SIGN-EXTENDED immediate" (rule R123). -/
def execAndImm (dr sr1 : Reg) (imm5 : BitVec 5) (s : State) : Host.Outcome State Fault Refusal :=
  .next (s.setResult dr (s.reg sr1 &&& sext imm5))

/-- NOT: `R[DR] <- ~R[SR]; setcc(DR)` (rule R124). -/
def execNot (dr sr : Reg) (s : State) : Host.Outcome State Fault Refusal :=
  .next (s.setResult dr (~~~(s.reg sr)))

end Sys2Proof.Machine
end

