-- ==== Sys2Proof/Machine/Reserved.lean ====
section
/-! DEFINITION. The reserved opcodes RTI and RES, fatal in every state (46_reserved.md). -/

namespace Sys2Proof.Machine

/-- RTI: `raise IllegalOpcode(instr, PC - 1)` (rule R180). -/
def execRti (instr : Word) (s : State) : Host.Outcome State Fault Refusal :=
  .next (s.raise .illegalOpcode instr (s.pc - 1))

/-- RES: `raise IllegalOpcode(instr, PC - 1)` (rule R181). -/
def execRes (instr : Word) (s : State) : Host.Outcome State Fault Refusal :=
  .next (s.raise .illegalOpcode instr (s.pc - 1))

end Sys2Proof.Machine
end

