-- ==== Sys2Proof/Machine/Store.lean ====
section
/-! DEFINITION. The stores ST, STI, STR (44_store.md). None writes a register or COND. -/

namespace Sys2Proof.Machine

/-- ST: `MemWrite(PC + sext_9(PCoffset9), 1, R[SR])` (rule R150). -/
def execSt (sr : Reg) (pcOffset9 : BitVec 9) (s : State) : Host.Outcome State Fault Refusal :=
  .next (s.memWrite (s.pcRelative pcOffset9) (s.reg sr))

/-- STI: one read, for the pointer, which polls if the pointer cell is KBSR, then the write (rule
R151). -/
def execSti (sr : Reg) (pcOffset9 : BitVec 9) (s : State) : Host.Outcome State Fault Refusal :=
  .next ((s.indirect pcOffset9).2.memWrite (s.indirect pcOffset9).1 (s.reg sr))

/-- STR: `MemWrite(R[BaseR] + sext_6(offset6), 1, R[SR])` (rule R152). -/
def execStr (sr baseR : Reg) (offset6 : BitVec 6) (s : State) : Host.Outcome State Fault Refusal :=
  .next (s.memWrite (s.baseOffset baseR offset6) (s.reg sr))

end Sys2Proof.Machine
end

