-- ==== Sys2Proof/Machine/Trap.lean ====
section
/-! DEFINITION. TRAP and its six services (45_trap.md). Each meaning begins with the common part,
`State.link`, "before anything else" (rule R160), and leaves PC at the incremented value. -/

namespace Sys2Proof.Machine

/-! ### The services that take a character -/

/-- GETC from its `InTake()` on (rule R162). While no character is pending the step is held (rule
R116). -/
def State.finishGetc (s : State) : State :=
  match s.inTake with
  | some (c, s') => (s'.setHold none).setResult 0 (zext8 c)
  | none => s.setHold (some .getc)

/-- IN from its `InTake()` on: the echo, then R0 and the flags (rule R165). While no character is
pending the step is held (rule R116). -/
def State.finishIn (s : State) : State :=
  match s.inTake with
  | some (c, s') => ((s'.setHold none).out c).setResult 0 (zext8 c)
  | none => s.setHold (some .inService)

/-- GETC, vector 0x20 (rule R162). -/
def execTrapGetc (s : State) : Host.Outcome State Fault Refusal := .next s.link.finishGetc

/-- IN, vector 0x23: the prompt is written before the engine waits (rule R165). -/
def execTrapIn (s : State) : Host.Outcome State Fault Refusal :=
  .next (s.link.emit s.config.inPrompt).finishIn

/-! ### The services that only write -/

/-- OUT, vector 0x21: `Out(R[0][7:0])` (rule R163). -/
def execTrapOut (s : State) : Host.Outcome State Fault Refusal :=
  .next (s.link.out (lowByte (s.link.reg 0)))

/-- PUTS writes the low byte of each word (rule R164, decision D6). -/
def putsChars (w : Word) : List Byte := [lowByte w]

/-- PUTSP writes the low byte if it is not zero, then the high byte if it is not zero (rule R166). -/
def putspChars (w : Word) : List Byte :=
  (if lowByte w = 0#8 then [] else [lowByte w]) ++ (if highByte w = 0#8 then [] else [highByte w])

/-- The bytes a service makes of one word it reads; GETC and IN read none. -/
def Wait.chars : Wait → Word → List Byte
  | .puts => putsChars
  | .putsp => putspChars
  | .getc => fun _ => []
  | .inService => fun _ => []

/-- The loop of PUTS and PUTSP (rules R164, R166): read the word at `a` with `MemRead`; a zero word
ends the loop; any other writes the bytes `w.chars` makes of it, and the address goes up by one,
modulo 2^16. After the number of reads in the first argument the service has not ended, and `w` marks
it (rule R169). -/
def stringLoop (w : Wait) : Nat → Word → State → State
  | 0, _, s => s.setHold (some w)
  | reads + 1, a, s =>
    if (s.memRead a).1 = 0#16 then (s.memRead a).2
    else stringLoop w reads (a + 1) ((s.memRead a).2.emit (w.chars (s.memRead a).1))

/-- The characters that the source holds, and those that come with an event of either list. -/
def State.supply (s : State) : List Byte :=
  s.input ++ (s.environment ++ s.recurring).flatMap EnvEvent.chars

/-- A number of polls after which nothing new can happen: if this many in a row each find a character
that is not zero, all later ones do (Sys2Proof/Laws/Strings.lean). -/
def State.pollBound (s : State) : Nat :=
  (s.recurring.length + 1) * (s.supply.length + 1) + s.environment.length

/-- A number of reads, a multiple of 65536, that a string service which ends at all does not outlast:
it reads the whole address space, and KBSR more than `pollBound` times (DEDUCED,
notes/assumptions/10.md). -/
def State.stringReads (s : State) : Nat := 65536 + 65536 * s.pollBound

/-- The whole of a string service, which is part of one step (rule R114), from the address in R0 up. A
service that meets no zero word in `stringReads` reads never ends. It is then back at the address in
R0, R0 being unchanged. -/
def State.writeString (s : State) (w : Wait) : State := stringLoop w s.stringReads (s.reg 0) s

/-- PUTS, vector 0x22 (rule R164). -/
def execTrapPuts (s : State) : Host.Outcome State Fault Refusal := .next (s.link.writeString .puts)

/-- PUTSP, vector 0x24 (rule R166). -/
def execTrapPutsp (s : State) : Host.Outcome State Fault Refusal := .next (s.link.writeString .putsp)

/-! ### HALT and the unknown vector -/

/-- HALT, vector 0x25: the notice, then RUN becomes HALTED (rule R167). -/
def execTrapHalt (s : State) : Host.Outcome State Fault Refusal :=
  .next ((s.link.emit s.config.haltNotice).setRun .halted)

/-- TRAP with an unrecognised vector: `raise IllegalTrapVector(instr, PC - 1)` after the link write
(rule R168). -/
def execTrapUnknown (instr : Word) (s : State) : Host.Outcome State Fault Refusal :=
  .next (s.link.raise .illegalTrapVector instr (s.pc - 1))

end Sys2Proof.Machine
end

