-- ==== Sys2Proof/Machine/Cycle.lean ====
section
/-! DEFINITION. The fetch-decode-execute cycle (40_cycle.md): the stop
request, the fetch, the step that waits, and the step of a running engine. -/

namespace Sys2Proof.Machine

/-- `RUN <- STOPPED` and nothing else (rule R200). A step that waited is over. -/
def State.stop (s : State) : State := (s.setHold none).setRun .stopped

/-- The fetch: `instr = MemRead(PC, 1)`, then `PC <- PC + 1` modulo 2^16 (rule R110). -/
def State.fetch (s : State) : Word × State :=
  ((s.memRead s.pc).1, (s.memRead s.pc).2.setPc (s.pc + 1))

/-- Fetch, decode, execute (rule R110). -/
def State.runInstruction (s : State) : Host.Outcome State Fault Refusal :=
  exec (s.config.encoding.decode s.fetch.1) s.fetch.2

/-- The step of an engine that waits for a character in GETC or IN, once the environment has acted. An
arriving character ends the wait (rule R116). Under reading (b) of rule R201 a stop request ends it
where no character is pending. -/
def State.waitFor (s : State) (finish : State → State) : State :=
  if s.config.stopEndsWait && s.stopReq && !s.inAvail then s.stop else finish s

/-- A held service goes on: GETC and IN at their `InTake()` (rule R116), and a PUTS or PUTSP that never
ends with its next read (rule R169). Inside that step the engine looks at the environment in its polls
only, and a stop request is not seen (rule R201). -/
def State.resume (s : State) : Wait → State
  | .getc => s.environmentActs.waitFor State.finishGetc
  | .inService => s.environmentActs.waitFor State.finishIn
  | .puts => (s.setHold none).writeString .puts
  | .putsp => (s.setHold none).writeString .putsp

/-- The start of a step, once the environment has acted: the stop request is seen here, before the
fetch (rule R113). -/
def State.beginStep (s : State) : Host.Outcome State Fault Refusal :=
  if s.stopReq then .next s.stop else s.runInstruction

/-- The step of a running engine: a service that has not ended goes on, or a new step begins. -/
def State.runningStep (s : State) : Host.Outcome State Fault Refusal :=
  match s.hold with
  | some w => .next (s.resume w)
  | none => s.environmentActs.beginStep

/-- One step of the engine. In HALTED, FAULTED and STOPPED "the engine fetches nothing and changes no
state" (rules R28, R111). -/
def State.engineStep (s : State) : Host.Outcome State Fault Refusal :=
  match s.run with
  | .running => s.runningStep
  | .halted => .next s
  | .faulted => .next s
  | .stopped => .next s

end Sys2Proof.Machine
end

