-- ==== Sys2Proof/Machine/Step.lean ====
section
/-! DEFINITION. The step function, and the placing of one instruction where it is fetched next. -/

namespace Sys2Proof.Machine

/-- `Step()` of rule R110. -/
def step (s : State) : Host.Outcome State Fault Refusal := s.engineStep

/-- `s` with one instruction word at PC, as a loader would place it (rule R229). -/
def State.withFetchWord (s : State) (nbits w : Nat) : State :=
  s.memWrite s.pc (BitVec.ofNat 16 (w % 2 ^ nbits))

end Sys2Proof.Machine
end

