-- ==== Sys2Proof/Machine/Loader.lean ====
section
/-! DEFINITION. The boot interface: the image format and what the loader does to memory before the
first step (70_reset_and_hazards.md section 2). `none` is a load failure, after which no run exists
(rule R231). -/

namespace Sys2Proof.Machine

/-- An image: the origin and the payload words (rule R226). -/
structure Image where
  origin  : Word
  payload : List Word
  deriving DecidableEq, Repr

/-- A big-endian word: the first byte is bits 15:8 (rules R60, R226). -/
def bigEndian (first second : Byte) : Word := first ++ second

/-- The whole words of a byte sequence; "a file with an odd number of bytes has its last byte ignored"
(rule R230). -/
def wordsOfBytes : List Byte → List Word
  | [] => []
  | [_] => []
  | first :: second :: rest => bigEndian first second :: wordsOfBytes rest

/-- `[origin: u16][payload: u16...]`; fewer than 2 bytes have no origin and fail (rules R226, R230). -/
def parseImage : List Byte → Option Image
  | [] => none
  | [_] => none
  | first :: second :: rest =>
    some { origin := bigEndian first second, payload := wordsOfBytes rest }

/-- Write words from an address up, "and never writes past address 65535 but also never wraps into low
memory" (rule R227). -/
def placeWords : Nat → List Word → Memory → Memory
  | _, [], m => m
  | a, w :: ws, m => if a < 65536 then placeWords (a + 1) ws (m.write (BitVec.ofNat 16 a) w) else m

/-- `Load(bytes)`: raw writes, which change memory only (rules R220, R226, R229). -/
def State.loadImage (s : State) (bytes : List Byte) : Option State :=
  match parseImage bytes with
  | none => none
  | some i => some (s.setMem (placeWords i.origin.toNat i.payload s.mem))

/-- Several images "in the order given; where two cover the same address the later one's word stays"
(rule R228). One that fails leaves no run (rule R231). -/
def State.loadImages (s : State) : List (List Byte) → Option State
  | [] => some s
  | bytes :: more =>
    match s.loadImage bytes with
    | none => none
    | some s' => s'.loadImages more

/-- The start sequence of rule R220 under a configuration: the reset values, then the loader. -/
def boot (c : Config) (images : List (List Byte)) : Option State :=
  { State.reset with config := c }.loadImages images

end Sys2Proof.Machine
end

