-- ==== Sys2Proof/Machine/Assembly.lean ====
section
/-! DEFINITION. What the assembler notation of rules R92 and R93 expands to: pseudo-instructions, label
offsets, directives and the image bytes. It is the spec's notation, "not a property of the hardware";
no meaning uses it. -/

namespace Sys2Proof.Machine

/-- `RET` is `JMP R7`. -/
def asmRet : Instr := .jmp 7

/-- `NOP` is BR with mask 000 and offset 0. -/
def asmNop : Instr := .br false false false 0

/-- `BR LABEL` with no letters is `BRnzp LABEL`. -/
def asmBr (pcOffset9 : BitVec 9) : Instr := .br true true true pcOffset9

/-- The offset field of an instruction at `addr` that names `label`: `LABEL - (address + 1)`. DESIGN
CHOICE: the low n bits of the difference, also where it is outside the field's signed range, for which
the spec states no field (notes/assumptions/16.md). -/
def labelOffset (n : Nat) (addr label : Word) : BitVec n := (label - (addr + 1)).setWidth n

/-- One line of source text that puts words into the image. -/
inductive AsmItem where
  /-- An instruction or a pseudo-instruction. -/
  | instr (i : Instr)
  /-- `.FILL v`: one word. -/
  | fill (v : Word)
  /-- `.BLKW n`: n words of zero. -/
  | blkw (n : Nat)
  /-- `.STRINGZ`: one word a character, then a zero word. -/
  | stringz (chars : List Byte)
  deriving DecidableEq, Repr

/-- The words of one line. -/
def AsmItem.words (e : Encoding) : AsmItem → List Word
  | .instr i => [e.assembled i]
  | .fill v => [v]
  | .blkw n => List.replicate n 0#16
  | .stringz cs => cs.map zext8 ++ [0#16]

/-- `.ORIG` and the lines after it. -/
def assemble (e : Encoding) (origin : Word) (items : List AsmItem) : Image :=
  { origin := origin, payload := items.flatMap (AsmItem.words e) }

/-- The two bytes of a word, bits 15:8 first. -/
def bytesOfWord (w : Word) : List Byte := [w.extractLsb' 8 8, w.extractLsb' 0 8]

/-- The image file: the origin word and then the payload words, each big-endian (rule R226). -/
def Image.bytes (i : Image) : List Byte := bytesOfWord i.origin ++ i.payload.flatMap bytesOfWord

end Sys2Proof.Machine
end

