-- ==== Sys2Proof/Safety.lean ====
section
/-! DEFINITION. What counts as a safe run (rule R195), the invariant of the machine, and the words the
claims are stated in: what a state keeps, what a result does to COND, and what one read does. -/

namespace Sys2Proof.Safety

open Sys2Proof.Machine

/-! ### Safe runs -/

/-- "a model's safety predicate must count RUN = FAULTED as \"gone wrong\"" (rule R195). -/
abbrev GoneWrong (s : State) : Prop := s.run = .faulted

/-- No number of steps goes wrong. -/
def SafeRun (s : State) : Prop := ∀ n t, Sys2Proof.core.run n s = .next t → ¬ GoneWrong t

/-- The run ends normally: some number of steps reaches HALTED (rule R117). -/
def Halts (s : State) : Prop := ∃ n t, Sys2Proof.core.run n s = .next t ∧ t.run = .halted

/-! ### What a state keeps of another -/

/-- Every register outside the list is unchanged. -/
def RegsKeptBut (rs : List Reg) (s t : State) : Prop := ∀ r, r ∉ rs → t.reg r = s.reg r

/-- Every cell of memory outside the list reads as before. -/
def CellsKeptBut (cells : List Word) (s t : State) : Prop :=
  ∀ a, a ∉ cells → t.mem.read a = s.mem.read a

/-- The input queue and the output log are unchanged. -/
def PortsKept (s t : State) : Prop := t.input = s.input ∧ t.output = s.output

/-- RUN, the fault record and the mark of a waiting step are unchanged. -/
def RunKept (s t : State) : Prop := t.run = s.run ∧ t.fault = s.fault ∧ t.hold = s.hold

/-- The stop request, the environment's future and the configuration are unchanged. -/
def WorldKept (s t : State) : Prop :=
  t.stopReq = s.stopReq ∧ t.environment = s.environment ∧ t.recurring = s.recurring ∧
  t.config = s.config

/-- The environment's next `n` events, and nothing else, act on `s`. -/
def afterEvents : Nat → State → State
  | 0, s => s
  | n + 1, s => afterEvents n s.environmentActs

/-- The frame of an instruction that leaves the ports and the run alone: `rs` and `cells` are what it
may write. PC and COND are not part of it. -/
def Frame (rs : List Reg) (cells : List Word) (s t : State) : Prop :=
  RegsKeptBut rs s t ∧ CellsKeptBut cells s t ∧ PortsKept s t ∧ RunKept s t ∧ WorldKept s t


/-! ### What a result does to COND, and what a read does -/

/-- COND agrees with a result word (rules R26, R126). -/
def CondAgrees (v : Word) (c : Cond) : Prop :=
  (v.toNat = 0 → c = .zero) ∧
  (1 ≤ v.toNat ∧ v.toNat ≤ 0x7FFF → c = .positive) ∧
  (0x8000 ≤ v.toNat → c = .negative)

/-- `t` is `s` after `MemRead(a, 1)` answered `v`, as far as memory, the input queue and the world go
(rules R54, R55): a read of KBSR polls, after the environment has acted; any other read changes
nothing. -/
def ReadGives (s : State) (a v : Word) (t : State) : Prop :=
  (a ≠ s.config.kbsrAddr →
    v = s.mem.read a ∧ CellsKeptBut [] s t ∧ t.input = s.input ∧ WorldKept s t) ∧
  (a = s.config.kbsrAddr → s.environmentActs.input = [] →
    v = 0x0000#16 ∧ t.mem.read s.config.kbsrAddr = 0x0000#16 ∧
    CellsKeptBut [s.config.kbsrAddr] s t ∧ t.input = [] ∧ WorldKept s.environmentActs t) ∧
  (a = s.config.kbsrAddr → ∀ c rest, s.environmentActs.input = c :: rest →
    v = 0x8000#16 ∧ t.mem.read s.config.kbsrAddr = 0x8000#16 ∧
    t.mem.read s.config.kbdrAddr = c.setWidth 16 ∧
    CellsKeptBut [s.config.kbsrAddr, s.config.kbdrAddr] s t ∧ t.input = rest ∧
    WorldKept s.environmentActs t)

/-- `ws` are the words, none of them zero, that a string service reads from `a` up, each by `MemRead`;
`t` is the state after the last read (rules R164, R166). -/
def StringWords : List Word → Word → State → State → Prop
  | [], _, s, t => CellsKeptBut [] s t ∧ t.input = s.input ∧ WorldKept s t
  | w :: ws, a, s, t => w ≠ 0x0000#16 ∧ ∃ m, ReadGives s a w m ∧ StringWords ws (a + 1) m t

/-- `ws` are the words that a string service reads from `a` up until a read answers zero; `t` is the
state after that read. -/
def StringEnds (ws : List Word) (a : Word) (s t : State) : Prop :=
  ∃ m, StringWords ws a s m ∧ ReadGives m (a + BitVec.ofNat 16 ws.length) 0x0000#16 t

/-- A string service at the address in R0 never ends: no number of reads comes to a zero word (rule
R169). -/
def NeverEnds (s : State) : Prop := ∀ ws t, ¬ StringEnds ws (s.reg 0) s t

/-- The three bits of a register field. -/
def regBits (r : Reg) : BitVec 3 := BitVec.ofNat 3 r.val

/-- Apply a function to the next state of an outcome. -/
def mapNext (f : State → State) : Host.Outcome State Fault Refusal → Host.Outcome State Fault Refusal
  | .next s => .next (f s)
  | .fault r => .fault r
  | .refused r => .refused r

/-! ### The invariant -/

/-- The fault record tells the truth: the word is illegal in the way the kind says, it was fetched one
below PC, and a bad trap vector has written R7 (rules R190, R191, R192). -/
def FaultTrue (s : State) (f : FaultRecord) : Prop :=
  s.pc = f.addr + 1 ∧
  (f.kind = .illegalOpcode →
    s.config.encoding.decode f.instr = .rti f.instr ∨
    s.config.encoding.decode f.instr = .res f.instr) ∧
  (f.kind = .illegalTrapVector →
    s.config.encoding.decode f.instr = .trapUnknown f.instr ∧ s.reg 7 = s.pc)

/-- What holds of every state that a run can reach. -/
structure Inv (s : State) : Prop where
  /-- Memory is in canonical form. -/
  memory  : s.mem.wf
  /-- The keyboard addresses differ and the encoding table is usable (rule R7). -/
  config  : s.config.wf = true
  /-- The record is there exactly in FAULTED, and is true (rule R29). -/
  fault   : match s.fault with
            | none => s.run ≠ .faulted
            | some f => s.run = .faulted ∧ FaultTrue s f
  /-- A service is held only while running, with the link written and, for IN, the prompt (rule R116);
  a PUTS or PUTSP only if it never ends (rules R114, R169). -/
  hold    : match s.hold with
            | none => True
            | some .getc => s.run = .running ∧ s.reg 7 = s.pc
            | some .inService => s.run = .running ∧ s.reg 7 = s.pc ∧ s.config.inPrompt <:+ s.output
            | some .puts => s.run = .running ∧ s.reg 7 = s.pc ∧ NeverEnds s
            | some .putsp => s.run = .running ∧ s.reg 7 = s.pc ∧ NeverEnds s
  /-- HALTED is entered by TRAP HALT only, which has written R7 and the notice (rule R167). -/
  halted  : s.run = .halted → s.reg 7 = s.pc ∧ s.config.haltNotice <:+ s.output
  /-- STOPPED is entered by an observed stop request only (rule R200). -/
  stopped : s.run = .stopped → s.stopReq = true

end Sys2Proof.Safety
end

