-- ==== Sys2Proof/Certificates/Slice0/Obligations.lean ====
section
/-! DEFINITION. The statements for the provers. Each docstring names the rule of the spec it
formalises. Words are written out as the rows of rule R86 write them: `regBits d` is a register field,
`x` and `y` are ignored bits. In a meaning `s.pc` is the incremented PC (rule R112). A signed field v
is used as `BitVec.ofInt 16 v.toInt`, which is not the model's own sign extension. -/

namespace Sys2Proof.Statements

open Sys2Proof.Machine Sys2Proof.Safety

/-! ### Words shared by several statements -/

/-- The premises of a statement about a memory read or write: memory is in canonical form, and the two
keyboard addresses differ (rule R7). -/
def Sound (s : State) : Prop := s.mem.wf ∧ s.config.kbsrAddr ≠ s.config.kbdrAddr

/-- What a load leaves alone, besides what its reads say of memory, the input queue and the world:
registers outside `rs`, the output and the run. -/
def LoadFrame (rs : List Reg) (s t : State) : Prop :=
  RegsKeptBut rs s t ∧ t.output = s.output ∧ RunKept s t

/-- What a string service does besides its output: it reads the words `ws` from R0 up, and the next
read answers zero and ends it, in this one step, if any number of reads comes to a zero word; else it
never ends, and is held as `w` after whole rounds of the address space (notes/assumptions/10.md). R7 is
written; PC, COND, the other registers and the run stay. -/
def ReadsString (w : Wait) (ws : List Word) (s t : State) : Prop :=
  ((StringEnds ws (s.reg 0) s t ∧ t.hold = s.hold) ∨
   (NeverEnds s ∧ StringWords ws (s.reg 0) s t ∧ t.hold = some w ∧
     65536 ≤ ws.length ∧ ws.length % 65536 = 0)) ∧
  t.reg 7 = s.pc ∧ t.pc = s.pc ∧ t.cond = s.cond ∧ RegsKeptBut [7] s t ∧
  t.run = s.run ∧ t.fault = s.fault

/-- No read of memory answers zero, now or later: no cell but KBSR holds zero, and the source is
endless, delivers at every look and never a zero character. -/
def NeverZero (s : State) : Prop :=
  Sound s ∧ (∀ a, a ≠ s.config.kbsrAddr → s.mem.read a ≠ 0x0000#16) ∧
  (∀ c ∈ s.input, c ≠ 0x00#8) ∧ s.recurring ≠ [] ∧
  ∀ e ∈ s.environment ++ s.recurring, e.chars ≠ [] ∧ ∀ c ∈ e.chars, c ≠ 0x00#8

/-- What a TRAP that goes on leaves alone: every register but those in `rs`, every cell of memory, PC,
RUN, the fault record and the world. -/
def TrapFrame (rs : List Reg) (s t : State) : Prop :=
  RegsKeptBut rs s t ∧ CellsKeptBut [] s t ∧ t.pc = s.pc ∧ t.run = s.run ∧ t.fault = s.fault ∧
  WorldKept s t

/-- What raising a fault leaves alone (rule R192). -/
def RaiseFrame (rs : List Reg) (s t : State) : Prop :=
  RegsKeptBut rs s t ∧ CellsKeptBut [] s t ∧ PortsKept s t ∧ t.pc = s.pc ∧ t.cond = s.cond ∧
  t.hold = s.hold ∧ WorldKept s t

/-- The register a flag-setting instruction defines (rule R27). -/
def flagResult : Instr → Option Reg
  | .addReg d _ _ => some d
  | .addImm d _ _ => some d
  | .andReg d _ _ => some d
  | .andImm d _ _ => some d
  | .not d _ => some d
  | .ld d _ => some d
  | .ldi d _ => some d
  | .ldr d _ _ => some d
  | .lea d _ => some d
  | .trapGetc => some 0
  | .trapIn => some 0
  | .br _ _ _ _ | .jmp _ | .jsr _ | .jsrr _ | .st _ _ | .sti _ _ | .str _ _ _
  | .trapOut | .trapPuts | .trapPutsp | .trapHalt | .trapUnknown _ | .rti _ | .res _ => none

/-- The instruction takes a character with `InTake()`. -/
def takesCharacter (i : Instr) : Prop := i = .trapGetc ∨ i = .trapIn

/-- The registers an instruction reads, by the table of rule R22. -/
def readsOf : Instr → List Reg
  | .addReg _ a b => [a, b]
  | .addImm _ a _ => [a]
  | .andReg _ a b => [a, b]
  | .andImm _ a _ => [a]
  | .not _ a => [a]
  | .jmp b => [b]
  | .jsrr b => [b]
  | .ldr _ b _ => [b]
  | .st r _ => [r]
  | .sti r _ => [r]
  | .str r b _ => [r, b]
  | .trapOut | .trapPuts | .trapPutsp => [0]
  | .br _ _ _ _ | .jsr _ | .ld _ _ | .ldi _ _ | .lea _ _
  | .trapGetc | .trapIn | .trapHalt | .trapUnknown _ | .rti _ | .res _ => []

/-- The registers an instruction writes, by the table of rule R22. -/
def writesOf : Instr → List Reg
  | .addReg d _ _ => [d]
  | .addImm d _ _ => [d]
  | .andReg d _ _ => [d]
  | .andImm d _ _ => [d]
  | .not d _ => [d]
  | .jsr _ => [7]
  | .jsrr _ => [7]
  | .ld d _ => [d]
  | .ldi d _ => [d]
  | .ldr d _ _ => [d]
  | .lea d _ => [d]
  | .trapGetc | .trapIn => [7, 0]
  | .trapOut | .trapPuts | .trapPutsp | .trapHalt | .trapUnknown _ => [7]
  | .br _ _ _ _ | .jmp _ | .st _ _ | .sti _ _ | .str _ _ _ | .rti _ | .res _ => []

/-- PC after the instruction, by the table of rule R24; `s.pc` is `PC'`. -/
def pcAfter (s : State) : Instr → Word
  | .br n z p o =>
    if (n = true ∧ s.cond = .negative) ∨ (z = true ∧ s.cond = .zero) ∨
       (p = true ∧ s.cond = .positive)
    then s.pc + BitVec.ofInt 16 o.toInt else s.pc
  | .jmp b => s.reg b
  | .jsr o => s.pc + BitVec.ofInt 16 o.toInt
  | .jsrr b => if b = 7 then s.pc else s.reg b
  | .addReg _ _ _ | .addImm _ _ _ | .andReg _ _ _ | .andImm _ _ _ | .not _ _
  | .ld _ _ | .ldi _ _ | .ldr _ _ _ | .lea _ _ | .st _ _ | .sti _ _ | .str _ _ _
  | .trapGetc | .trapOut | .trapPuts | .trapIn | .trapPutsp | .trapHalt | .trapUnknown _
  | .rti _ | .res _ => s.pc

/-- ST, STI, STR: the users of `MemWrite` (rule R57). -/
def storesMemory : Instr → Bool
  | .st _ _ | .sti _ _ | .str _ _ _ => true
  | .addReg _ _ _ | .addImm _ _ _ | .andReg _ _ _ | .andImm _ _ _ | .not _ _
  | .br _ _ _ _ | .jmp _ | .jsr _ | .jsrr _ | .ld _ _ | .ldi _ _ | .ldr _ _ _ | .lea _ _
  | .trapGetc | .trapOut | .trapPuts | .trapIn | .trapPutsp | .trapHalt | .trapUnknown _
  | .rti _ | .res _ => false

/-- The instructions that read memory after the fetch (rule R59). -/
def readsMemory : Instr → Bool
  | .ld _ _ | .ldi _ _ | .ldr _ _ _ | .sti _ _ | .trapPuts | .trapPutsp => true
  | .addReg _ _ _ | .addImm _ _ _ | .andReg _ _ _ | .andImm _ _ _ | .not _ _
  | .br _ _ _ _ | .jmp _ | .jsr _ | .jsrr _ | .lea _ _ | .st _ _ | .str _ _ _
  | .trapGetc | .trapOut | .trapIn | .trapHalt | .trapUnknown _
  | .rti _ | .res _ => false

/-- The services that write output (rule R170). -/
def writesOutput : Instr → Bool
  | .trapOut | .trapPuts | .trapIn | .trapPutsp | .trapHalt => true
  | .addReg _ _ _ | .addImm _ _ _ | .andReg _ _ _ | .andImm _ _ _ | .not _ _
  | .br _ _ _ _ | .jmp _ | .jsr _ | .jsrr _ | .ld _ _ | .ldi _ _ | .ldr _ _ _ | .lea _ _
  | .st _ _ | .sti _ _ | .str _ _ _ | .trapGetc | .trapUnknown _ | .rti _ | .res _ => false

/-- The engine takes its next step with this instruction: it runs, no service waits and no stop
request is up, after the environment has acted. -/
def Fetches (s : State) : Prop :=
  s.run = .running ∧ s.hold = none ∧ s.environmentActs.stopReq = false

end Sys2Proof.Statements

open Sys2Proof Sys2Proof.Machine Sys2Proof.Safety Sys2Proof.Statements

/-! ### Operate instructions -/

/-- Rule R120. -/
def Obligations.AddRegisterModeAdds : Prop :=
  (∀ (d a b : Reg) (x : BitVec 2),
    Encoding.published.decode
      (0b0001#4 ++ regBits d ++ regBits a ++ 0b0#1 ++ x ++ regBits b) = .addReg d a b) ∧
  ∀ (d a b : Reg) (s : State), ∃ t, exec (.addReg d a b) s = .next t ∧
    (t.reg d).toNat = ((s.reg a).toNat + (s.reg b).toNat) % 65536 ∧
    CondAgrees (t.reg d) t.cond ∧ t.pc = s.pc ∧ Frame [d] [] s t

/-- Rule R121. -/
def Obligations.AddImmediateModeAdds : Prop :=
  (∀ (d a : Reg) (i : BitVec 5),
    Encoding.published.decode
      (0b0001#4 ++ regBits d ++ regBits a ++ 0b1#1 ++ i) = .addImm d a i) ∧
  ∀ (d a : Reg) (i : BitVec 5) (s : State), ∃ t, exec (.addImm d a i) s = .next t ∧
    t.reg d = s.reg a + BitVec.ofInt 16 i.toInt ∧
    CondAgrees (t.reg d) t.cond ∧ t.pc = s.pc ∧ Frame [d] [] s t

/-- Rule R122. -/
def Obligations.AndRegisterModeMasks : Prop :=
  (∀ (d a b : Reg) (x : BitVec 2),
    Encoding.published.decode
      (0b0101#4 ++ regBits d ++ regBits a ++ 0b0#1 ++ x ++ regBits b) = .andReg d a b) ∧
  ∀ (d a b : Reg) (s : State), ∃ t, exec (.andReg d a b) s = .next t ∧
    (∀ k, (t.reg d).getLsbD k = ((s.reg a).getLsbD k && (s.reg b).getLsbD k)) ∧
    CondAgrees (t.reg d) t.cond ∧ t.pc = s.pc ∧ Frame [d] [] s t

/-- Rule R123: the mask is the sign-extended immediate. -/
def Obligations.AndImmediateModeMasks : Prop :=
  (∀ (d a : Reg) (i : BitVec 5),
    Encoding.published.decode
      (0b0101#4 ++ regBits d ++ regBits a ++ 0b1#1 ++ i) = .andImm d a i) ∧
  ∀ (d a : Reg) (i : BitVec 5) (s : State), ∃ t, exec (.andImm d a i) s = .next t ∧
    (∀ k, (t.reg d).getLsbD k =
      ((s.reg a).getLsbD k && (BitVec.ofInt 16 i.toInt).getLsbD k)) ∧
    CondAgrees (t.reg d) t.cond ∧ t.pc = s.pc ∧ Frame [d] [] s t

/-- Rule R124: the result "equals 0xFFFF - R[SR]". -/
def Obligations.NotComplements : Prop :=
  (∀ (d a : Reg) (x : BitVec 6),
    Encoding.published.decode (0b1001#4 ++ regBits d ++ regBits a ++ x) = .not d a) ∧
  ∀ (d a : Reg) (s : State), ∃ t, exec (.not d a) s = .next t ∧
    (t.reg d).toNat = 0xFFFF - (s.reg a).toNat ∧
    CondAgrees (t.reg d) t.cond ∧ t.pc = s.pc ∧ Frame [d] [] s t

/-! ### Control transfer -/

/-- Rule R130. -/
def Obligations.BrBranchesOnItsMask : Prop :=
  (∀ (n z p : Bool) (o : BitVec 9),
    Encoding.published.decode
      (0b0000#4 ++ BitVec.ofBool n ++ BitVec.ofBool z ++ BitVec.ofBool p ++ o) = .br n z p o) ∧
  ∀ (n z p : Bool) (o : BitVec 9) (s : State), ∃ t, exec (.br n z p o) s = .next t ∧
    t.pc = (if (n = true ∧ s.cond = .negative) ∨ (z = true ∧ s.cond = .zero) ∨
               (p = true ∧ s.cond = .positive)
            then s.pc + BitVec.ofInt 16 o.toInt else s.pc) ∧
    t.cond = s.cond ∧ Frame [] [] s t

/-- Rule R131. -/
def Obligations.JmpGoesToItsRegister : Prop :=
  (∀ (x : BitVec 3) (b : Reg) (y : BitVec 6),
    Encoding.published.decode (0b1100#4 ++ x ++ regBits b ++ y) = .jmp b) ∧
  ∀ (b : Reg) (s : State), ∃ t, exec (.jmp b) s = .next t ∧
    t.pc = s.reg b ∧ t.cond = s.cond ∧ Frame [] [] s t

/-- Rule R132. -/
def Obligations.JsrLinksAndBranches : Prop :=
  (∀ o : BitVec 11, Encoding.published.decode (0b0100#4 ++ 0b1#1 ++ o) = .jsr o) ∧
  ∀ (o : BitVec 11) (s : State), ∃ t, exec (.jsr o) s = .next t ∧
    t.reg 7 = s.pc ∧ t.pc = s.pc + BitVec.ofInt 16 o.toInt ∧
    t.cond = s.cond ∧ Frame [7] [] s t

/-- Rule R133: the base register is read after R7 is written (the spec's decision D17). -/
def Obligations.JsrrLinksBeforeItReads : Prop :=
  (∀ (x : BitVec 2) (b : Reg) (y : BitVec 6),
    Encoding.published.decode (0b0100#4 ++ 0b0#1 ++ x ++ regBits b ++ y) = .jsrr b) ∧
  ∀ (b : Reg) (s : State), ∃ t, exec (.jsrr b) s = .next t ∧
    t.reg 7 = s.pc ∧ t.pc = (if b = 7 then s.pc else s.reg b) ∧
    t.cond = s.cond ∧ Frame [7] [] s t

/-! ### Loads

What a read gives is said by `ReadGives`. That the environment acts just before a read of KBSR polls is
the model's own form of an arrival during a step (notes/assumptions/7.md), here and in STI. -/

/-- Rule R140; of a read of KBSR see notes/assumptions/7.md. -/
def Obligations.LdLoadsPcRelative : Prop :=
  (∀ (d : Reg) (o : BitVec 9),
    Encoding.published.decode (0b0010#4 ++ regBits d ++ o) = .ld d o) ∧
  ∀ (d : Reg) (o : BitVec 9) (s : State), Sound s → ∃ t, exec (.ld d o) s = .next t ∧
    ReadGives s (s.pc + BitVec.ofInt 16 o.toInt) (t.reg d) t ∧
    CondAgrees (t.reg d) t.cond ∧ t.pc = s.pc ∧ LoadFrame [d] s t

/-- Rule R141: two reads, the pointer first, each with the side effect of rule R54; of a read of KBSR see
notes/assumptions/7.md. -/
def Obligations.LdiLoadsThroughPointer : Prop :=
  (∀ (d : Reg) (o : BitVec 9),
    Encoding.published.decode (0b1010#4 ++ regBits d ++ o) = .ldi d o) ∧
  ∀ (d : Reg) (o : BitVec 9) (s : State), Sound s →
    ∃ t ptr m, exec (.ldi d o) s = .next t ∧
    ReadGives s (s.pc + BitVec.ofInt 16 o.toInt) ptr m ∧ ReadGives m ptr (t.reg d) t ∧
    CondAgrees (t.reg d) t.cond ∧ t.pc = s.pc ∧ LoadFrame [d] s t

/-- Rule R142: the base register is read before DR is written; of a read of KBSR see
notes/assumptions/7.md. -/
def Obligations.LdrLoadsBaseOffset : Prop :=
  (∀ (d b : Reg) (o : BitVec 6),
    Encoding.published.decode (0b0110#4 ++ regBits d ++ regBits b ++ o) = .ldr d b o) ∧
  ∀ (d b : Reg) (o : BitVec 6) (s : State), Sound s → ∃ t, exec (.ldr d b o) s = .next t ∧
    ReadGives s (s.reg b + BitVec.ofInt 16 o.toInt) (t.reg d) t ∧
    CondAgrees (t.reg d) t.cond ∧ t.pc = s.pc ∧ LoadFrame [d] s t

/-- Rule R143: an address computation that sets COND and reads no memory. -/
def Obligations.LeaComputesAddress : Prop :=
  (∀ (d : Reg) (o : BitVec 9),
    Encoding.published.decode (0b1110#4 ++ regBits d ++ o) = .lea d o) ∧
  ∀ (d : Reg) (o : BitVec 9) (s : State), ∃ t, exec (.lea d o) s = .next t ∧
    t.reg d = s.pc + BitVec.ofInt 16 o.toInt ∧
    CondAgrees (t.reg d) t.cond ∧ t.pc = s.pc ∧ Frame [d] [] s t

/-! ### Stores -/

/-- Rule R150. -/
def Obligations.StStoresPcRelative : Prop :=
  (∀ (r : Reg) (o : BitVec 9),
    Encoding.published.decode (0b0011#4 ++ regBits r ++ o) = .st r o) ∧
  ∀ (r : Reg) (o : BitVec 9) (s : State), s.mem.wf → ∃ t, exec (.st r o) s = .next t ∧
    t.mem.read (s.pc + BitVec.ofInt 16 o.toInt) = s.reg r ∧
    t.pc = s.pc ∧ t.cond = s.cond ∧ Frame [] [s.pc + BitVec.ofInt 16 o.toInt] s t

/-- Rule R151: one read, for the pointer, with the side effect of rule R54, then the store; of a read of
KBSR see notes/assumptions/7.md. -/
def Obligations.StiStoresThroughPointer : Prop :=
  (∀ (r : Reg) (o : BitVec 9),
    Encoding.published.decode (0b1011#4 ++ regBits r ++ o) = .sti r o) ∧
  ∀ (r : Reg) (o : BitVec 9) (s : State), Sound s →
    ∃ t ptr m, exec (.sti r o) s = .next t ∧
    ReadGives s (s.pc + BitVec.ofInt 16 o.toInt) ptr m ∧
    t.mem.read ptr = s.reg r ∧ CellsKeptBut [ptr] m t ∧ t.input = m.input ∧
    WorldKept m t ∧ t.pc = s.pc ∧ t.cond = s.cond ∧ LoadFrame [] s t

/-- Rule R152. -/
def Obligations.StrStoresBaseOffset : Prop :=
  (∀ (r b : Reg) (o : BitVec 6),
    Encoding.published.decode (0b0111#4 ++ regBits r ++ regBits b ++ o) = .str r b o) ∧
  ∀ (r b : Reg) (o : BitVec 6) (s : State), s.mem.wf → ∃ t, exec (.str r b o) s = .next t ∧
    t.mem.read (s.reg b + BitVec.ofInt 16 o.toInt) = s.reg r ∧
    t.pc = s.pc ∧ t.cond = s.cond ∧ Frame [] [s.reg b + BitVec.ofInt 16 o.toInt] s t

/-! ### TRAP and its services -/

/-- Rule R162, the character zero-extended (the spec's decision D5). While no character is pending
the step is held, with R7 written (rule R116); the mark of a held step is the model's own
(notes/assumptions/8.md). -/
def Obligations.GetcTakesOldestCharacter : Prop :=
  (∀ x : BitVec 4, Encoding.published.decode (0b1111#4 ++ x ++ 0x20#8) = .trapGetc) ∧
  (∀ (s : State) (c : Byte) (rest : List Byte), s.input = c :: rest →
    ∃ t, exec .trapGetc s = .next t ∧ t.reg 7 = s.pc ∧ t.reg 0 = c.setWidth 16 ∧
      t.cond = (if c = 0x00#8 then .zero else .positive) ∧ t.input = rest ∧
      t.output = s.output ∧ t.hold = none ∧ TrapFrame [7, 0] s t) ∧
  ∀ s : State, s.input = [] →
    ∃ t, exec .trapGetc s = .next t ∧ t.reg 7 = s.pc ∧ t.hold = some .getc ∧
      t.cond = s.cond ∧ PortsKept s t ∧ TrapFrame [7] s t

/-- Rule R163. -/
def Obligations.OutWritesLowByte : Prop :=
  (∀ x : BitVec 4, Encoding.published.decode (0b1111#4 ++ x ++ 0x21#8) = .trapOut) ∧
  ∀ s : State, ∃ t, exec .trapOut s = .next t ∧ t.reg 7 = s.pc ∧
    t.output = s.output ++ [(s.reg 0).setWidth 8] ∧ t.input = s.input ∧
    t.cond = s.cond ∧ t.hold = s.hold ∧ TrapFrame [7] s t

/-- Rule R164, for every string, one that covers KBSR or crosses 0xFFFF included (the spec's decisions
D6 and D7), and rule R114: the whole service is one step if it ends. That a PUTS which never ends, the
hang of rule R169, answers a next state in which it is held is the model's own (notes/assumptions/8.md
and 10.md). -/
def Obligations.PutsWritesUntilZeroWord : Prop :=
  (∀ x : BitVec 4, Encoding.published.decode (0b1111#4 ++ x ++ 0x22#8) = .trapPuts) ∧
  ∀ s : State, Sound s → ∃ t ws, exec .trapPuts s = .next t ∧ ReadsString .puts ws s t ∧
    t.output = s.output ++ ws.map (fun w => w.setWidth 8)

/-- Rule R165 (the spec's decisions D5 and D22). While no character is pending the step is held, with R7
and the prompt written (rule R116); the mark of a held step is the model's own
(notes/assumptions/8.md). -/
def Obligations.InPromptsReadsAndEchoes : Prop :=
  (∀ x : BitVec 4, Encoding.published.decode (0b1111#4 ++ x ++ 0x23#8) = .trapIn) ∧
  (∀ (s : State) (c : Byte) (rest : List Byte), s.input = c :: rest →
    ∃ t, exec .trapIn s = .next t ∧ t.reg 7 = s.pc ∧ t.reg 0 = c.setWidth 16 ∧
      t.cond = (if c = 0x00#8 then .zero else .positive) ∧ t.input = rest ∧
      t.output = s.output ++ s.config.inPrompt ++ [c] ∧ t.hold = none ∧
      TrapFrame [7, 0] s t) ∧
  ∀ s : State, s.input = [] →
    ∃ t, exec .trapIn s = .next t ∧ t.reg 7 = s.pc ∧ t.hold = some .inService ∧
      t.cond = s.cond ∧ t.input = [] ∧ t.output = s.output ++ s.config.inPrompt ∧
      TrapFrame [7] s t

/-- Rule R166: the low byte if it is not zero, then the high byte if it is not zero (the spec's decisions
D7 and D19), and rule R114: the whole service is one step if it ends. That a PUTSP which never ends, the
hang of rule R169, answers a next state in which it is held is the model's own (notes/assumptions/8.md
and 10.md). -/
def Obligations.PutspWritesNonZeroBytes : Prop :=
  (∀ x : BitVec 4, Encoding.published.decode (0b1111#4 ++ x ++ 0x24#8) = .trapPutsp) ∧
  ∀ s : State, Sound s → ∃ t ws, exec .trapPutsp s = .next t ∧ ReadsString .putsp ws s t ∧
    t.output = s.output ++ ws.flatMap (fun w : Word =>
      [w.setWidth 8, (w >>> 8).setWidth 8].filter (fun b => b != 0x00#8))

/-- Rule R167: R7 is written even by HALT (the spec's decision D20). -/
def Obligations.HaltHalts : Prop :=
  (∀ x : BitVec 4, Encoding.published.decode (0b1111#4 ++ x ++ 0x25#8) = .trapHalt) ∧
  ∀ s : State, ∃ t, exec .trapHalt s = .next t ∧ t.reg 7 = s.pc ∧ t.run = .halted ∧
    t.output = s.output ++ s.config.haltNotice ∧ t.input = s.input ∧ t.pc = s.pc ∧
    t.cond = s.cond ∧ t.fault = s.fault ∧ t.hold = s.hold ∧
    RegsKeptBut [7] s t ∧ CellsKeptBut [] s t ∧ WorldKept s t

/-- Rules R168 and R192: the fault is raised after the write of R7 (the spec's decisions D10 and
D11). -/
def Obligations.UnknownVectorFaults : Prop :=
  (∀ (x : BitVec 4) (v : BitVec 8), ¬ (0x20 ≤ v.toNat ∧ v.toNat ≤ 0x25) →
    Encoding.published.decode (0b1111#4 ++ x ++ v) = .trapUnknown (0b1111#4 ++ x ++ v)) ∧
  ∀ (w : Word) (s : State), ∃ t, exec (.trapUnknown w) s = .next t ∧ t.reg 7 = s.pc ∧
    t.run = .faulted ∧
    t.fault = some { kind := .illegalTrapVector, instr := w, addr := s.pc - 1 } ∧
    RaiseFrame [7] s t

/-! ### Reserved opcodes -/

/-- Rule R180. -/
def Obligations.RtiFaults : Prop :=
  (∀ x : BitVec 12, Encoding.published.decode (0b1000#4 ++ x) = .rti (0b1000#4 ++ x)) ∧
  ∀ (w : Word) (s : State), ∃ t, exec (.rti w) s = .next t ∧ t.run = .faulted ∧
    t.fault = some { kind := .illegalOpcode, instr := w, addr := s.pc - 1 } ∧
    RaiseFrame [] s t

/-- Rule R181. -/
def Obligations.ResFaults : Prop :=
  (∀ x : BitVec 12, Encoding.published.decode (0b1101#4 ++ x) = .res (0b1101#4 ++ x)) ∧
  ∀ (w : Word) (s : State), ∃ t, exec (.res w) s = .next t ∧ t.run = .faulted ∧
    t.fault = some { kind := .illegalOpcode, instr := w, addr := s.pc - 1 } ∧
    RaiseFrame [] s t

/-! ### The cycle -/

/-- Rule R110: when the word at PC decodes to an instruction, the step is the meaning of that
instruction, in the state after the fetch read and the increment of PC. The environment's part of a
step is the model's own (notes/assumptions/7.md). -/
def Obligations.StepRunsDecodedInstruction : Prop :=
  ∀ (s : State) (i : Instr), Fetches s →
    s.config.encoding.decode (s.environmentActs.memRead s.pc).1 = i →
    step s = exec i ((s.environmentActs.memRead s.pc).2.setPc (s.pc + 1))

/-- Rule R111: in HALTED, FAULTED and STOPPED nothing is fetched and no state changes. That such a
step answers the same state is the model's choice (notes/assumptions/9.md). -/
def Obligations.TerminalStatesAreFrozen : Prop :=
  ∀ s : State, s.run ≠ .running →
    step s = .next s ∧ ∀ n, Sys2Proof.core.run n s = .next s

/-- Rule R200: a stop request seen at the start of a step sets RUN to STOPPED and changes nothing
else, whatever instruction is next (the spec's decision D12). The environment's part of a step is the
model's own (notes/assumptions/7.md). -/
def Obligations.StopRequestStopsBeforeFetch : Prop :=
  ∀ s : State, s.run = .running → s.hold = none → s.environmentActs.stopReq = true →
    ∃ t, step s = .next t ∧ t.run = .stopped ∧ t.regs = s.regs ∧ t.pc = s.pc ∧
      t.cond = s.cond ∧ t.mem = s.mem ∧ t.fault = s.fault ∧ t.output = s.output ∧
      t.input = s.environmentActs.input ∧ t.config = s.config ∧ t.hold = none

/-- Rules R116 and R201: a held GETC or IN goes on when a character has arrived; while none has,
nothing changes, and a stop request ends the wait only under reading (b) (the spec's decision D12). The
mark of a held step and what wins when both arrive are the model's own (notes/assumptions/8.md). -/
def Obligations.WaitingStepIsHeldUntilInput : Prop :=
  ∀ (s : State) (w : Wait), w = .getc ∨ w = .inService → s.run = .running → s.hold = some w →
    (∀ c rest, s.environmentActs.input = c :: rest →
      ∃ t, step s = .next t ∧ t.hold = none ∧ t.input = rest ∧ t.reg 0 = c.setWidth 16 ∧
        t.cond = (if c = 0x00#8 then .zero else .positive) ∧
        t.output = s.output ++ (if w = .inService then [c] else []) ∧
        t.run = .running ∧ TrapFrame [0] s.environmentActs t) ∧
    (s.environmentActs.input = [] →
      (s.config.stopEndsWait = true ∧ s.environmentActs.stopReq = true →
        ∃ t, step s = .next t ∧ t.run = .stopped ∧ t.hold = none ∧ t.cond = s.cond ∧
          t.pc = s.pc ∧ t.regs = s.regs ∧ t.mem = s.mem ∧ t.output = s.output ∧
          t.fault = s.fault) ∧
      (¬ (s.config.stopEndsWait = true ∧ s.environmentActs.stopReq = true) →
        step s = .next s.environmentActs))

/-- Rules R28, R190, R191 and R194: an instruction makes RUN FAULTED exactly when it is RTI, RES or a
TRAP with an unknown vector, HALTED exactly when it is TRAP HALT, and STOPPED never (the spec's decision
D10). -/
def Obligations.RunStateChangesOnlyAsListed : Prop :=
  ∀ (i : Instr) (s t : State), s.run = .running → exec i s = .next t →
    (t.run = .faulted ↔ i.illegal = true) ∧ (t.run = .halted ↔ i = .trapHalt) ∧
    t.run ≠ .stopped

/-- Rule R194, "Nothing else faults": from every state a step answers a next state. For HALTED, FAULTED
and STOPPED, where rule R111 says that there is no step, that is the model's choice
(notes/assumptions/9.md); for a service that waits or never ends it is the model's own form of a step that
has not ended (notes/assumptions/8.md and 10.md). -/
def Obligations.EveryStepAnswersNextState : Prop :=
  ∀ s : State, ∃ t, step s = .next t

/-- Every step keeps the invariant. What it says of a held step is the model's own
(notes/assumptions/8.md and 10.md). -/
def Obligations.EveryStepKeepsInvariant : Prop :=
  ∀ s t : State, Inv s → step s = .next t → Inv t

/-- From every state with the invariant, every run of any length goes on and keeps it, and never changes
the configuration. That a run goes on in HALTED, FAULTED and STOPPED, against the letter of rules R111
and R117, is the model's choice (notes/assumptions/9.md); that a string service which never ends goes on
from step to step, where rule R169 has one step without end, is the model's own
(notes/assumptions/8.md and 10.md). -/
def Obligations.EveryRunGoesOnInInvariant : Prop :=
  ∀ (n : Nat) (s : State), Inv s →
    ∃ t, Sys2Proof.core.run n s = .next t ∧ Inv t ∧ t.config = s.config

/-! ### Reset and boot -/

/-- Rule R37. -/
def Obligations.ResetLeavesListedValues : Prop :=
  (∀ r, State.reset.reg r = 0x0000#16) ∧ State.reset.pc = 0x3000#16 ∧
  State.reset.cond = .zero ∧ State.reset.run = .running ∧ State.reset.fault = none ∧
  (∀ a, State.reset.mem.read a = 0x0000#16) ∧ State.reset.output = [] ∧
  State.reset.stopReq = false

/-- The invariant holds right after reset. -/
def Obligations.ResetMeetsInvariant : Prop := Inv State.reset

/-- Rules R226 and R227: word k of the payload stands at origin + k, up to address 65535 and no
further, and nothing else of the state changes (the last address is the spec's decision D15). -/
def Obligations.LoaderPlacesAndClips : Prop :=
  ∀ (s : State) (b0 b1 : Byte) (rest : List Byte), s.mem.wf →
    ∃ t, s.loadImage (b0 :: b1 :: rest) = some t ∧
      (∀ k, k < min (rest.length / 2) (65536 - (b0 ++ b1 : Word).toNat) →
        ∃ hi lo, rest[2 * k]? = some hi ∧ rest[2 * k + 1]? = some lo ∧
          t.mem.read (BitVec.ofNat 16 ((b0 ++ b1 : Word).toNat + k)) = hi ++ lo) ∧
      (∀ a : Word,
        ¬ ((b0 ++ b1 : Word).toNat ≤ a.toNat ∧
           a.toNat < (b0 ++ b1 : Word).toNat +
             min (rest.length / 2) (65536 - (b0 ++ b1 : Word).toNat)) →
        t.mem.read a = s.mem.read a) ∧
      t = s.setMem t.mem

/-- Rules R228, R230 and R231: images load in the order given, and a run exists only if each has at
least the two bytes of an origin (the spec's decision D15). -/
def Obligations.ImagesLoadInOrderOrNotAtAll : Prop :=
  (∀ (s : State) (images : List (List Byte)),
    (s.loadImages images).isSome = true ↔ ∀ bytes ∈ images, 2 ≤ bytes.length) ∧
  ∀ (s : State) (images : List (List Byte)) (last : List Byte),
    s.loadImages (images ++ [last]) = (s.loadImages images).bind (fun m => m.loadImage last)

/-- Rule R220: after boot only memory differs from the reset values, and the invariant holds. -/
def Obligations.BootChangesMemoryOnly : Prop :=
  ∀ (c : Config) (images : List (List Byte)) (t : State), boot c images = some t →
    t = { State.reset with config := c, mem := t.mem } ∧ (c.wf = true → Inv t)

/-- An image file parses back to the image it was written from (rule R226). -/
def Obligations.ImageBytesParseBack : Prop :=
  ∀ i : Image, parseImage i.bytes = some i

/-! ### Whole-machine rules -/

/-- Of rule R27: COND is written by the nine flag-setting instructions, to agree with the register they
define, and by nothing else. A GETC or IN that waits has not written it yet. -/
def Obligations.OnlyFlagSettersWriteCond : Prop :=
  ∀ (i : Instr) (s t : State), exec i s = .next t →
    (flagResult i = none → t.cond = s.cond) ∧
    (∀ r, flagResult i = some r → (takesCharacter i → s.input ≠ []) →
      CondAgrees (t.reg r) t.cond) ∧
    (takesCharacter i → s.input = [] → t.cond = s.cond)

/-- Of rule R22: "A register not listed for an instruction is neither read nor written by it": another
value in it before is the same value in it after, and nothing else of the outcome differs. -/
def Obligations.UnlistedRegistersAreNeitherReadNorWritten : Prop :=
  ∀ (i : Instr) (s : State) (r : Reg) (v : Word), r ∉ readsOf i → r ∉ writesOf i →
    exec i (s.setReg r v) = mapNext (fun t => t.setReg r v) (exec i s) ∧
    ∀ t, exec i s = .next t → t.reg r = s.reg r

/-- The table of rule R24: PC after each instruction. -/
def Obligations.PcAfterEachInstruction : Prop :=
  ∀ (i : Instr) (s t : State), exec i s = .next t → t.pc = pcAfter s i

/-- Rule R57: a write is a plain store at any address, and no instruction but ST, STI and STR stores:
the others change memory by the keyboard poll only, and those that read no memory not at all. -/
def Obligations.OnlyStoresWriteMemory : Prop :=
  (∀ (s : State) (a v : Word), s.mem.wf →
    (s.memWrite a v).mem.read a = v ∧ CellsKeptBut [a] s (s.memWrite a v) ∧
    s.memWrite a v = s.setMem (s.memWrite a v).mem) ∧
  ∀ (i : Instr) (s t : State), exec i s = .next t → storesMemory i = false →
    CellsKeptBut [s.config.kbsrAddr, s.config.kbdrAddr] s t ∧
    (readsMemory i = false → CellsKeptBut [] s t)

/-- Rule R170: input is taken from the front and output appended at the end, input only by GETC, IN
and memory reads, output only by OUT, PUTS, IN, PUTSP and HALT. Characters that arrive at the polls of
the instruction (notes/assumptions/7.md) are among those it can take. -/
def Obligations.PortsAreUsedOnlyAsListed : Prop :=
  ∀ (i : Instr) (s t : State), exec i s = .next t →
    (∃ n taken, WorldKept (afterEvents n s) t ∧ (afterEvents n s).input = taken ++ t.input) ∧
    (∃ written, t.output = s.output ++ written) ∧
    (readsMemory i = false → ¬ takesCharacter i → t.input = s.input) ∧
    (writesOutput i = false → t.output = s.output)

/-- Rules R7, R14 and R197: no instruction changes the configuration, clears the stop request, or raises
it but through the environment's own events, which act at its polls (notes/assumptions/7.md); one that
reads no memory leaves the world as it is. -/
def Obligations.WorldIsNeverWritten : Prop :=
  ∀ (i : Instr) (s t : State), exec i s = .next t →
    t.config = s.config ∧ t.recurring = s.recurring ∧
    (s.stopReq = true → t.stopReq = true) ∧
    (∃ n, WorldKept (afterEvents n s) t) ∧
    (readsMemory i = false → WorldKept s t)

/-! ### Memory and the keyboard -/

/-- Rule R55 (the spec's decisions D4 and D5). That the environment acts first is the model's own
(notes/assumptions/7.md). -/
def Obligations.PollLatchesOrClears : Prop :=
  ∀ s : State, Sound s →
    (∀ c rest, s.environmentActs.input = c :: rest →
      s.kbPoll.input = rest ∧ s.kbPoll.mem.read s.config.kbsrAddr = 0x8000#16 ∧
      s.kbPoll.mem.read s.config.kbdrAddr = c.setWidth 16 ∧
      CellsKeptBut [s.config.kbsrAddr, s.config.kbdrAddr] s s.kbPoll) ∧
    (s.environmentActs.input = [] →
      s.kbPoll.input = [] ∧ s.kbPoll.mem.read s.config.kbsrAddr = 0x0000#16 ∧
      CellsKeptBut [s.config.kbsrAddr] s s.kbPoll) ∧
    s.kbPoll.output = s.output ∧ s.kbPoll.regs = s.regs ∧ s.kbPoll.pc = s.pc ∧
    s.kbPoll.cond = s.cond ∧ RunKept s s.kbPoll ∧ WorldKept s.environmentActs s.kbPoll

/-- Rule R56, points 1, 2, 3, 5 and 6: a second poll loses the first character, an empty poll clears
KBSR and keeps KBDR, a read of KBDR is plain, a poll overwrites what was stored to KBSR, and a stored
KBDR reads back. That the environment acts before each poll is the model's own
(notes/assumptions/7.md). -/
def Obligations.PollConsequences : Prop :=
  ∀ s : State, Sound s →
    (∀ c d q rest, s.environmentActs.input = c :: q →
      s.kbPoll.environmentActs.input = d :: rest →
      s.kbPoll.mem.read s.config.kbdrAddr = c.setWidth 16 ∧
      s.kbPoll.kbPoll.mem.read s.config.kbdrAddr = d.setWidth 16 ∧
      s.kbPoll.kbPoll.input = rest) ∧
    (∀ c q, s.environmentActs.input = c :: q → s.kbPoll.environmentActs.input = [] →
      s.kbPoll.kbPoll.mem.read s.config.kbsrAddr = 0x0000#16 ∧
      s.kbPoll.kbPoll.mem.read s.config.kbdrAddr = c.setWidth 16) ∧
    s.memRead s.config.kbdrAddr = (s.mem.read s.config.kbdrAddr, s) ∧
    (∀ v, ((s.memWrite s.config.kbsrAddr v).memRead s.config.kbsrAddr).1 =
      (s.memRead s.config.kbsrAddr).1) ∧
    (∀ v, ((s.memWrite s.config.kbdrAddr v).memRead s.config.kbdrAddr).1 = v)

/-- Rule R66: the very next step executes the word that ST has just stored at the next address. -/
def Obligations.StoredWordIsExecutedNext : Prop :=
  ∀ (s : State) (r : Reg), s.mem.wf → s.run = .running → s.hold = none → s.stopReq = false →
    s.environment = [] → s.recurring = [] → s.pc ≠ s.config.kbsrAddr →
    s.pc + 1 ≠ s.config.kbsrAddr →
    s.config.encoding.decode (s.mem.read s.pc) = .st r 0 →
    ∃ t, step s = .next t ∧ t.pc = s.pc + 1 ∧
      step t = exec (s.config.encoding.decode (s.reg r)) (t.setPc (s.pc + 2))

/-- Rules R56 and R233: an instruction fetch from KBSR polls; with a character pending the word fetched
is 0x8000, which is RTI, and the engine faults. The environment acts at the start of the step and at the
poll (notes/assumptions/7.md). -/
def Obligations.FetchFromKbsrWithInputFaults : Prop :=
  ∀ (s : State) (c : Byte) (rest : List Byte), Sound s → Fetches s →
    s.config.encoding = Encoding.published → s.pc = s.config.kbsrAddr →
    s.environmentActs.environmentActs.input = c :: rest →
    ∃ t, step s = .next t ∧ t.run = .faulted ∧
      t.fault = some { kind := .illegalOpcode, instr := 0x8000#16, addr := s.pc } ∧
      t.input = rest ∧ t.mem.read s.config.kbdrAddr = c.setWidth 16

/-- Rules R90 and R233: an engine whose memory is all zero walks on for ever, one address a step,
wrapping at 0xFFFF. -/
def Obligations.ZeroMemoryIsWalkedForEver : Prop :=
  ∀ (n : Nat) (s : State), s.mem = [] → s.run = .running → s.hold = none → s.stopReq = false →
    s.environment = [] → s.recurring = [] → s.input = [] →
    s.config.encoding = Encoding.published →
    Sys2Proof.core.run n s = .next (s.setPc (s.pc + BitVec.ofNat 16 n))

/-! ### Strings -/

/-- Rule R164 for a plain string, one whose cells and terminator are not KBSR: the words from R0 up to
the first zero word are written, low bytes only (the spec's decision D6), and memory is unchanged. -/
def Obligations.PutsWritesPlainString : Prop :=
  ∀ (s : State) (ws : List Word),
    (∀ k w, ws[k]? = some w → w ≠ 0x0000#16 ∧ s.mem.read (s.reg 0 + BitVec.ofNat 16 k) = w) →
    s.mem.read (s.reg 0 + BitVec.ofNat 16 ws.length) = 0x0000#16 →
    (∀ k, k ≤ ws.length → s.reg 0 + BitVec.ofNat 16 k ≠ s.config.kbsrAddr) →
    ∃ t, exec .trapPuts s = .next t ∧
      t.output = s.output ++ ws.map (fun w => w.setWidth 8) ∧ t.mem = s.mem ∧
      t.input = s.input ∧ t.hold = s.hold

/-- Rule R169: a zero word anywhere but in the two keyboard cells ends both string services. The rule
excepts KBSR only; KBDR is excepted too, since a poll rewrites it (notes/assumptions/10.md). -/
def Obligations.ZeroWordBoundsStrings : Prop :=
  ∀ (s : State) (z : Word), s.mem.wf → s.mem.read z = 0x0000#16 →
    z ≠ s.config.kbsrAddr → z ≠ s.config.kbdrAddr →
    (∃ t out, exec .trapPuts s = .next t ∧ t.output = s.output ++ out ∧
      out.length ≤ 65535 ∧ t.hold = s.hold) ∧
    (∃ t out, exec .trapPutsp s = .next t ∧ t.output = s.output ++ out ∧
      out.length ≤ 131070 ∧ t.hold = s.hold)

/-! ### Encoding, values and flags -/

/-- Decoding the word of a well-formed instruction gives it back, over every usable encoding table. -/
def Obligations.DecodeEncodeRoundTrip : Prop :=
  ∀ e : Encoding, e.wf = true → ∀ i : Instr, i.wf e = true → e.decode (e.encode i) = i

/-- Rule R91: the decoder is total, and what it gives is well formed. -/
def Obligations.DecodedInstructionsAreWellFormed : Prop :=
  ∀ (e : Encoding) (w : Word), (e.decode w).wf e = true

/-- Rule R89: exactly these words are illegal. -/
def Obligations.IllegalWordsAreThese : Prop :=
  ∀ w : Word, (Encoding.published.decode w).illegal = true ↔
    w.toNat / 4096 = 0x8 ∨ w.toNat / 4096 = 0xD ∨
    (w.toNat / 4096 = 0xF ∧ ¬ (0x20 ≤ w.toNat % 256 ∧ w.toNat % 256 ≤ 0x25))

/-- A few words of the published table, written out bit by bit (rule R86). -/
def Obligations.SampleWordsDecode : Prop :=
  Encoding.published.decode 0b0001_000_001_1_11111#16 = .addImm 0 1 0b11111#5 ∧
  Encoding.published.decode 0b0101_010_011_0_00_100#16 = .andReg 2 3 4 ∧
  Encoding.published.decode 0b0000_010_000000011#16 = .br false true false 3 ∧
  Encoding.published.decode 0b0100_1_00000000011#16 = .jsr 3 ∧
  Encoding.published.decode 0b1010_110_000000111#16 = .ldi 6 7 ∧
  Encoding.published.decode 0b0111_100_001_000010#16 = .str 4 1 2 ∧
  Encoding.published.decode 0b1111_1111_00100101#16 = .trapHalt ∧
  Encoding.published.decode 0b1101_000000000000#16 = .res 0xD000#16

/-- Rule R19. -/
def Obligations.SignExtensionIsExact : Prop :=
  ∀ n, n ∈ [5, 6, 9, 11] → ∀ v : BitVec n,
    (v.getLsbD (n - 1) = false → (sext v).toNat = v.toNat) ∧
    (v.getLsbD (n - 1) = true → (sext v).toNat = v.toNat + 65536 - 2 ^ n) ∧
    (sext v).setWidth n = v ∧ (sext v).toInt = v.toInt

/-- Rule R26. -/
def Obligations.SetccFollowsTheRegister : Prop :=
  ∀ (s : State) (r : Reg), CondAgrees (s.reg r) (s.setcc r).cond ∧
    s.setcc r = s.setCond (s.setcc r).cond

/-- Rule R31: BR's test is the mask against COND as a one-hot value (the spec's decision D2). -/
def Obligations.BrTestsTheOneHotCode : Prop :=
  (Cond.negative.oneHot = 0b100#3 ∧ Cond.zero.oneHot = 0b010#3 ∧
    Cond.positive.oneHot = 0b001#3) ∧
  ∀ (n z p : Bool) (c : Cond), brTaken n z p c = true ↔
    (BitVec.ofBool n ++ BitVec.ofBool z ++ BitVec.ofBool p) &&& c.oneHot ≠ 0#3

/-! ### The string service without an end -/

/-- Rules R114, R169 and R201 (the spec's decision D25): a PUTS or PUTSP is held exactly if it never
ends, as it does where no read answers zero; a held one goes on from R0, whatever the stop request; and
every run from there, however long, is still inside the service and has written a byte or more for each
read. That the hang is a run of steps is the model's own (notes/assumptions/8.md and 10.md). -/
def Obligations.UnterminatedStringGoesOnForEver : Prop :=
  (∀ s : State, NeverZero s → NeverEnds s) ∧
  (∀ s : State, Sound s → s.hold = none →
    (∃ t, exec .trapPuts s = .next t ∧ (t.hold = some .puts ↔ NeverEnds s) ∧
      (NeverEnds s → NeverEnds t)) ∧
    (∃ t, exec .trapPutsp s = .next t ∧ (t.hold = some .putsp ↔ NeverEnds s) ∧
      (NeverEnds s → NeverEnds t))) ∧
  (∀ s : State, s.run = .running → s.reg 7 = s.pc →
    (s.hold = some .puts → step s = exec .trapPuts (s.setHold none)) ∧
    (s.hold = some .putsp → step s = exec .trapPutsp (s.setHold none))) ∧
  ∀ (n : Nat) (s : State) (w : Wait), w = .puts ∨ w = .putsp → Sound s → NeverEnds s →
    s.run = .running → s.hold = some w →
    ∃ t, Sys2Proof.core.run n s = .next t ∧ t.run = .running ∧ t.hold = some w ∧ NeverEnds t ∧
      s.output.length + 65536 * n ≤ t.output.length
end

