-- ==== Sys2Proof/Laws/Memory.lean ====
section
/-! SUPPORT. Read after write, and that a write keeps the canonical form of memory. -/

namespace Sys2Proof.Machine

/-! ### Raw cells -/

theorem lookupCell_nil (k : Nat) : lookupCell k [] = 0#16 := rfl

/-- A key below every listed one reads as zero. -/
theorem lookupCell_of_lt {k : Nat} {m : Memory} (h : ∀ c ∈ m, k < c.1) : lookupCell k m = 0#16 := by
  induction m with
  | nil => rfl
  | cons c rest ih =>
    have hc : c.1 ≠ k := Nat.ne_of_gt (h c (by simp))
    simp only [lookupCell, if_neg hc]
    exact ih fun d hd => h d (by simp [hd])

/-- A store leaves every other key alone, whatever the form of the list. -/
theorem lookupCell_storeCell_of_ne {k j : Nat} (v : Word) (m : Memory) (h : j ≠ k) :
    lookupCell j (storeCell k v m) = lookupCell j m := by
  induction m with
  | nil =>
    simp only [storeCell]
    split <;> simp [lookupCell, Ne.symm h]
  | cons c rest ih =>
    simp only [storeCell]
    split
    · split <;> simp [lookupCell, Ne.symm h]
    · split
      · next hkc =>
        have hc : c.1 ≠ j := fun e => h (by omega)
        split <;> simp [lookupCell, hc, Ne.symm h]
      · simp only [lookupCell, ih]

/-- A store is read back at its key. -/
theorem lookupCell_storeCell_same {m : Memory} (hm : m.wf) (k : Nat) (v : Word) :
    lookupCell k (storeCell k v m) = v := by
  induction m with
  | nil =>
    simp only [storeCell]
    split
    · next hv => simp [lookupCell, hv]
    · simp [lookupCell]
  | cons c rest ih =>
    obtain ⟨hp, hz⟩ := hm
    obtain ⟨hlt, hrest⟩ := List.pairwise_cons.mp hp
    simp only [storeCell]
    split
    · next hk =>
      split
      · next hv =>
        rw [hv]
        refine lookupCell_of_lt fun d hd => ?_
        rcases List.mem_cons.mp hd with rfl | hd
        · exact hk
        · exact Nat.lt_trans hk (hlt d hd)
      · simp [lookupCell]
    · split
      · next hkc =>
        split
        · next hv =>
          rw [hv]
          exact lookupCell_of_lt fun d hd => hkc ▸ hlt d hd
        · simp [lookupCell]
      · next hkc =>
        simp only [lookupCell, if_neg (Ne.symm hkc)]
        exact ih ⟨hrest, fun d hd => hz d (by simp [hd])⟩

/-! ### The canonical form -/

theorem Memory.wf_nil : Memory.wf [] := by simp [Memory.wf]

/-- Every entry after a store was there before or is the stored one. -/
theorem mem_storeCell {k : Nat} {v : Word} {m : Memory} {d : Nat × Word}
    (h : d ∈ storeCell k v m) : d ∈ m ∨ (d = (k, v) ∧ v ≠ 0#16) := by
  induction m with
  | nil =>
    simp only [storeCell] at h
    split at h
    · simp at h
    · next hv => exact .inr ⟨by simpa using h, hv⟩
  | cons c rest ih =>
    simp only [storeCell] at h
    split at h
    · split at h
      · exact .inl h
      · next hv =>
        rcases List.mem_cons.mp h with rfl | h
        · exact .inr ⟨rfl, hv⟩
        · exact .inl h
    · split at h
      · split at h
        · exact .inl (by simp [h])
        · next hv =>
          rcases List.mem_cons.mp h with rfl | h
          · exact .inr ⟨rfl, hv⟩
          · exact .inl (by simp [h])
      · rcases List.mem_cons.mp h with rfl | h
        · exact .inl (by simp)
        · exact (ih h).imp (fun h => by simp [h]) id

theorem storeCell_wf {m : Memory} (hm : m.wf) {k : Nat} (hk : k < 65536) (v : Word) :
    Memory.wf (storeCell k v m) := by
  refine ⟨?_, fun d hd => ?_⟩
  · induction m with
    | nil => simp only [storeCell]; split <;> simp
    | cons c rest ih =>
      obtain ⟨hp, hz⟩ := hm
      obtain ⟨hlt, hrest⟩ := List.pairwise_cons.mp hp
      have hrestwf : Memory.wf rest := ⟨hrest, fun d hd => hz d (by simp [hd])⟩
      simp only [storeCell]
      split
      · next hkc =>
        split
        · exact hp
        · refine List.pairwise_cons.mpr ⟨fun d hd => ?_, hp⟩
          rcases List.mem_cons.mp hd with rfl | hd
          · exact hkc
          · exact Nat.lt_trans hkc (hlt d hd)
      · split
        · next hkc =>
          split
          · exact hrest
          · exact List.pairwise_cons.mpr ⟨fun d hd => hkc ▸ hlt d hd, hrest⟩
        · next hnlt hne =>
          refine List.pairwise_cons.mpr ⟨fun d hd => ?_, ih hrestwf⟩
          rcases mem_storeCell hd with hd | ⟨rfl, -⟩
          · exact hlt d hd
          · show c.1 < k
            omega
  · rcases mem_storeCell hd with hd | ⟨rfl, hv⟩
    · exact hm.2 d hd
    · exact ⟨hk, hv⟩

/-! ### `M[a]` -/

@[simp] theorem Memory.read_nil (a : Word) : Memory.read [] a = 0#16 := rfl

/-- Every memory write keeps the canonical form. -/
theorem Memory.write_wf {m : Memory} (hm : m.wf) (a v : Word) : (m.write a v).wf :=
  storeCell_wf hm a.isLt v

theorem Memory.read_write_same {m : Memory} (hm : m.wf) (a v : Word) : (m.write a v).read a = v :=
  lookupCell_storeCell_same hm a.toNat v

theorem Memory.read_write_of_ne (m : Memory) {a b : Word} (v : Word) (h : b ≠ a) :
    (m.write a v).read b = m.read b :=
  lookupCell_storeCell_of_ne v m fun e => h (BitVec.eq_of_toNat_eq e)

/-- Everything a write does to what memory reads as (rule R57). -/
theorem Memory.read_write {m : Memory} (hm : m.wf) (a b v : Word) :
    (m.write a v).read b = if b = a then v else m.read b := by
  split
  · next h => rw [h, Memory.read_write_same hm]
  · next h => exact Memory.read_write_of_ne m v h

theorem lookupCell_mem {m : Memory} (hm : m.wf) {c : Nat × Word} (h : c ∈ m) :
    lookupCell c.1 m = c.2 := by
  induction m with
  | nil => cases h
  | cons d rest ih =>
    obtain ⟨hlt, hrest⟩ := List.pairwise_cons.mp hm.1
    rcases List.mem_cons.mp h with rfl | h
    · simp [lookupCell]
    · have hne : d.1 ≠ c.1 := Nat.ne_of_lt (hlt c h)
      simp only [lookupCell, if_neg hne]
      exact ih ⟨hrest, fun e he => hm.2 e (by simp [he])⟩ h

theorem lookupCell_ne_zero {m : Memory} {k : Nat} (h : lookupCell k m ≠ 0#16) :
    (k, lookupCell k m) ∈ m := by
  induction m with
  | nil => exact absurd rfl h
  | cons d rest ih =>
    simp only [lookupCell] at h ⊢
    split
    · next hd => rw [← hd]; simp
    · next hd =>
      rw [if_neg hd] at h
      exact List.mem_cons_of_mem _ (ih h)

/-- Equal memories are equal data: two canonical memories that read alike are the same list. -/
theorem Memory.ext_of_read {m n : Memory} (hm : m.wf) (hn : n.wf)
    (h : ∀ a, m.read a = n.read a) : m = n := by
  have key : ∀ {p q : Memory}, p.wf → q.wf → (∀ a, p.read a = q.read a) → ∀ c ∈ p, c ∈ q := by
    intro p q hp hq hr c hc
    have h1 := lookupCell_mem hp hc
    obtain ⟨hlt, hnz⟩ := hp.2 c hc
    have h2 := hr (BitVec.ofNat 16 c.1)
    have ht : (BitVec.ofNat 16 c.1).toNat = c.1 := by simp [Nat.mod_eq_of_lt hlt]
    simp only [Memory.read, ht, h1] at h2
    have := lookupCell_ne_zero (m := q) (k := c.1) (h2 ▸ hnz)
    rwa [← h2] at this
  have irr : ∀ {p : Memory}, p.wf → p.Pairwise (fun c d : Nat × Word => c ≠ d) := fun hp =>
    hp.1.imp fun {c d} (hlt : c.1 < d.1) (e : c = d) => Nat.ne_of_lt hlt (by rw [e])
  have perm : m.Perm n := (List.perm_ext_iff_of_nodup (irr hm) (irr hn)).mpr fun c =>
    ⟨key hm hn h c, key hn hm (fun a => (h a).symm) c⟩
  refine perm.eq_of_pairwise (le := fun c d : Nat × Word => c.1 < d.1) ?_ hm.1 hn.1
  intro c d _ _ h1 h2
  exact absurd (Nat.lt_trans h1 h2) (Nat.lt_irrefl _)

end Sys2Proof.Machine
end

