-- ==== Sys2Proof/Laws/State.lean ====
section
/-! SUPPORT. One lemma for each field of the state under each setter of Sys2Proof/Machine/Ops.lean, true
by rfl, and the read of a register after a write. -/

namespace Sys2Proof.Machine

variable (s : State)

/-! ### setReg -/

@[simp] theorem State.setReg_pc (r : Reg) (v : Word) : (s.setReg r v).pc = s.pc := rfl
@[simp] theorem State.setReg_cond (r : Reg) (v : Word) : (s.setReg r v).cond = s.cond := rfl
@[simp] theorem State.setReg_run (r : Reg) (v : Word) : (s.setReg r v).run = s.run := rfl
@[simp] theorem State.setReg_fault (r : Reg) (v : Word) : (s.setReg r v).fault = s.fault := rfl
@[simp] theorem State.setReg_mem (r : Reg) (v : Word) : (s.setReg r v).mem = s.mem := rfl
@[simp] theorem State.setReg_input (r : Reg) (v : Word) : (s.setReg r v).input = s.input := rfl
@[simp] theorem State.setReg_output (r : Reg) (v : Word) : (s.setReg r v).output = s.output := rfl
@[simp] theorem State.setReg_stopReq (r : Reg) (v : Word) : (s.setReg r v).stopReq = s.stopReq := rfl
@[simp] theorem State.setReg_hold (r : Reg) (v : Word) : (s.setReg r v).hold = s.hold := rfl
@[simp] theorem State.setReg_environment (r : Reg) (v : Word) : (s.setReg r v).environment = s.environment := rfl
@[simp] theorem State.setReg_recurring (r : Reg) (v : Word) : (s.setReg r v).recurring = s.recurring := rfl
@[simp] theorem State.setReg_config (r : Reg) (v : Word) : (s.setReg r v).config = s.config := rfl

/-! ### setPc -/

@[simp] theorem State.setPc_regs (v : Word) : (s.setPc v).regs = s.regs := rfl
@[simp] theorem State.setPc_pc (v : Word) : (s.setPc v).pc = v := rfl
@[simp] theorem State.setPc_cond (v : Word) : (s.setPc v).cond = s.cond := rfl
@[simp] theorem State.setPc_run (v : Word) : (s.setPc v).run = s.run := rfl
@[simp] theorem State.setPc_fault (v : Word) : (s.setPc v).fault = s.fault := rfl
@[simp] theorem State.setPc_mem (v : Word) : (s.setPc v).mem = s.mem := rfl
@[simp] theorem State.setPc_input (v : Word) : (s.setPc v).input = s.input := rfl
@[simp] theorem State.setPc_output (v : Word) : (s.setPc v).output = s.output := rfl
@[simp] theorem State.setPc_stopReq (v : Word) : (s.setPc v).stopReq = s.stopReq := rfl
@[simp] theorem State.setPc_hold (v : Word) : (s.setPc v).hold = s.hold := rfl
@[simp] theorem State.setPc_environment (v : Word) : (s.setPc v).environment = s.environment := rfl
@[simp] theorem State.setPc_recurring (v : Word) : (s.setPc v).recurring = s.recurring := rfl
@[simp] theorem State.setPc_config (v : Word) : (s.setPc v).config = s.config := rfl
@[simp] theorem State.setPc_reg (v : Word) (i : Reg) : (s.setPc v).reg i = s.reg i := rfl

/-! ### setCond -/

@[simp] theorem State.setCond_regs (c : Cond) : (s.setCond c).regs = s.regs := rfl
@[simp] theorem State.setCond_pc (c : Cond) : (s.setCond c).pc = s.pc := rfl
@[simp] theorem State.setCond_cond (c : Cond) : (s.setCond c).cond = c := rfl
@[simp] theorem State.setCond_run (c : Cond) : (s.setCond c).run = s.run := rfl
@[simp] theorem State.setCond_fault (c : Cond) : (s.setCond c).fault = s.fault := rfl
@[simp] theorem State.setCond_mem (c : Cond) : (s.setCond c).mem = s.mem := rfl
@[simp] theorem State.setCond_input (c : Cond) : (s.setCond c).input = s.input := rfl
@[simp] theorem State.setCond_output (c : Cond) : (s.setCond c).output = s.output := rfl
@[simp] theorem State.setCond_stopReq (c : Cond) : (s.setCond c).stopReq = s.stopReq := rfl
@[simp] theorem State.setCond_hold (c : Cond) : (s.setCond c).hold = s.hold := rfl
@[simp] theorem State.setCond_environment (c : Cond) : (s.setCond c).environment = s.environment := rfl
@[simp] theorem State.setCond_recurring (c : Cond) : (s.setCond c).recurring = s.recurring := rfl
@[simp] theorem State.setCond_config (c : Cond) : (s.setCond c).config = s.config := rfl
@[simp] theorem State.setCond_reg (c : Cond) (i : Reg) : (s.setCond c).reg i = s.reg i := rfl

/-! ### setRun -/

@[simp] theorem State.setRun_regs (r : RunState) : (s.setRun r).regs = s.regs := rfl
@[simp] theorem State.setRun_pc (r : RunState) : (s.setRun r).pc = s.pc := rfl
@[simp] theorem State.setRun_cond (r : RunState) : (s.setRun r).cond = s.cond := rfl
@[simp] theorem State.setRun_run (r : RunState) : (s.setRun r).run = r := rfl
@[simp] theorem State.setRun_fault (r : RunState) : (s.setRun r).fault = s.fault := rfl
@[simp] theorem State.setRun_mem (r : RunState) : (s.setRun r).mem = s.mem := rfl
@[simp] theorem State.setRun_input (r : RunState) : (s.setRun r).input = s.input := rfl
@[simp] theorem State.setRun_output (r : RunState) : (s.setRun r).output = s.output := rfl
@[simp] theorem State.setRun_stopReq (r : RunState) : (s.setRun r).stopReq = s.stopReq := rfl
@[simp] theorem State.setRun_hold (r : RunState) : (s.setRun r).hold = s.hold := rfl
@[simp] theorem State.setRun_environment (r : RunState) : (s.setRun r).environment = s.environment := rfl
@[simp] theorem State.setRun_recurring (r : RunState) : (s.setRun r).recurring = s.recurring := rfl
@[simp] theorem State.setRun_config (r : RunState) : (s.setRun r).config = s.config := rfl
@[simp] theorem State.setRun_reg (r : RunState) (i : Reg) : (s.setRun r).reg i = s.reg i := rfl

/-! ### setFault -/

@[simp] theorem State.setFault_regs (f : FaultRecord) : (s.setFault f).regs = s.regs := rfl
@[simp] theorem State.setFault_pc (f : FaultRecord) : (s.setFault f).pc = s.pc := rfl
@[simp] theorem State.setFault_cond (f : FaultRecord) : (s.setFault f).cond = s.cond := rfl
@[simp] theorem State.setFault_run (f : FaultRecord) : (s.setFault f).run = s.run := rfl
@[simp] theorem State.setFault_fault (f : FaultRecord) : (s.setFault f).fault = some f := rfl
@[simp] theorem State.setFault_mem (f : FaultRecord) : (s.setFault f).mem = s.mem := rfl
@[simp] theorem State.setFault_input (f : FaultRecord) : (s.setFault f).input = s.input := rfl
@[simp] theorem State.setFault_output (f : FaultRecord) : (s.setFault f).output = s.output := rfl
@[simp] theorem State.setFault_stopReq (f : FaultRecord) : (s.setFault f).stopReq = s.stopReq := rfl
@[simp] theorem State.setFault_hold (f : FaultRecord) : (s.setFault f).hold = s.hold := rfl
@[simp] theorem State.setFault_environment (f : FaultRecord) : (s.setFault f).environment = s.environment := rfl
@[simp] theorem State.setFault_recurring (f : FaultRecord) : (s.setFault f).recurring = s.recurring := rfl
@[simp] theorem State.setFault_config (f : FaultRecord) : (s.setFault f).config = s.config := rfl
@[simp] theorem State.setFault_reg (f : FaultRecord) (i : Reg) : (s.setFault f).reg i = s.reg i := rfl

/-! ### setMem -/

@[simp] theorem State.setMem_regs (m : Memory) : (s.setMem m).regs = s.regs := rfl
@[simp] theorem State.setMem_pc (m : Memory) : (s.setMem m).pc = s.pc := rfl
@[simp] theorem State.setMem_cond (m : Memory) : (s.setMem m).cond = s.cond := rfl
@[simp] theorem State.setMem_run (m : Memory) : (s.setMem m).run = s.run := rfl
@[simp] theorem State.setMem_fault (m : Memory) : (s.setMem m).fault = s.fault := rfl
@[simp] theorem State.setMem_mem (m : Memory) : (s.setMem m).mem = m := rfl
@[simp] theorem State.setMem_input (m : Memory) : (s.setMem m).input = s.input := rfl
@[simp] theorem State.setMem_output (m : Memory) : (s.setMem m).output = s.output := rfl
@[simp] theorem State.setMem_stopReq (m : Memory) : (s.setMem m).stopReq = s.stopReq := rfl
@[simp] theorem State.setMem_hold (m : Memory) : (s.setMem m).hold = s.hold := rfl
@[simp] theorem State.setMem_environment (m : Memory) : (s.setMem m).environment = s.environment := rfl
@[simp] theorem State.setMem_recurring (m : Memory) : (s.setMem m).recurring = s.recurring := rfl
@[simp] theorem State.setMem_config (m : Memory) : (s.setMem m).config = s.config := rfl
@[simp] theorem State.setMem_reg (m : Memory) (i : Reg) : (s.setMem m).reg i = s.reg i := rfl

/-! ### setInput -/

@[simp] theorem State.setInput_regs (q : List Byte) : (s.setInput q).regs = s.regs := rfl
@[simp] theorem State.setInput_pc (q : List Byte) : (s.setInput q).pc = s.pc := rfl
@[simp] theorem State.setInput_cond (q : List Byte) : (s.setInput q).cond = s.cond := rfl
@[simp] theorem State.setInput_run (q : List Byte) : (s.setInput q).run = s.run := rfl
@[simp] theorem State.setInput_fault (q : List Byte) : (s.setInput q).fault = s.fault := rfl
@[simp] theorem State.setInput_mem (q : List Byte) : (s.setInput q).mem = s.mem := rfl
@[simp] theorem State.setInput_input (q : List Byte) : (s.setInput q).input = q := rfl
@[simp] theorem State.setInput_output (q : List Byte) : (s.setInput q).output = s.output := rfl
@[simp] theorem State.setInput_stopReq (q : List Byte) : (s.setInput q).stopReq = s.stopReq := rfl
@[simp] theorem State.setInput_hold (q : List Byte) : (s.setInput q).hold = s.hold := rfl
@[simp] theorem State.setInput_environment (q : List Byte) : (s.setInput q).environment = s.environment := rfl
@[simp] theorem State.setInput_recurring (q : List Byte) : (s.setInput q).recurring = s.recurring := rfl
@[simp] theorem State.setInput_config (q : List Byte) : (s.setInput q).config = s.config := rfl
@[simp] theorem State.setInput_reg (q : List Byte) (i : Reg) : (s.setInput q).reg i = s.reg i := rfl

/-! ### setHold -/

@[simp] theorem State.setHold_regs (w : Option Wait) : (s.setHold w).regs = s.regs := rfl
@[simp] theorem State.setHold_pc (w : Option Wait) : (s.setHold w).pc = s.pc := rfl
@[simp] theorem State.setHold_cond (w : Option Wait) : (s.setHold w).cond = s.cond := rfl
@[simp] theorem State.setHold_run (w : Option Wait) : (s.setHold w).run = s.run := rfl
@[simp] theorem State.setHold_fault (w : Option Wait) : (s.setHold w).fault = s.fault := rfl
@[simp] theorem State.setHold_mem (w : Option Wait) : (s.setHold w).mem = s.mem := rfl
@[simp] theorem State.setHold_input (w : Option Wait) : (s.setHold w).input = s.input := rfl
@[simp] theorem State.setHold_output (w : Option Wait) : (s.setHold w).output = s.output := rfl
@[simp] theorem State.setHold_stopReq (w : Option Wait) : (s.setHold w).stopReq = s.stopReq := rfl
@[simp] theorem State.setHold_hold (w : Option Wait) : (s.setHold w).hold = w := rfl
@[simp] theorem State.setHold_environment (w : Option Wait) : (s.setHold w).environment = s.environment := rfl
@[simp] theorem State.setHold_recurring (w : Option Wait) : (s.setHold w).recurring = s.recurring := rfl
@[simp] theorem State.setHold_config (w : Option Wait) : (s.setHold w).config = s.config := rfl
@[simp] theorem State.setHold_reg (w : Option Wait) (i : Reg) : (s.setHold w).reg i = s.reg i := rfl

/-! ### emit -/

@[simp] theorem State.emit_regs (bs : List Byte) : (s.emit bs).regs = s.regs := rfl
@[simp] theorem State.emit_pc (bs : List Byte) : (s.emit bs).pc = s.pc := rfl
@[simp] theorem State.emit_cond (bs : List Byte) : (s.emit bs).cond = s.cond := rfl
@[simp] theorem State.emit_run (bs : List Byte) : (s.emit bs).run = s.run := rfl
@[simp] theorem State.emit_fault (bs : List Byte) : (s.emit bs).fault = s.fault := rfl
@[simp] theorem State.emit_mem (bs : List Byte) : (s.emit bs).mem = s.mem := rfl
@[simp] theorem State.emit_input (bs : List Byte) : (s.emit bs).input = s.input := rfl
@[simp] theorem State.emit_output (bs : List Byte) : (s.emit bs).output = s.output ++ bs := rfl
@[simp] theorem State.emit_stopReq (bs : List Byte) : (s.emit bs).stopReq = s.stopReq := rfl
@[simp] theorem State.emit_hold (bs : List Byte) : (s.emit bs).hold = s.hold := rfl
@[simp] theorem State.emit_environment (bs : List Byte) : (s.emit bs).environment = s.environment := rfl
@[simp] theorem State.emit_recurring (bs : List Byte) : (s.emit bs).recurring = s.recurring := rfl
@[simp] theorem State.emit_config (bs : List Byte) : (s.emit bs).config = s.config := rfl
@[simp] theorem State.emit_reg (bs : List Byte) (i : Reg) : (s.emit bs).reg i = s.reg i := rfl

/-! ### Registers -/

/-- A register reads as what was last written to it, and a write touches no other (rule R20). -/
@[simp] theorem State.setReg_reg (r : Reg) (v : Word) (i : Reg) :
    (s.setReg r v).reg i = if i = r then v else s.reg i := by
  simp only [State.reg, State.setReg, Vector.get_eq_getElem, Vector.getElem_set]
  by_cases h : i = r
  · simp [h]
  · have h' : r.val ≠ i.val := fun e => h (Fin.ext e.symm)
    simp [h, h']

theorem State.setReg_reg_same (r : Reg) (v : Word) : (s.setReg r v).reg r = v := by simp

theorem State.setReg_reg_of_ne {r i : Reg} (v : Word) (h : i ≠ r) :
    (s.setReg r v).reg i = s.reg i := by simp [h]

/-- Two states with the same registers and the same other fields are one. -/
theorem State.regs_ext {u v : Vector Word 8} (h : ∀ i : Reg, u.get i = v.get i) : u = v := by
  apply Vector.ext
  intro k hk
  simpa [Vector.get_eq_getElem] using h ⟨k, hk⟩

end Sys2Proof.Machine
end

