-- ==== Sys2Proof/Laws/Ops.lean ====
section
/-! SUPPORT. What each named operation of Sys2Proof/Machine/Ops.lean does, field by field, and one lemma
that says all a memory read can do. -/

namespace Sys2Proof.Machine

variable (s : State)

/-! ### setcc -/

@[simp] theorem State.setcc_regs (r : Reg) : (s.setcc r).regs = s.regs := rfl
@[simp] theorem State.setcc_pc (r : Reg) : (s.setcc r).pc = s.pc := rfl
@[simp] theorem State.setcc_cond (r : Reg) : (s.setcc r).cond = condOf (s.reg r) := rfl
@[simp] theorem State.setcc_run (r : Reg) : (s.setcc r).run = s.run := rfl
@[simp] theorem State.setcc_fault (r : Reg) : (s.setcc r).fault = s.fault := rfl
@[simp] theorem State.setcc_mem (r : Reg) : (s.setcc r).mem = s.mem := rfl
@[simp] theorem State.setcc_input (r : Reg) : (s.setcc r).input = s.input := rfl
@[simp] theorem State.setcc_output (r : Reg) : (s.setcc r).output = s.output := rfl
@[simp] theorem State.setcc_stopReq (r : Reg) : (s.setcc r).stopReq = s.stopReq := rfl
@[simp] theorem State.setcc_hold (r : Reg) : (s.setcc r).hold = s.hold := rfl
@[simp] theorem State.setcc_environment (r : Reg) : (s.setcc r).environment = s.environment := rfl
@[simp] theorem State.setcc_recurring (r : Reg) : (s.setcc r).recurring = s.recurring := rfl
@[simp] theorem State.setcc_config (r : Reg) : (s.setcc r).config = s.config := rfl
@[simp] theorem State.setcc_reg (r : Reg) (i : Reg) : (s.setcc r).reg i = s.reg i := rfl

/-! ### setResult -/

@[simp] theorem State.setResult_pc (r : Reg) (v : Word) : (s.setResult r v).pc = s.pc := rfl
@[simp] theorem State.setResult_run (r : Reg) (v : Word) : (s.setResult r v).run = s.run := rfl
@[simp] theorem State.setResult_fault (r : Reg) (v : Word) : (s.setResult r v).fault = s.fault := rfl
@[simp] theorem State.setResult_mem (r : Reg) (v : Word) : (s.setResult r v).mem = s.mem := rfl
@[simp] theorem State.setResult_input (r : Reg) (v : Word) : (s.setResult r v).input = s.input := rfl
@[simp] theorem State.setResult_output (r : Reg) (v : Word) : (s.setResult r v).output = s.output := rfl
@[simp] theorem State.setResult_stopReq (r : Reg) (v : Word) : (s.setResult r v).stopReq = s.stopReq := rfl
@[simp] theorem State.setResult_hold (r : Reg) (v : Word) : (s.setResult r v).hold = s.hold := rfl
@[simp] theorem State.setResult_environment (r : Reg) (v : Word) : (s.setResult r v).environment = s.environment := rfl
@[simp] theorem State.setResult_recurring (r : Reg) (v : Word) : (s.setResult r v).recurring = s.recurring := rfl
@[simp] theorem State.setResult_config (r : Reg) (v : Word) : (s.setResult r v).config = s.config := rfl

/-! ### link -/

@[simp] theorem State.link_pc : (s.link).pc = s.pc := rfl
@[simp] theorem State.link_cond : (s.link).cond = s.cond := rfl
@[simp] theorem State.link_run : (s.link).run = s.run := rfl
@[simp] theorem State.link_fault : (s.link).fault = s.fault := rfl
@[simp] theorem State.link_mem : (s.link).mem = s.mem := rfl
@[simp] theorem State.link_input : (s.link).input = s.input := rfl
@[simp] theorem State.link_output : (s.link).output = s.output := rfl
@[simp] theorem State.link_stopReq : (s.link).stopReq = s.stopReq := rfl
@[simp] theorem State.link_hold : (s.link).hold = s.hold := rfl
@[simp] theorem State.link_environment : (s.link).environment = s.environment := rfl
@[simp] theorem State.link_recurring : (s.link).recurring = s.recurring := rfl
@[simp] theorem State.link_config : (s.link).config = s.config := rfl

/-! ### out -/

@[simp] theorem State.out_regs (b : Byte) : (s.out b).regs = s.regs := rfl
@[simp] theorem State.out_pc (b : Byte) : (s.out b).pc = s.pc := rfl
@[simp] theorem State.out_cond (b : Byte) : (s.out b).cond = s.cond := rfl
@[simp] theorem State.out_run (b : Byte) : (s.out b).run = s.run := rfl
@[simp] theorem State.out_fault (b : Byte) : (s.out b).fault = s.fault := rfl
@[simp] theorem State.out_mem (b : Byte) : (s.out b).mem = s.mem := rfl
@[simp] theorem State.out_input (b : Byte) : (s.out b).input = s.input := rfl
@[simp] theorem State.out_output (b : Byte) : (s.out b).output = s.output ++ [b] := rfl
@[simp] theorem State.out_stopReq (b : Byte) : (s.out b).stopReq = s.stopReq := rfl
@[simp] theorem State.out_hold (b : Byte) : (s.out b).hold = s.hold := rfl
@[simp] theorem State.out_environment (b : Byte) : (s.out b).environment = s.environment := rfl
@[simp] theorem State.out_recurring (b : Byte) : (s.out b).recurring = s.recurring := rfl
@[simp] theorem State.out_config (b : Byte) : (s.out b).config = s.config := rfl
@[simp] theorem State.out_reg (b : Byte) (i : Reg) : (s.out b).reg i = s.reg i := rfl

/-! ### memWrite -/

@[simp] theorem State.memWrite_regs (a v : Word) : (s.memWrite a v).regs = s.regs := rfl
@[simp] theorem State.memWrite_pc (a v : Word) : (s.memWrite a v).pc = s.pc := rfl
@[simp] theorem State.memWrite_cond (a v : Word) : (s.memWrite a v).cond = s.cond := rfl
@[simp] theorem State.memWrite_run (a v : Word) : (s.memWrite a v).run = s.run := rfl
@[simp] theorem State.memWrite_fault (a v : Word) : (s.memWrite a v).fault = s.fault := rfl
@[simp] theorem State.memWrite_mem (a v : Word) : (s.memWrite a v).mem = s.mem.write a v := rfl
@[simp] theorem State.memWrite_input (a v : Word) : (s.memWrite a v).input = s.input := rfl
@[simp] theorem State.memWrite_output (a v : Word) : (s.memWrite a v).output = s.output := rfl
@[simp] theorem State.memWrite_stopReq (a v : Word) : (s.memWrite a v).stopReq = s.stopReq := rfl
@[simp] theorem State.memWrite_hold (a v : Word) : (s.memWrite a v).hold = s.hold := rfl
@[simp] theorem State.memWrite_environment (a v : Word) : (s.memWrite a v).environment = s.environment := rfl
@[simp] theorem State.memWrite_recurring (a v : Word) : (s.memWrite a v).recurring = s.recurring := rfl
@[simp] theorem State.memWrite_config (a v : Word) : (s.memWrite a v).config = s.config := rfl
@[simp] theorem State.memWrite_reg (a v : Word) (i : Reg) : (s.memWrite a v).reg i = s.reg i := rfl

/-! ### raise -/

@[simp] theorem State.raise_regs (k : FaultKind) (i a : Word) : (s.raise k i a).regs = s.regs := rfl
@[simp] theorem State.raise_pc (k : FaultKind) (i a : Word) : (s.raise k i a).pc = s.pc := rfl
@[simp] theorem State.raise_cond (k : FaultKind) (i a : Word) : (s.raise k i a).cond = s.cond := rfl
@[simp] theorem State.raise_run (k : FaultKind) (i a : Word) : (s.raise k i a).run = .faulted := rfl
@[simp] theorem State.raise_fault (k : FaultKind) (i a : Word) : (s.raise k i a).fault = some { kind := k, instr := i, addr := a } := rfl
@[simp] theorem State.raise_mem (k : FaultKind) (i a : Word) : (s.raise k i a).mem = s.mem := rfl
@[simp] theorem State.raise_input (k : FaultKind) (i a : Word) : (s.raise k i a).input = s.input := rfl
@[simp] theorem State.raise_output (k : FaultKind) (i a : Word) : (s.raise k i a).output = s.output := rfl
@[simp] theorem State.raise_stopReq (k : FaultKind) (i a : Word) : (s.raise k i a).stopReq = s.stopReq := rfl
@[simp] theorem State.raise_hold (k : FaultKind) (i a : Word) : (s.raise k i a).hold = s.hold := rfl
@[simp] theorem State.raise_environment (k : FaultKind) (i a : Word) : (s.raise k i a).environment = s.environment := rfl
@[simp] theorem State.raise_recurring (k : FaultKind) (i a : Word) : (s.raise k i a).recurring = s.recurring := rfl
@[simp] theorem State.raise_config (k : FaultKind) (i a : Word) : (s.raise k i a).config = s.config := rfl
@[simp] theorem State.raise_reg (k : FaultKind) (w a : Word) (i : Reg) : (s.raise k w a).reg i = s.reg i := rfl

@[simp] theorem State.setResult_reg (r : Reg) (v : Word) (i : Reg) :
    (s.setResult r v).reg i = if i = r then v else s.reg i := by
  simp [State.setResult]

@[simp] theorem State.setResult_cond (r : Reg) (v : Word) : (s.setResult r v).cond = condOf v := by
  simp [State.setResult]

@[simp] theorem State.link_reg (i : Reg) : s.link.reg i = if i = 7 then s.pc else s.reg i := by
  simp [State.link]

/-! ### The ports -/

theorem State.inTake_nil {s : State} (h : s.input = []) : s.inTake = none := by
  simp [State.inTake, h]

theorem State.inTake_cons {s : State} {c : Byte} {rest : List Byte} (h : s.input = c :: rest) :
    s.inTake = some (c, s.setInput rest) := by
  simp [State.inTake, h]

theorem State.inAvail_iff : s.inAvail = true ↔ s.input ≠ [] := by
  simp [State.inAvail]

/-! ### What the environment changes: its own future, the input queue and the stop request -/

@[simp] theorem State.environmentActs_regs : s.environmentActs.regs = s.regs := by
  unfold State.environmentActs; split <;> rfl
@[simp] theorem State.environmentActs_pc : s.environmentActs.pc = s.pc := by
  unfold State.environmentActs; split <;> rfl
@[simp] theorem State.environmentActs_cond : s.environmentActs.cond = s.cond := by
  unfold State.environmentActs; split <;> rfl
@[simp] theorem State.environmentActs_run : s.environmentActs.run = s.run := by
  unfold State.environmentActs; split <;> rfl
@[simp] theorem State.environmentActs_fault : s.environmentActs.fault = s.fault := by
  unfold State.environmentActs; split <;> rfl
@[simp] theorem State.environmentActs_mem : s.environmentActs.mem = s.mem := by
  unfold State.environmentActs; split <;> rfl
@[simp] theorem State.environmentActs_output : s.environmentActs.output = s.output := by
  unfold State.environmentActs; split <;> rfl
@[simp] theorem State.environmentActs_hold : s.environmentActs.hold = s.hold := by
  unfold State.environmentActs; split <;> rfl
@[simp] theorem State.environmentActs_recurring : s.environmentActs.recurring = s.recurring := by
  unfold State.environmentActs; split <;> rfl
@[simp] theorem State.environmentActs_config : s.environmentActs.config = s.config := by
  unfold State.environmentActs; split <;> rfl
@[simp] theorem State.environmentActs_reg (r : Reg) : s.environmentActs.reg r = s.reg r := by
  simp [State.reg]

/-- What the next event leaves depends on the environment's future, the input queue and the stop
request only. -/
theorem State.environmentActs_congr {s t : State} (he : t.environment = s.environment)
    (hr : t.recurring = s.recurring) (hi : t.input = s.input) (hq : t.stopReq = s.stopReq) :
    t.environmentActs.environment = s.environmentActs.environment ∧
      t.environmentActs.input = s.environmentActs.input ∧
      t.environmentActs.stopReq = s.environmentActs.stopReq := by
  unfold State.environmentActs State.upcoming
  rw [he, hr]
  split <;> simp [*]

/-- An environment with no future does nothing. -/
theorem State.environmentActs_nil {s : State} (he : s.environment = []) (hr : s.recurring = []) :
    s.environmentActs = s := by
  simp [State.environmentActs, State.upcoming, he, hr]

/-- The stop request is never cleared (rule R197). -/
theorem State.environmentActs_stopReq {s : State} (h : s.stopReq = true) :
    s.environmentActs.stopReq = true := by
  unfold State.environmentActs; split <;> simp [h]

/-- Characters arrive behind those that are pending. -/
theorem State.environmentActs_input : ∃ cs, s.environmentActs.input = s.input ++ cs := by
  unfold State.environmentActs; split
  · exact ⟨[], by simp⟩
  · exact ⟨_, rfl⟩

/-! ### The poll -/

/-- A latch with nothing pending clears KBSR and touches nothing else (rule R55). -/
theorem State.latch_nil {s : State} (h : s.input = []) :
    s.latch = s.memWrite s.config.kbsrAddr 0x0000#16 := by
  simp [State.latch, State.inTake_nil h]

/-- A latch with a character pending takes it, sets KBSR and loads KBDR (rule R55). -/
theorem State.latch_cons {s : State} {c : Byte} {rest : List Byte} (h : s.input = c :: rest) :
    s.latch =
      ((s.setInput rest).memWrite s.config.kbsrAddr 0x8000#16).memWrite s.config.kbdrAddr
        (zext8 c) := by
  simp [State.latch, State.inTake_cons h]

/-- A poll that finds nothing pending clears KBSR (rule R55). -/
theorem State.kbPoll_nil {s : State} (h : s.environmentActs.input = []) :
    s.kbPoll = s.environmentActs.memWrite s.config.kbsrAddr 0x0000#16 := by
  simp [State.kbPoll, State.latch_nil h]

/-- A poll that finds a character takes it, sets KBSR and loads KBDR (rule R55). -/
theorem State.kbPoll_cons {s : State} {c : Byte} {rest : List Byte}
    (h : s.environmentActs.input = c :: rest) :
    s.kbPoll =
      ((s.environmentActs.setInput rest).memWrite s.config.kbsrAddr 0x8000#16).memWrite
        s.config.kbdrAddr (zext8 c) := by
  simp [State.kbPoll, State.latch_cons h]

theorem State.pollAt_of_ne {s : State} {a : Word} (h : a ≠ s.config.kbsrAddr) : s.pollAt a = s :=
  if_neg h

theorem State.pollAt_kbsr {s : State} {a : Word} (h : a = s.config.kbsrAddr) :
    s.pollAt a = s.kbPoll :=
  if_pos h

@[simp] theorem State.latch_regs : s.latch.regs = s.regs := by
  unfold State.latch State.inTake; cases s.input <;> rfl
@[simp] theorem State.kbPoll_regs : s.kbPoll.regs = s.regs := by simp [State.kbPoll]
@[simp] theorem State.pollAt_regs (a : Word) : (s.pollAt a).regs = s.regs := by
  unfold State.pollAt; split <;> simp
@[simp] theorem State.latch_pc : s.latch.pc = s.pc := by
  unfold State.latch State.inTake; cases s.input <;> rfl
@[simp] theorem State.kbPoll_pc : s.kbPoll.pc = s.pc := by simp [State.kbPoll]
@[simp] theorem State.pollAt_pc (a : Word) : (s.pollAt a).pc = s.pc := by
  unfold State.pollAt; split <;> simp
@[simp] theorem State.latch_cond : s.latch.cond = s.cond := by
  unfold State.latch State.inTake; cases s.input <;> rfl
@[simp] theorem State.kbPoll_cond : s.kbPoll.cond = s.cond := by simp [State.kbPoll]
@[simp] theorem State.pollAt_cond (a : Word) : (s.pollAt a).cond = s.cond := by
  unfold State.pollAt; split <;> simp
@[simp] theorem State.latch_run : s.latch.run = s.run := by
  unfold State.latch State.inTake; cases s.input <;> rfl
@[simp] theorem State.kbPoll_run : s.kbPoll.run = s.run := by simp [State.kbPoll]
@[simp] theorem State.pollAt_run (a : Word) : (s.pollAt a).run = s.run := by
  unfold State.pollAt; split <;> simp
@[simp] theorem State.latch_fault : s.latch.fault = s.fault := by
  unfold State.latch State.inTake; cases s.input <;> rfl
@[simp] theorem State.kbPoll_fault : s.kbPoll.fault = s.fault := by simp [State.kbPoll]
@[simp] theorem State.pollAt_fault (a : Word) : (s.pollAt a).fault = s.fault := by
  unfold State.pollAt; split <;> simp
@[simp] theorem State.latch_output : s.latch.output = s.output := by
  unfold State.latch State.inTake; cases s.input <;> rfl
@[simp] theorem State.kbPoll_output : s.kbPoll.output = s.output := by simp [State.kbPoll]
@[simp] theorem State.pollAt_output (a : Word) : (s.pollAt a).output = s.output := by
  unfold State.pollAt; split <;> simp
@[simp] theorem State.latch_hold : s.latch.hold = s.hold := by
  unfold State.latch State.inTake; cases s.input <;> rfl
@[simp] theorem State.kbPoll_hold : s.kbPoll.hold = s.hold := by simp [State.kbPoll]
@[simp] theorem State.pollAt_hold (a : Word) : (s.pollAt a).hold = s.hold := by
  unfold State.pollAt; split <;> simp
@[simp] theorem State.latch_recurring : s.latch.recurring = s.recurring := by
  unfold State.latch State.inTake; cases s.input <;> rfl
@[simp] theorem State.kbPoll_recurring : s.kbPoll.recurring = s.recurring := by simp [State.kbPoll]
@[simp] theorem State.pollAt_recurring (a : Word) : (s.pollAt a).recurring = s.recurring := by
  unfold State.pollAt; split <;> simp
@[simp] theorem State.latch_config : s.latch.config = s.config := by
  unfold State.latch State.inTake; cases s.input <;> rfl
@[simp] theorem State.kbPoll_config : s.kbPoll.config = s.config := by simp [State.kbPoll]
@[simp] theorem State.pollAt_config (a : Word) : (s.pollAt a).config = s.config := by
  unfold State.pollAt; split <;> simp
@[simp] theorem State.latch_environment : s.latch.environment = s.environment := by
  unfold State.latch State.inTake; cases s.input <;> rfl
@[simp] theorem State.kbPoll_environment : s.kbPoll.environment = s.environmentActs.environment := by
  simp [State.kbPoll]
@[simp] theorem State.latch_stopReq : s.latch.stopReq = s.stopReq := by
  unfold State.latch State.inTake; cases s.input <;> rfl
@[simp] theorem State.kbPoll_stopReq : s.kbPoll.stopReq = s.environmentActs.stopReq := by
  simp [State.kbPoll]

@[simp] theorem State.kbPoll_reg (i : Reg) : s.kbPoll.reg i = s.reg i := by simp [State.reg]
@[simp] theorem State.pollAt_reg (a : Word) (i : Reg) : (s.pollAt a).reg i = s.reg i := by
  simp [State.reg]

/-- A latch takes at most the oldest character. -/
@[simp] theorem State.latch_input : s.latch.input = s.input.tail := by
  unfold State.latch State.inTake; cases h : s.input <;> simp [h]

@[simp] theorem State.kbPoll_input : s.kbPoll.input = s.environmentActs.input.tail := by
  simp [State.kbPoll]

/-- A memory write keeps the canonical form. -/
theorem State.memWrite_wf {s : State} (h : s.mem.wf) (a v : Word) : (s.memWrite a v).mem.wf :=
  Memory.write_wf h a v

theorem State.environmentActs_wf {s : State} (h : s.mem.wf) : s.environmentActs.mem.wf := by
  simpa using h

/-- A poll keeps the canonical form. -/
theorem State.kbPoll_wf {s : State} (h : s.mem.wf) : s.kbPoll.mem.wf := by
  have h' := State.environmentActs_wf h
  cases hq : s.environmentActs.input with
  | nil => rw [State.kbPoll_nil hq]; exact State.memWrite_wf h' _ _
  | cons c rest =>
    rw [State.kbPoll_cons hq]
    exact State.memWrite_wf (State.memWrite_wf (s := s.environmentActs.setInput rest) h' _ _) _ _

/-- A memory read keeps the canonical form. -/
theorem State.pollAt_wf {s : State} (h : s.mem.wf) (a : Word) : (s.pollAt a).mem.wf := by
  unfold State.pollAt; split
  · exact State.kbPoll_wf h
  · exact h

/-- A poll changes the two keyboard cells only, whatever the form of the list. -/
theorem State.kbPoll_read_of_ne {s : State} {a : Word} (hs : a ≠ s.config.kbsrAddr)
    (hd : a ≠ s.config.kbdrAddr) : s.kbPoll.mem.read a = s.mem.read a := by
  cases hq : s.environmentActs.input with
  | nil => simp [State.kbPoll_nil hq, Memory.read_write_of_ne _ _ hs]
  | cons c rest =>
    simp [State.kbPoll_cons hq, Memory.read_write_of_ne _ _ hd, Memory.read_write_of_ne _ _ hs]

/-- A memory read changes the two keyboard cells at most. -/
theorem State.pollAt_read_of_ne {s : State} {a : Word} (b : Word) (hs : a ≠ s.config.kbsrAddr)
    (hd : a ≠ s.config.kbdrAddr) : (s.pollAt b).mem.read a = s.mem.read a := by
  unfold State.pollAt; split
  · exact State.kbPoll_read_of_ne hs hd
  · rfl

theorem State.kbPoll_read_kbsr_nil {s : State} (h : s.mem.wf) (hq : s.environmentActs.input = []) :
    s.kbPoll.mem.read s.config.kbsrAddr = 0x0000#16 := by
  rw [State.kbPoll_nil hq]; exact Memory.read_write_same (State.environmentActs_wf h) _ _

theorem State.kbPoll_read_kbsr_cons {s : State} (h : s.mem.wf)
    (hne : s.config.kbsrAddr ≠ s.config.kbdrAddr) {c : Byte} {rest : List Byte}
    (hq : s.environmentActs.input = c :: rest) :
    s.kbPoll.mem.read s.config.kbsrAddr = 0x8000#16 := by
  rw [State.kbPoll_cons hq]
  exact (Memory.read_write_of_ne _ _ hne).trans
    (Memory.read_write_same (State.environmentActs_wf h) _ _)

theorem State.kbPoll_read_kbdr_cons {s : State} (h : s.mem.wf) {c : Byte} {rest : List Byte}
    (hq : s.environmentActs.input = c :: rest) :
    s.kbPoll.mem.read s.config.kbdrAddr = zext8 c := by
  rw [State.kbPoll_cons hq]
  exact Memory.read_write_same
    (State.memWrite_wf (s := s.environmentActs.setInput rest) (State.environmentActs_wf h) _ _) _ _

theorem State.kbPoll_read_kbdr_nil {s : State} (hne : s.config.kbsrAddr ≠ s.config.kbdrAddr)
    (hq : s.environmentActs.input = []) :
    s.kbPoll.mem.read s.config.kbdrAddr = s.mem.read s.config.kbdrAddr := by
  simp [State.kbPoll_nil hq, Memory.read_write_of_ne _ _ hne.symm]

/-! ### Memory read -/

@[simp] theorem State.memRead_snd (a : Word) : (s.memRead a).2 = s.pollAt a := rfl

@[simp] theorem State.memRead_fst (a : Word) : (s.memRead a).1 = (s.pollAt a).mem.read a := rfl

/-- A read of any cell but KBSR is plain (rule R54). -/
theorem State.memRead_of_ne {s : State} {a : Word} (h : a ≠ s.config.kbsrAddr) :
    s.memRead a = (s.mem.read a, s) := by
  simp [State.memRead, State.pollAt_of_ne h]

/-- A read of KBSR that finds nothing pending answers zero (rules R54, R55). -/
theorem State.memRead_kbsr_nil {s : State} (h : s.mem.wf) (hq : s.environmentActs.input = []) :
    s.memRead s.config.kbsrAddr = (0x0000#16, s.kbPoll) := by
  simp [State.memRead, State.pollAt_kbsr, State.kbPoll_read_kbsr_nil h hq]

/-- A read of KBSR that finds a character answers ready (rules R54, R55). -/
theorem State.memRead_kbsr_cons {s : State} (h : s.mem.wf)
    (hne : s.config.kbsrAddr ≠ s.config.kbdrAddr) {c : Byte} {rest : List Byte}
    (hq : s.environmentActs.input = c :: rest) :
    s.memRead s.config.kbsrAddr = (0x8000#16, s.kbPoll) := by
  simp [State.memRead, State.pollAt_kbsr, State.kbPoll_read_kbsr_cons h hne hq]

end Sys2Proof.Machine
end

