-- ==== Sys2Proof/Laws/Trap.lean ====
section
/-! SUPPORT. The loop shared by PUTS and PUTSP: one turn of it, what it leaves unchanged, where a zero
word ends it; and the two forms of the services that take a character. -/

namespace Sys2Proof.Machine

/-! ### The string services -/

/-- One turn of the loop. -/
theorem stringLoop_succ (w : Wait) (reads : Nat) (a : Word) (s : State) :
    stringLoop w (reads + 1) a s =
      if (s.pollAt a).mem.read a = 0#16 then s.pollAt a
      else stringLoop w reads (a + 1)
        ((s.pollAt a).emit (w.chars ((s.pollAt a).mem.read a))) := rfl

/-- What holds of a state and survives each poll, each byte written and the mark of a service that goes
on survives the loop. -/
theorem stringLoop_keeps {w : Wait} {P : State → Prop} (hpoll : ∀ s a, P s → P (s.pollAt a))
    (hemit : ∀ s bs, P s → P (s.emit bs)) (hhold : ∀ s, P s → P (s.setHold (some w))) :
    ∀ (reads : Nat) (a : Word) (s : State), P s → P (stringLoop w reads a s) := by
  intro reads
  induction reads with
  | zero => intro a s hs; exact hhold _ hs
  | succ reads ih =>
    intro a s hs
    rw [stringLoop_succ]
    split
    · exact hpoll _ _ hs
    · exact ih _ _ (hemit _ _ (hpoll _ _ hs))

/-- A string service changes nothing but memory, the ports, the mark of a held step and, through its
polls, the world. -/
theorem stringLoop_frame (w : Wait) (reads : Nat) (a : Word) (s : State) :
    (stringLoop w reads a s).regs = s.regs ∧ (stringLoop w reads a s).pc = s.pc ∧
      (stringLoop w reads a s).cond = s.cond ∧ (stringLoop w reads a s).run = s.run ∧
      (stringLoop w reads a s).fault = s.fault ∧
      (stringLoop w reads a s).recurring = s.recurring ∧
      (stringLoop w reads a s).config = s.config :=
  stringLoop_keeps (P := fun u => u.regs = s.regs ∧ u.pc = s.pc ∧ u.cond = s.cond ∧
      u.run = s.run ∧ u.fault = s.fault ∧ u.recurring = s.recurring ∧ u.config = s.config)
    (fun _ _ hp => by simpa using hp) (fun _ _ hp => by simpa using hp)
    (fun _ hp => by simpa using hp) reads a s ⟨rfl, rfl, rfl, rfl, rfl, rfl, rfl⟩

/-- A string service keeps the canonical form of memory. -/
theorem stringLoop_wf (w : Wait) (reads : Nat) (a : Word) {s : State} (hm : s.mem.wf) :
    (stringLoop w reads a s).mem.wf :=
  stringLoop_keeps (P := fun u => u.mem.wf) (fun _ _ hu => State.pollAt_wf hu _) (fun _ _ hu => hu)
    (fun _ hu => hu) reads a s hm

/-- A string service only appends to the output. -/
theorem stringLoop_output (w : Wait) (reads : Nat) (a : Word) (s : State) :
    s.output <+: (stringLoop w reads a s).output :=
  stringLoop_keeps (P := fun u => s.output <+: u.output) (fun _ _ hu => by simpa using hu)
    (fun _ _ hu => hu.trans (List.prefix_append _ _)) (fun _ hu => hu) reads a s (List.prefix_refl _)

/-- Rule R169: a zero word outside the keyboard cells, `k` addresses above `a`, ends the loop within
`k + 1` reads. -/
theorem stringLoop_ends (w : Wait) {z : Word} :
    ∀ (k reads : Nat) (a : Word) (s : State), k < reads → z = a + BitVec.ofNat 16 k →
      s.mem.read z = 0#16 → z ≠ s.config.kbsrAddr → z ≠ s.config.kbdrAddr →
      (stringLoop w reads a s).hold = s.hold := by
  intro k
  induction k with
  | zero =>
    intro reads a s hk hz h0 hs hd
    obtain ⟨reads, rfl⟩ : ∃ r, reads = r + 1 := ⟨reads - 1, by omega⟩
    obtain rfl : z = a := by simpa using hz
    rw [stringLoop_succ, if_pos (by rw [State.pollAt_of_ne hs]; exact h0)]
    simp
  | succ k ih =>
    intro reads a s hk hz h0 hs hd
    obtain ⟨reads, rfl⟩ : ∃ r, reads = r + 1 := ⟨reads - 1, by omega⟩
    rw [stringLoop_succ]
    split
    · simp
    · refine (ih reads (a + 1) _ (by omega) ?_ ?_ (by simpa using hs) (by simpa using hd)).trans
        (by simp)
      · rw [hz, BitVec.ofNat_add, BitVec.add_assoc, BitVec.add_comm 1]; rfl
      · simpa [State.pollAt_read_of_ne a hs hd] using h0

/-- Where `P` says that no read answers zero, and survives the loop, the loop goes on through all its
reads, each of which writes a byte or more, and marks the service. -/
theorem stringLoop_goesOn {w : Wait} {P : State → Prop} (hchars : ∀ v, v ≠ 0#16 → 1 ≤ (w.chars v).length)
    (hread : ∀ s a, P s → (s.pollAt a).mem.read a ≠ 0#16) (hpoll : ∀ s a, P s → P (s.pollAt a))
    (hemit : ∀ s bs, P s → P (s.emit bs)) (hhold : ∀ s, P s → P (s.setHold (some w))) :
    ∀ (reads : Nat) (a : Word) (s : State), P s →
      P (stringLoop w reads a s) ∧ (stringLoop w reads a s).hold = some w ∧
        s.output.length + reads ≤ (stringLoop w reads a s).output.length := by
  intro reads
  induction reads with
  | zero => intro a s hs; exact ⟨hhold _ hs, rfl, Nat.le_refl _⟩
  | succ reads ih =>
    intro a s hs
    rw [stringLoop_succ, if_neg (hread s a hs)]
    obtain ⟨h1, h2, h3⟩ := ih (a + 1) _ (hemit _ (w.chars ((s.pollAt a).mem.read a)) (hpoll s a hs))
    refine ⟨h1, h2, Nat.le_trans ?_ h3⟩
    have := hchars _ (hread s a hs)
    simp only [State.emit_output, State.pollAt_output, List.length_append]
    omega

/-! ### A whole string service -/

theorem State.writeString_eq (w : Wait) (s : State) :
    s.writeString w = stringLoop w s.stringReads (s.reg 0) s := rfl

@[simp] theorem State.setReg_stringReads (s : State) (r : Reg) (v : Word) :
    (s.setReg r v).stringReads = s.stringReads := rfl
@[simp] theorem State.link_stringReads (s : State) : s.link.stringReads = s.stringReads := rfl

theorem State.stringReads_eq (s : State) : s.stringReads = 65536 * (s.pollBound + 1) := by
  unfold State.stringReads; rw [Nat.mul_succ, Nat.add_comm]

/-- A service that never ends reads the address space once at least. -/
theorem State.stringReads_le (s : State) : 65536 ≤ s.stringReads := by
  unfold State.stringReads; omega

theorem State.writeString_frame (w : Wait) (s : State) :
    (s.writeString w).regs = s.regs ∧ (s.writeString w).pc = s.pc ∧
      (s.writeString w).cond = s.cond ∧ (s.writeString w).run = s.run ∧
      (s.writeString w).fault = s.fault ∧ (s.writeString w).recurring = s.recurring ∧
      (s.writeString w).config = s.config := by
  rw [State.writeString_eq]; exact stringLoop_frame w _ _ s

theorem State.writeString_wf (w : Wait) {s : State} (hm : s.mem.wf) : (s.writeString w).mem.wf := by
  rw [State.writeString_eq]; exact stringLoop_wf w _ _ hm

theorem State.writeString_output (w : Wait) (s : State) : s.output <+: (s.writeString w).output := by
  rw [State.writeString_eq]; exact stringLoop_output w _ _ s

/-- Rule R169: a zero word outside the keyboard cells ends the service. -/
theorem State.writeString_ends (w : Wait) {s : State} {z : Word} (h0 : s.mem.read z = 0#16)
    (hs : z ≠ s.config.kbsrAddr) (hd : z ≠ s.config.kbdrAddr) :
    (s.writeString w).hold = s.hold := by
  rw [State.writeString_eq]
  refine stringLoop_ends w (z - s.reg 0).toNat _ _ _
    (Nat.lt_of_lt_of_le (z - s.reg 0).isLt s.stringReads_le) ?_ h0 hs hd
  rw [BitVec.ofNat_toNat, BitVec.setWidth_eq, BitVec.add_comm, BitVec.sub_add_cancel]

/-! ### The services that take a character -/

theorem State.finishGetc_cons {s : State} {c : Byte} {rest : List Byte} (h : s.input = c :: rest) :
    s.finishGetc = ((s.setInput rest).setHold none).setResult 0 (zext8 c) := by
  simp [State.finishGetc, State.inTake_cons h]

theorem State.finishGetc_nil {s : State} (h : s.input = []) :
    s.finishGetc = s.setHold (some .getc) := by
  simp [State.finishGetc, State.inTake_nil h]

theorem State.finishIn_cons {s : State} {c : Byte} {rest : List Byte} (h : s.input = c :: rest) :
    s.finishIn = (((s.setInput rest).setHold none).out c).setResult 0 (zext8 c) := by
  simp [State.finishIn, State.inTake_cons h]

theorem State.finishIn_nil {s : State} (h : s.input = []) :
    s.finishIn = s.setHold (some .inService) := by
  simp [State.finishIn, State.inTake_nil h]

end Sys2Proof.Machine
end

