-- ==== Sys2Proof/Laws/Cycle.lean ====
section
/-! SUPPORT. Everything a service that takes a character can do, and how a run goes on from a step. -/

namespace Sys2Proof.Machine

variable (s : State)

/-! ### Everything GETC and IN can do from their `InTake()` on -/

theorem State.finishGetc_cases :
    (∃ c rest, s.input = c :: rest ∧
      s.finishGetc = ((s.setInput rest).setHold none).setResult 0 (zext8 c)) ∨
    (s.input = [] ∧ s.finishGetc = s.setHold (some .getc)) := by
  cases h : s.input with
  | nil => exact .inr ⟨rfl, State.finishGetc_nil h⟩
  | cons c rest => exact .inl ⟨c, rest, rfl, State.finishGetc_cons h⟩

theorem State.finishIn_cases :
    (∃ c rest, s.input = c :: rest ∧
      s.finishIn = (((s.setInput rest).setHold none).out c).setResult 0 (zext8 c)) ∨
    (s.input = [] ∧ s.finishIn = s.setHold (some .inService)) := by
  cases h : s.input with
  | nil => exact .inr ⟨rfl, State.finishIn_nil h⟩
  | cons c rest => exact .inl ⟨c, rest, rfl, State.finishIn_cons h⟩

/-- Marking a held step as held changes nothing. -/
theorem State.setHold_self {s : State} {w : Option Wait} (h : s.hold = w) : s.setHold w = s := by
  subst h; rfl

/-! ### Runs -/

/-- A run goes on from the next state of its first step. -/
theorem run_succ_of_next {s t : State} (n : Nat) (h : step s = .next t) :
    Sys2Proof.core.run (n + 1) s = Sys2Proof.core.run n t := by
  have h' : Sys2Proof.core.step s = .next t := h
  simp only [Host.Core.run, h']

end Sys2Proof.Machine
end

