-- ==== Sys2Proof/Laws/Decode.lean ====
section
/-! SUPPORT. Fields of an instruction word: a field that was put is read back, and putting it leaves
every disjoint field alone. -/

namespace Sys2Proof

/-- The bits of a word after a field is put. -/
theorem putField_getLsbD {n : Nat} (lo : Nat) (v : BitVec n) (w : Word) (k : Nat) (hk : k < 16) :
    (putField lo v w).getLsbD k =
      if lo ≤ k ∧ k < lo + n then v.getLsbD (k - lo) else w.getLsbD k := by
  simp only [putField, BitVec.getLsbD_or, BitVec.getLsbD_and, BitVec.getLsbD_not,
    BitVec.getLsbD_shiftLeft, BitVec.getLsbD_setWidth, BitVec.getLsbD_allOnes, hk,
    decide_true, Bool.true_and]
  by_cases h1 : k < lo
  · have : ¬ (lo ≤ k ∧ k < lo + n) := by omega
    simp [h1, this]
  · by_cases h2 : k - lo < n
    · have h3 : lo ≤ k ∧ k < lo + n := by omega
      have h4 : k - lo < 16 := by omega
      simp [h1, h2, h3, h4]
    · have h3 : ¬ (lo ≤ k ∧ k < lo + n) := by omega
      have h4 : v.getLsbD (k - lo) = false := BitVec.getLsbD_of_ge _ _ (by omega)
      simp [h1, h2, h3, h4]

/-- A field that was put is read back. -/
theorem bitField_putField_same {n : Nat} (lo : Nat) (v : BitVec n) (w : Word)
    (h : lo + n ≤ 16) : bitField (putField lo v w) lo n = v := by
  apply BitVec.eq_of_getLsbD_eq
  intro i hi
  rw [bitField, BitVec.getLsbD_extractLsb', putField_getLsbD _ _ _ _ (by omega)]
  have : lo ≤ lo + i ∧ lo + i < lo + n := by omega
  simp [hi]

/-- Putting a field leaves every field that shares no bit with it alone. -/
theorem bitField_putField_of_disjoint {n : Nat} {lo : Nat} (v : BitVec n) (w : Word) {lo' n' : Nat}
    (h : lo + n ≤ lo' ∨ lo' + n' ≤ lo) (h' : lo' + n' ≤ 16) :
    bitField (putField lo v w) lo' n' = bitField w lo' n' := by
  apply BitVec.eq_of_getLsbD_eq
  intro i hi
  rw [bitField, bitField, BitVec.getLsbD_extractLsb', BitVec.getLsbD_extractLsb',
    putField_getLsbD _ _ _ _ (by omega)]
  have : ¬ (lo ≤ lo' + i ∧ lo' + i < lo + n) := by omega
  simp [this]

/-- The opcode field of `base` is the opcode's number. -/
theorem bitField_base (e : Encoding) (op : Opcode) (fill : BitVec 12) :
    bitField (e.base op fill) 12 4 = e.number op := by
  apply BitVec.eq_of_getLsbD_eq
  intro i hi
  rw [bitField, BitVec.getLsbD_extractLsb', Encoding.base, BitVec.getLsbD_append]
  have h1 : ¬ 12 + i < 12 := by omega
  simp [hi, h1]

/-- An opcode that stands in the table is the one its number names. -/
theorem opcodes_number {e : Encoding} {op : Opcode} (h : op ∈ e.opcodes.toList) :
    e.opcodes.get (e.number op).toFin = op := by
  have hlt : e.opcodes.toList.idxOf op < e.opcodes.toList.length := List.idxOf_lt_length_iff.mpr h
  have hlen : e.opcodes.toList.length = 16 := by simp
  have hval : (e.number op).toNat = e.opcodes.toList.idxOf op := by
    simp only [Encoding.number, BitVec.toNat_ofNat]
    exact Nat.mod_eq_of_lt (by omega)
  have hget : e.opcodes.toList[e.opcodes.toList.idxOf op]'hlt = op := List.getElem_idxOf hlt
  simp only [Vector.get_eq_getElem, BitVec.val_toFin, hval]
  rwa [Vector.getElem_toList] at hget

/-- Every opcode stands in a usable table. -/
theorem Encoding.wf_mem {e : Encoding} (h : e.wf = true) (op : Opcode) : op ∈ e.opcodes.toList := by
  have h1 := (Bool.and_eq_true_iff.mp h).1
  have h2 : op ∈ Opcode.all := by cases op <;> decide
  simpa using List.all_eq_true.mp h1 op h2

/-- The fields of a format of a usable table lie below the opcode field. -/
theorem fieldsFit_le {fs : List (Nat × Nat)} (h : fieldsFit fs = true) {f : Nat × Nat}
    (hf : f ∈ fs) : f.1 + f.2 ≤ 12 := by
  have h1 := (Bool.and_eq_true_iff.mp h).1
  simpa using List.all_eq_true.mp h1 f hf

theorem Encoding.wf_fits {e : Encoding} (h : e.wf = true) {fs : List (Nat × Nat)}
    (hf : fs ∈ e.formats) : fieldsFit fs = true :=
  List.all_eq_true.mp (Bool.and_eq_true_iff.mp h).2 fs hf

/-- A field below bit 12 is no part of the opcode. -/
theorem opcodeOf_putField {n lo : Nat} (e : Encoding) (v : BitVec n) (w : Word)
    (h : lo + n ≤ 12) : e.opcodeOf (putField lo v w) = e.opcodeOf w := by
  have hf : bitField (putField lo v w) 12 4 = bitField w 12 4 :=
    bitField_putField_of_disjoint v w (.inl h) (by omega)
  simp only [Encoding.opcodeOf, hf]

theorem opcodeOf_putReg {lo : Nat} (e : Encoding) (r : Reg) (w : Word) (h : lo + 3 ≤ 12) :
    e.opcodeOf (putReg lo r w) = e.opcodeOf w := opcodeOf_putField e _ w h

theorem opcodeOf_putFlag {lo : Nat} (e : Encoding) (b : Bool) (w : Word) (h : lo + 1 ≤ 12) :
    e.opcodeOf (putFlag lo b w) = e.opcodeOf w := opcodeOf_putField e _ w h

theorem opcodeOf_base {e : Encoding} (h : e.wf = true) (op : Opcode) (fill : BitVec 12) :
    e.opcodeOf (e.base op fill) = op := by
  rw [Encoding.opcodeOf, bitField_base]
  exact opcodes_number (Encoding.wf_mem h op)

/-- The bound of every field of a usable table. -/
structure Encoding.Bounds (e : Encoding) : Prop where
  dr         : e.dr + 3 ≤ 12
  sr         : e.sr + 3 ≤ 12
  sr1        : e.sr1 + 3 ≤ 12
  sr2        : e.sr2 + 3 ≤ 12
  baseR      : e.baseR + 3 ≤ 12
  immFlag    : e.immFlag + 1 ≤ 12
  longFlag   : e.longFlag + 1 ≤ 12
  maskN      : e.maskN + 1 ≤ 12
  maskZ      : e.maskZ + 1 ≤ 12
  maskP      : e.maskP + 1 ≤ 12
  imm5       : e.imm5 + 5 ≤ 12
  offset6    : e.offset6 + 6 ≤ 12
  pcOffset9  : e.pcOffset9 + 9 ≤ 12
  pcOffset11 : e.pcOffset11 + 11 ≤ 12

theorem Encoding.bounds {e : Encoding} (h : e.wf = true) : e.Bounds := by
  have fit : ∀ fs ∈ e.formats, ∀ f ∈ fs, f.1 + f.2 ≤ 12 := fun fs hfs f hf =>
    fieldsFit_le (Encoding.wf_fits h hfs) hf
  have f0 := fit [(e.dr, 3), (e.sr1, 3), (e.immFlag, 1), (e.sr2, 3)] (by simp [Encoding.formats])
  have f1 := fit [(e.dr, 3), (e.sr1, 3), (e.immFlag, 1), (e.imm5, 5)] (by simp [Encoding.formats])
  have f3 := fit [(e.maskN, 1), (e.maskZ, 1), (e.maskP, 1), (e.pcOffset9, 9)] (by simp [Encoding.formats])
  have f5 := fit [(e.longFlag, 1), (e.pcOffset11, 11)] (by simp [Encoding.formats])
  have f10 := fit [(e.sr, 3), (e.baseR, 3), (e.offset6, 6)] (by simp [Encoding.formats])
  exact
    { dr := f0 (e.dr, 3) (by simp)
      sr := f10 (e.sr, 3) (by simp)
      sr1 := f0 (e.sr1, 3) (by simp)
      sr2 := f0 (e.sr2, 3) (by simp)
      baseR := f10 (e.baseR, 3) (by simp)
      immFlag := f0 (e.immFlag, 1) (by simp)
      longFlag := f5 (e.longFlag, 1) (by simp)
      maskN := f3 (e.maskN, 1) (by simp)
      maskZ := f3 (e.maskZ, 1) (by simp)
      maskP := f3 (e.maskP, 1) (by simp)
      imm5 := f1 (e.imm5, 5) (by simp)
      offset6 := f10 (e.offset6, 6) (by simp)
      pcOffset9 := f3 (e.pcOffset9, 9) (by simp)
      pcOffset11 := f5 (e.pcOffset11, 11) (by simp) }

/-! ### Reading back one field among several -/

theorem regField_putReg_same {lo : Nat} (r : Reg) (w : Word) (h : lo + 3 ≤ 12) :
    regField (putReg lo r w) lo = r := by
  unfold regField putReg
  rw [bitField_putField_same _ _ _ (by omega)]

theorem regField_putField_of_disjoint {n lo lo' : Nat} (v : BitVec n) (w : Word)
    (h : lo + n ≤ lo' ∨ lo' + 3 ≤ lo) (h' : lo' + 3 ≤ 12) :
    regField (putField lo v w) lo' = regField w lo' := by
  unfold regField
  rw [bitField_putField_of_disjoint _ _ h (by omega)]

theorem flagField_putFlag_same {lo : Nat} (b : Bool) (w : Word) (h : lo + 1 ≤ 12) :
    flagField (putFlag lo b w) lo = b := by
  rw [flagField, putFlag, putField_getLsbD _ _ _ _ (by omega), if_pos (by omega), Nat.sub_self]
  cases b <;> rfl

theorem flagField_putField_of_disjoint {n lo lo' : Nat} (v : BitVec n) (w : Word)
    (h : lo + n ≤ lo' ∨ lo' + 1 ≤ lo) (h' : lo' + 1 ≤ 12) :
    flagField (putField lo v w) lo' = flagField w lo' := by
  rw [flagField, flagField, putField_getLsbD _ _ _ _ (by omega), if_neg (by omega)]

/-- The fields of a format of a usable table share no bit. -/
theorem Encoding.wf_disjoint {e : Encoding} (h : e.wf = true) {fs : List (Nat × Nat)}
    (hf : fs ∈ e.formats) : fs.Pairwise fun f g => f.1 + f.2 ≤ g.1 ∨ g.1 + g.2 ≤ f.1 :=
  (of_decide_eq_true (Bool.and_eq_true_iff.mp (Encoding.wf_fits h hf)).2).imp fun h => by
    simpa [disjointFields] using h

/-- The low byte of `base` is that of what was filled in below the opcode. -/
theorem bitField_base_low (e : Encoding) (op : Opcode) (fill : BitVec 12) :
    bitField (e.base op fill) 0 8 = fill.extractLsb' 0 8 := by
  apply BitVec.eq_of_getLsbD_eq
  intro k hk
  rw [bitField, BitVec.getLsbD_extractLsb', BitVec.getLsbD_extractLsb', Encoding.base,
    BitVec.getLsbD_append, if_pos (by omega)]

/-- What an assembler writes for an instruction that does not fault is its encoding. -/
theorem Encoding.assembled_of_legal (e : Encoding) {i : Instr} (h : i.illegal = false) :
    e.assembled i = e.encode i := by
  cases i <;> first | rfl | cases h

end Sys2Proof
end

