-- ==== Sys2Proof/Laws/PerInstr.lean ====
section
/-! SUPPORT. A statement about every instruction as syntax, one lemma for each constructor of `Instr`:
the encoder puts an instruction under its own opcode (rule R84), in any usable table. -/

namespace Sys2Proof.Laws.OpcodeOfEncode

/-- The top four bits of the encoding name the instruction's opcode. -/
def Statement (i : Instr) : Prop :=
  ∀ e : Encoding, e.wf = true → i.wf e = true → e.opcodeOf (e.encode i) = i.opcode

theorem addReg (d a b : Reg) : Statement (.addReg d a b) := fun e he _ =>
  (opcodeOf_putReg e d _ (Encoding.bounds he).dr).trans <|
  (opcodeOf_putReg e a _ (Encoding.bounds he).sr1).trans <|
  (opcodeOf_putFlag e false _ (Encoding.bounds he).immFlag).trans <|
  (opcodeOf_putReg e b _ (Encoding.bounds he).sr2).trans <|
  opcodeOf_base he _ _

theorem addImm (d a : Reg) (i : BitVec 5) : Statement (.addImm d a i) := fun e he _ =>
  (opcodeOf_putReg e d _ (Encoding.bounds he).dr).trans <|
  (opcodeOf_putReg e a _ (Encoding.bounds he).sr1).trans <|
  (opcodeOf_putFlag e true _ (Encoding.bounds he).immFlag).trans <|
  (opcodeOf_putField e i _ (Encoding.bounds he).imm5).trans <|
  opcodeOf_base he _ _

theorem andReg (d a b : Reg) : Statement (.andReg d a b) := fun e he _ =>
  (opcodeOf_putReg e d _ (Encoding.bounds he).dr).trans <|
  (opcodeOf_putReg e a _ (Encoding.bounds he).sr1).trans <|
  (opcodeOf_putFlag e false _ (Encoding.bounds he).immFlag).trans <|
  (opcodeOf_putReg e b _ (Encoding.bounds he).sr2).trans <|
  opcodeOf_base he _ _

theorem andImm (d a : Reg) (i : BitVec 5) : Statement (.andImm d a i) := fun e he _ =>
  (opcodeOf_putReg e d _ (Encoding.bounds he).dr).trans <|
  (opcodeOf_putReg e a _ (Encoding.bounds he).sr1).trans <|
  (opcodeOf_putFlag e true _ (Encoding.bounds he).immFlag).trans <|
  (opcodeOf_putField e i _ (Encoding.bounds he).imm5).trans <|
  opcodeOf_base he _ _

theorem not (d a : Reg) : Statement (.not d a) := fun e he _ =>
  (opcodeOf_putReg e d _ (Encoding.bounds he).dr).trans <|
  (opcodeOf_putReg e a _ (Encoding.bounds he).sr1).trans <|
  opcodeOf_base he _ _

theorem br (n z p : Bool) (o : BitVec 9) : Statement (.br n z p o) := fun e he _ =>
  (opcodeOf_putFlag e n _ (Encoding.bounds he).maskN).trans <|
  (opcodeOf_putFlag e z _ (Encoding.bounds he).maskZ).trans <|
  (opcodeOf_putFlag e p _ (Encoding.bounds he).maskP).trans <|
  (opcodeOf_putField e o _ (Encoding.bounds he).pcOffset9).trans <|
  opcodeOf_base he _ _

theorem jmp (b : Reg) : Statement (.jmp b) := fun e he _ =>
  (opcodeOf_putReg e b _ (Encoding.bounds he).baseR).trans <|
  opcodeOf_base he _ _

theorem jsr (o : BitVec 11) : Statement (.jsr o) := fun e he _ =>
  (opcodeOf_putFlag e true _ (Encoding.bounds he).longFlag).trans <|
  (opcodeOf_putField e o _ (Encoding.bounds he).pcOffset11).trans <|
  opcodeOf_base he _ _

theorem jsrr (b : Reg) : Statement (.jsrr b) := fun e he _ =>
  (opcodeOf_putFlag e false _ (Encoding.bounds he).longFlag).trans <|
  (opcodeOf_putReg e b _ (Encoding.bounds he).baseR).trans <|
  opcodeOf_base he _ _

theorem ld (d : Reg) (o : BitVec 9) : Statement (.ld d o) := fun e he _ =>
  (opcodeOf_putReg e d _ (Encoding.bounds he).dr).trans <|
  (opcodeOf_putField e o _ (Encoding.bounds he).pcOffset9).trans <|
  opcodeOf_base he _ _

theorem ldi (d : Reg) (o : BitVec 9) : Statement (.ldi d o) := fun e he _ =>
  (opcodeOf_putReg e d _ (Encoding.bounds he).dr).trans <|
  (opcodeOf_putField e o _ (Encoding.bounds he).pcOffset9).trans <|
  opcodeOf_base he _ _

theorem ldr (d b : Reg) (o : BitVec 6) : Statement (.ldr d b o) := fun e he _ =>
  (opcodeOf_putReg e d _ (Encoding.bounds he).dr).trans <|
  (opcodeOf_putReg e b _ (Encoding.bounds he).baseR).trans <|
  (opcodeOf_putField e o _ (Encoding.bounds he).offset6).trans <|
  opcodeOf_base he _ _

theorem lea (d : Reg) (o : BitVec 9) : Statement (.lea d o) := fun e he _ =>
  (opcodeOf_putReg e d _ (Encoding.bounds he).dr).trans <|
  (opcodeOf_putField e o _ (Encoding.bounds he).pcOffset9).trans <|
  opcodeOf_base he _ _

theorem st (r : Reg) (o : BitVec 9) : Statement (.st r o) := fun e he _ =>
  (opcodeOf_putReg e r _ (Encoding.bounds he).sr).trans <|
  (opcodeOf_putField e o _ (Encoding.bounds he).pcOffset9).trans <|
  opcodeOf_base he _ _

theorem sti (r : Reg) (o : BitVec 9) : Statement (.sti r o) := fun e he _ =>
  (opcodeOf_putReg e r _ (Encoding.bounds he).sr).trans <|
  (opcodeOf_putField e o _ (Encoding.bounds he).pcOffset9).trans <|
  opcodeOf_base he _ _

theorem str (r b : Reg) (o : BitVec 6) : Statement (.str r b o) := fun e he _ =>
  (opcodeOf_putReg e r _ (Encoding.bounds he).sr).trans <|
  (opcodeOf_putReg e b _ (Encoding.bounds he).baseR).trans <|
  (opcodeOf_putField e o _ (Encoding.bounds he).offset6).trans <|
  opcodeOf_base he _ _

theorem trapGetc : Statement .trapGetc := fun _ he _ => opcodeOf_base he _ _

theorem trapOut : Statement .trapOut := fun _ he _ => opcodeOf_base he _ _

theorem trapPuts : Statement .trapPuts := fun _ he _ => opcodeOf_base he _ _

theorem trapIn : Statement .trapIn := fun _ he _ => opcodeOf_base he _ _

theorem trapPutsp : Statement .trapPutsp := fun _ he _ => opcodeOf_base he _ _

theorem trapHalt : Statement .trapHalt := fun _ he _ => opcodeOf_base he _ _

theorem trapUnknown (w : Word) : Statement (.trapUnknown w) := fun _ _ hw =>
  eq_of_beq (Bool.and_eq_true_iff.mp hw).1

theorem rti (w : Word) : Statement (.rti w) := fun _ _ hw => eq_of_beq hw

theorem res (w : Word) : Statement (.res w) := fun _ _ hw => eq_of_beq hw

end Sys2Proof.Laws.OpcodeOfEncode
end

