-- ==== Sys2Proof/Laws/Reads.lean ====
section
/-! SUPPORT. The words of Sys2Proof/Safety.lean said of the operations: everything one memory read can
do, and the values the claims write without the model's own functions. -/

namespace Sys2Proof.Machine

open Sys2Proof.Safety

/-! ### Values -/

/-- Sign extension is the signed value taken modulo 2^16 (rule R19). -/
theorem sext_eq_ofInt {n : Nat} (hn : n ≤ 16) (v : BitVec n) : sext v = BitVec.ofInt 16 v.toInt := by
  apply BitVec.eq_of_toInt_eq
  rw [sext, BitVec.toInt_signExtend_of_le hn, BitVec.toInt_ofInt]
  have h1 := BitVec.le_two_mul_toInt (x := v)
  have h2 := BitVec.two_mul_toInt_lt (x := v)
  have h3 : (2 : Int) ^ n ≤ 2 ^ 16 := by exact_mod_cast Nat.pow_le_pow_right (by omega) hn
  rw [Int.bmod_eq_of_le] <;> norm_num at * <;> omega

theorem zext8_eq_setWidth (c : Byte) : zext8 c = c.setWidth 16 := by
  revert c; decide +kernel

theorem lowByte_eq_setWidth (w : Word) : lowByte w = w.setWidth 8 := by
  apply BitVec.eq_of_getLsbD_eq
  intro i hi
  simp [lowByte, hi]

theorem highByte_eq_shift (w : Word) : highByte w = (w >>> 8).setWidth 8 := by
  apply BitVec.eq_of_getLsbD_eq
  intro i hi
  simp [highByte, hi]

/-! ### Reads -/

/-- Everything `MemRead(a, 1)` can do to memory, the input queue and the world (rules R54, R55). -/
theorem memRead_readGives {s : State} (hm : s.mem.wf)
    (hne : s.config.kbsrAddr ≠ s.config.kbdrAddr) (a : Word) :
    ReadGives s a (s.memRead a).1 (s.memRead a).2 := by
  rw [State.memRead_fst, State.memRead_snd]
  refine ⟨fun h => ?_, fun h hq => ?_, fun h c rest hq => ?_⟩
  · rw [State.pollAt_of_ne h]
    exact ⟨rfl, fun _ _ => rfl, rfl, rfl, rfl, rfl, rfl⟩
  · rw [State.pollAt_kbsr h, h]
    refine ⟨State.kbPoll_read_kbsr_nil hm hq, State.kbPoll_read_kbsr_nil hm hq, fun b hb => ?_,
      by simp [hq], by simp [WorldKept]⟩
    rw [State.kbPoll_nil hq]
    simpa using Memory.read_write_of_ne _ _ (by simpa using hb)
  · rw [State.pollAt_kbsr h, h]
    refine ⟨State.kbPoll_read_kbsr_cons hm hne hq, State.kbPoll_read_kbsr_cons hm hne hq, ?_,
      fun b hb => ?_, by simp [hq], by simp [WorldKept]⟩
    · rw [State.kbPoll_read_kbdr_cons hm hq, zext8_eq_setWidth]
    · simp only [List.mem_cons, List.not_mem_nil, or_false, not_or] at hb
      exact State.kbPoll_read_of_ne hb.1 hb.2

/-- What the next event does depends on the world and the input queue only. -/
theorem environmentActs_of_world {s t : State} (hi : t.input = s.input) (hw : WorldKept s t) :
    t.environmentActs.input = s.environmentActs.input ∧
      WorldKept s.environmentActs t.environmentActs := by
  obtain ⟨h1, h2, h3, h4⟩ := hw
  obtain ⟨e1, e2, e3⟩ := State.environmentActs_congr h2 h3 hi h1
  exact ⟨e2, e3, e1, by simpa using h3, by simpa using h4⟩

/-- What a read gives depends on memory, the input queue and the world only. -/
theorem ReadGives_congr {s s' t t' : State} {a v : Word} (h : ReadGives s a v t)
    (hm : s'.mem = s.mem) (hi : s'.input = s.input) (hw : WorldKept s s')
    (hm' : t'.mem = t.mem) (hi' : t'.input = t.input) (hw' : WorldKept t t') :
    ReadGives s' a v t' := by
  obtain ⟨e1, e2⟩ := environmentActs_of_world hi hw
  obtain ⟨w1, w2, w3, w4⟩ := hw
  obtain ⟨u1, u2, u3, u4⟩ := hw'
  obtain ⟨v1, v2, v3, v4⟩ := e2
  unfold ReadGives CellsKeptBut WorldKept at *
  rw [hm, hi, w1, w2, w3, w4, hm', hi', u1, u2, u3, u4, e1, v1, v2, v3, v4]
  exact h

/-- A read touches no register, no output, and nothing of the run. -/
theorem memRead_frame (s : State) (a : Word) :
    RegsKeptBut [] s (s.memRead a).2 ∧ (s.memRead a).2.output = s.output ∧
      RunKept s (s.memRead a).2 ∧ (s.memRead a).2.recurring = s.recurring ∧
      (s.memRead a).2.config = s.config := by
  simp [RegsKeptBut, RunKept]

/-! ### Frames of the setters -/

theorem frame_setResult (r : Reg) (v : Word) (s : State) : Frame [r] [] s (s.setResult r v) := by
  refine ⟨fun i hi => ?_, fun _ _ => rfl, ⟨rfl, rfl⟩, ⟨rfl, rfl, rfl⟩, rfl, rfl, rfl, rfl⟩
  simp only [List.mem_singleton] at hi
  simp [hi]

theorem frame_setPc (v : Word) (s : State) : Frame [] [] s (s.setPc v) :=
  ⟨fun _ _ => rfl, fun _ _ => rfl, ⟨rfl, rfl⟩, ⟨rfl, rfl, rfl⟩, rfl, rfl, rfl, rfl⟩

theorem frame_link_setPc (v : Word) (s : State) : Frame [7] [] s (s.link.setPc v) := by
  refine ⟨fun i hi => ?_, fun _ _ => rfl, ⟨rfl, rfl⟩, ⟨rfl, rfl, rfl⟩, rfl, rfl, rfl, rfl⟩
  simp only [List.mem_singleton] at hi
  simp [hi]

theorem frame_memWrite (a v : Word) (s : State) : Frame [] [a] s (s.memWrite a v) := by
  refine ⟨fun _ _ => rfl, fun b hb => ?_, ⟨rfl, rfl⟩, ⟨rfl, rfl, rfl⟩, rfl, rfl, rfl, rfl⟩
  exact Memory.read_write_of_ne _ _ (by simpa using hb)

end Sys2Proof.Machine
end

