-- ==== Sys2Proof/Laws/Strings.lean ====
section
/-! SUPPORT. A string service that ends, ends within the reads of `State.stringReads` (rule R114): if that
many reads in a row answer other than zero, every later read does too. The argument is about the source:
which polls find a character depends on the queue and on the events to come, and those repeat. -/

namespace Sys2Proof.Machine

/-! ### The source as lists -/

/-- The coming `n` events of a source with the future `env`, then `rec` again and again; an event that
brings nothing where there is none. -/
def comingEvents (rec : List EnvEvent) : Nat → List EnvEvent → List EnvEvent
  | 0, _ => []
  | n + 1, env =>
    match (if env = [] then rec else env) with
    | [] => ⟨[], false⟩ :: comingEvents rec n []
    | e :: rest => e :: comingEvents rec n rest

/-- Each poll, after its event, finds a character that is not zero, and takes it. -/
def Flows : List Byte → List EnvEvent → Prop
  | _, [] => True
  | q, e :: es => ∃ c rest, q ++ e.chars = c :: rest ∧ c ≠ 0#8 ∧ Flows rest es

/-- The characters of a list of events. -/
def charsOf (es : List EnvEvent) : List Byte := es.flatMap EnvEvent.chars

@[simp] theorem charsOf_nil : charsOf [] = [] := rfl
@[simp] theorem charsOf_cons (e : EnvEvent) (es : List EnvEvent) :
    charsOf (e :: es) = e.chars ++ charsOf es := rfl
@[simp] theorem charsOf_append (es fs : List EnvEvent) :
    charsOf (es ++ fs) = charsOf es ++ charsOf fs := List.flatMap_append

/-- The queue after the polls of some events. -/
def queueAfter (q : List Byte) (es : List EnvEvent) : List Byte := (q ++ charsOf es).drop es.length

theorem queueAfter_cons {q : List Byte} {e : EnvEvent} {c : Byte} {rest : List Byte}
    (h : q ++ e.chars = c :: rest) (es : List EnvEvent) :
    queueAfter q (e :: es) = queueAfter rest es := by
  simp [queueAfter, ← List.append_assoc, h]

theorem Flows.append {es fs : List EnvEvent} :
    ∀ {q : List Byte}, Flows q (es ++ fs) ↔ Flows q es ∧ Flows (queueAfter q es) fs := by
  induction es with
  | nil => intro q; simp [Flows, queueAfter]
  | cons e es ih =>
    intro q
    constructor
    · rintro ⟨c, rest, h1, h2, h3⟩
      rw [queueAfter_cons h1]
      exact ⟨⟨c, rest, h1, h2, (ih.1 h3).1⟩, (ih.1 h3).2⟩
    · rintro ⟨⟨c, rest, h1, h2, h3⟩, h4⟩
      rw [queueAfter_cons h1] at h4
      exact ⟨c, rest, h1, h2, ih.2 ⟨h3, h4⟩⟩

/-- No more characters are taken than there are. -/
theorem Flows.length_le {es : List EnvEvent} :
    ∀ {q : List Byte}, Flows q es → es.length ≤ q.length + (charsOf es).length := by
  induction es with
  | nil => intro q _; simp
  | cons e es ih =>
    rintro q ⟨c, rest, h1, _, h3⟩
    have h4 := congrArg List.length h1
    have h5 := ih h3
    simp only [List.length_append, List.length_cons, charsOf_cons] at *
    omega

/-- The characters that were taken are not zero. -/
theorem Flows.ne_zero {es : List EnvEvent} :
    ∀ {q : List Byte}, Flows q es → ∀ c ∈ (q ++ charsOf es).take es.length, c ≠ 0#8 := by
  induction es with
  | nil => intro q _ c hc; simp at hc
  | cons e es ih =>
    rintro q ⟨c, rest, h1, h2, h3⟩ d hd
    rw [charsOf_cons, ← List.append_assoc, h1, List.cons_append, List.length_cons,
      List.take_succ_cons, List.mem_cons] at hd
    rcases hd with rfl | hd
    · exact h2
    · exact ih h3 d hd

/-- More characters in the queue, none of them zero, do no harm. -/
theorem Flows.mono {es : List EnvEvent} (hes : ∀ c ∈ charsOf es, c ≠ 0#8) :
    ∀ {q r : List Byte}, Flows q es → q.length ≤ r.length → (∀ c ∈ r, c ≠ 0#8) → Flows r es := by
  induction es with
  | nil => intros; trivial
  | cons e es ih =>
    rintro q r ⟨c, rest, h1, _, h3⟩ hl hr
    have h4 := congrArg List.length h1
    simp only [List.length_append, List.length_cons] at h4
    have hall : ∀ x ∈ r ++ e.chars, x ≠ 0#8 := by
      intro x hx
      rcases List.mem_append.1 hx with hx | hx
      · exact hr x hx
      · exact hes x (by simp [hx])
    cases hc : r ++ e.chars with
    | nil =>
      have h5 := congrArg List.length hc
      simp only [List.length_append, List.length_nil] at h5
      omega
    | cons d tl =>
      rw [hc] at hall
      have h5 := congrArg List.length hc
      simp only [List.length_append, List.length_cons] at h5
      exact ⟨d, tl, hc, hall d (by simp), ih (fun x hx => hes x (by simp [hx])) h3 (by omega)
        (fun x hx => hall x (by simp [hx]))⟩

/-- Some events again and again. -/
def again (es : List EnvEvent) (j : Nat) : List EnvEvent := (List.replicate j es).flatten

theorem again_succ (es : List EnvEvent) (j : Nat) : again es (j + 1) = es ++ again es j := by
  simp [again, List.replicate_succ]

theorem again_length (es : List EnvEvent) (j : Nat) : (again es j).length = j * es.length := by
  simp [again]

theorem charsOf_again_length (es : List EnvEvent) (j : Nat) :
    (charsOf (again es j)).length = j * (charsOf es).length := by
  induction j with
  | zero => simp [again]
  | succ j ih => rw [again_succ]; simp [ih, Nat.succ_mul, Nat.add_comm]

/-- Polls that go well for long enough under a source that repeats itself go well for ever. -/
theorem Flows.forever {q : List Byte} {es : List EnvEvent} (hne : es ≠ []) {j : Nat}
    (hj : q.length + (charsOf es).length + 1 ≤ j) (h : Flows q (again es j)) :
    ∀ k, Flows q (again es k) := by
  obtain ⟨j, rfl⟩ : ∃ i, j = i + 1 := ⟨j - 1, by omega⟩
  have hp : 1 ≤ es.length := List.length_pos_iff.2 hne
  -- in each period as many characters come as are taken
  have hm : es.length ≤ (charsOf es).length := by
    have h1 := h.length_le
    rw [again_length, charsOf_again_length] at h1
    by_contra hlt
    have h2 : (j + 1) * ((charsOf es).length + 1) ≤ (j + 1) * es.length :=
      Nat.mul_le_mul_left _ (by omega)
    rw [Nat.mul_succ] at h2
    omega
  -- every character of the queue and of the period has been taken
  have hz : ∀ c ∈ q ++ charsOf es, c ≠ 0#8 := by
    intro c hc
    refine h.ne_zero c ?_
    rw [again_succ, charsOf_append, ← List.append_assoc]
    have h3 : (q ++ charsOf es).length ≤ (es ++ again es j).length := by
      rw [← again_succ, again_length, List.length_append]
      exact Nat.le_trans (by omega) (Nat.le_mul_of_pos_right (j + 1) hp)
    rw [List.take_append, List.take_of_length_le h3]
    exact List.mem_append_left _ hc
  have hes : ∀ c ∈ charsOf es, c ≠ 0#8 := fun c hc => hz c (by simp [hc])
  rw [again_succ] at h
  have hone := (Flows.append.1 h).1
  have key : ∀ k (r : List Byte), q.length ≤ r.length → (∀ c ∈ r, c ≠ 0#8) →
      Flows r (again es k) := by
    intro k
    induction k with
    | zero => intros; trivial
    | succ k ih =>
      intro r hl hr
      rw [again_succ]
      refine Flows.append.2 ⟨hone.mono hes hl hr, ih _ ?_ ?_⟩
      · simp only [queueAfter, List.length_drop, List.length_append]; omega
      · intro c hc
        rcases List.mem_append.1 (List.mem_of_mem_drop hc) with hc | hc
        · exact hr c hc
        · exact hes c hc
  exact fun k => key k q (Nat.le_refl _) (fun c hc => hz c (by simp [hc]))

/-! ### The coming events -/

theorem comingEvents_append (rec : List EnvEvent) (env : List EnvEvent) :
    ∀ n, comingEvents rec (env.length + n) env = env ++ comingEvents rec n [] := by
  induction env with
  | nil => intro n; simp
  | cons e es ih =>
    intro n
    rw [List.length_cons, Nat.succ_add]
    simp [comingEvents, ih n]

/-- What repeats: the recurring events, or one that brings nothing. -/
def period (rec : List EnvEvent) : List EnvEvent := if rec = [] then [⟨[], false⟩] else rec

theorem period_ne_nil (rec : List EnvEvent) : period rec ≠ [] := by
  unfold period; split <;> simp_all

theorem period_length_le (rec : List EnvEvent) : (period rec).length ≤ rec.length + 1 := by
  unfold period; split <;> simp_all

theorem charsOf_period (rec : List EnvEvent) : charsOf (period rec) = charsOf rec := by
  unfold period; split <;> simp_all

theorem comingEvents_period (rec : List EnvEvent) (n : Nat) :
    comingEvents rec ((period rec).length + n) [] = period rec ++ comingEvents rec n [] := by
  cases rec with
  | nil =>
    rw [show (period []).length + n = n + 1 by simp [period, Nat.add_comm]]
    simp [comingEvents, period]
  | cons e es =>
    rw [show (period (e :: es)).length + n = es.length + n + 1 by simp [period]; omega]
    simp [comingEvents, period, comingEvents_append]

theorem comingEvents_again (rec : List EnvEvent) (j : Nat) :
    comingEvents rec (j * (period rec).length) [] = again (period rec) j := by
  induction j with
  | zero => simp [comingEvents, again]
  | succ j ih => rw [Nat.succ_mul, Nat.add_comm, comingEvents_period, ih, again_succ]

theorem comingEvents_prefix (rec : List EnvEvent) :
    ∀ n k env, ∃ es, comingEvents rec (n + k) env = comingEvents rec n env ++ es := by
  intro n k
  induction n with
  | zero => intro env; exact ⟨_, by simp [comingEvents]; rfl⟩
  | succ n ih =>
    intro env
    rw [Nat.succ_add]
    unfold comingEvents
    split
    · obtain ⟨es, h⟩ := ih []; exact ⟨es, by rw [h]; rfl⟩
    · next e rest _ => obtain ⟨es, h⟩ := ih rest; exact ⟨es, by rw [h]; rfl⟩

theorem Flows.le {q : List Byte} {rec env : List EnvEvent} {n m : Nat} (h : n ≤ m)
    (hf : Flows q (comingEvents rec m env)) : Flows q (comingEvents rec n env) := by
  obtain ⟨es, he⟩ := comingEvents_prefix rec n (m - n) env
  rw [Nat.add_sub_cancel' h] at he
  rw [he] at hf
  exact (Flows.append.1 hf).1

/-- `State.pollBound` polls that go well are followed by polls that go well. -/
theorem flows_bound (q : List Byte) (rec env : List EnvEvent)
    (h : Flows q (comingEvents rec ((rec.length + 1) * ((q ++ charsOf (env ++ rec)).length + 1) +
      env.length) env)) :
    ∀ n, Flows q (comingEvents rec n env) := by
  set j := (q ++ charsOf (env ++ rec)).length + 1 with hj
  have hl := period_length_le rec
  have h1 : Flows q (comingEvents rec (env.length + j * (period rec).length) env) :=
    h.le (by
      rw [Nat.add_comm, Nat.mul_comm j]
      exact Nat.add_le_add_right (Nat.mul_le_mul_right _ hl) _)
  rw [comingEvents_append, comingEvents_again] at h1
  obtain ⟨h2, h3⟩ := Flows.append.1 h1
  have h4 := h3.forever (period_ne_nil rec) (by
    rw [charsOf_period]
    simp only [queueAfter, List.length_drop, List.length_append, charsOf_append] at hj ⊢
    omega)
  intro n
  have hp : 1 ≤ (period rec).length := List.length_pos_iff.2 (period_ne_nil rec)
  refine Flows.le (m := env.length + n * (period rec).length)
    (Nat.le_trans (Nat.le_mul_of_pos_right n hp) (Nat.le_add_left _ _)) ?_
  rw [comingEvents_append, comingEvents_again]
  exact Flows.append.2 ⟨h2, h4 n⟩

/-! ### The polls of a state -/

/-- The next `n` polls each find a character that is not zero. -/
def State.PollsFind (s : State) (n : Nat) : Prop :=
  Flows s.input (comingEvents s.recurring n s.environment)

theorem State.pollsFind_zero (s : State) : s.PollsFind 0 := trivial

theorem State.pollsFind_succ (s : State) (n : Nat) :
    s.PollsFind (n + 1) ↔
      ∃ c rest, s.environmentActs.input = c :: rest ∧ c ≠ 0#8 ∧ s.kbPoll.PollsFind n := by
  have hk : s.kbPoll.PollsFind n ↔ Flows s.environmentActs.input.tail
      (comingEvents s.recurring n s.environmentActs.environment) := by
    unfold State.PollsFind; simp
  rw [hk]
  have hu : comingEvents s.recurring (n + 1) s.environment =
      match s.upcoming with
      | [] => ⟨[], false⟩ :: comingEvents s.recurring n []
      | e :: rest => e :: comingEvents s.recurring n rest := rfl
  unfold State.PollsFind
  rw [hu]
  cases hq : s.upcoming with
  | nil =>
    have he : s.environment = [] := by
      unfold State.upcoming at hq; split at hq
      · assumption
      · exact hq
    have ha : s.environmentActs = s := by unfold State.environmentActs; rw [hq]
    rw [ha, he]
    constructor
    · rintro ⟨c, rest, h1, h2, h3⟩
      simp only [List.append_nil] at h1
      exact ⟨c, rest, h1, h2, by rw [h1]; exact h3⟩
    · rintro ⟨c, rest, h1, h2, h3⟩
      rw [h1] at h3
      exact ⟨c, rest, by simpa using h1, h2, h3⟩
  | cons e es =>
    have ha : s.environmentActs.input = s.input ++ e.chars ∧ s.environmentActs.environment = es := by
      unfold State.environmentActs; rw [hq]; exact ⟨rfl, rfl⟩
    rw [ha.1, ha.2]
    constructor
    · rintro ⟨c, rest, h1, h2, h3⟩
      exact ⟨c, rest, h1, h2, by rw [h1]; exact h3⟩
    · rintro ⟨c, rest, h1, h2, h3⟩
      rw [h1] at h3
      exact ⟨c, rest, h1, h2, h3⟩

theorem State.pollsFind_congr {s t : State} (hi : t.input = s.input)
    (he : t.environment = s.environment) (hr : t.recurring = s.recurring) (n : Nat) :
    t.PollsFind n ↔ s.PollsFind n := by
  unfold State.PollsFind; rw [hi, he, hr]

theorem State.pollsFind_forever {s : State} (h : s.PollsFind s.pollBound) (n : Nat) :
    s.PollsFind n :=
  flows_bound _ _ _ h n

/-! ### The reads of a service -/

/-- The state after `n` reads of a service, none of which ended it. -/
def readsOn (w : Wait) : Nat → Word → State → State
  | 0, _, s => s
  | n + 1, a, s => readsOn w n (a + 1) ((s.pollAt a).emit (w.chars ((s.pollAt a).mem.read a)))

/-- None of the next `n` reads of a service answers zero. -/
def Lives (w : Wait) : Nat → Word → State → Prop
  | 0, _, _ => True
  | n + 1, a, s => (s.pollAt a).mem.read a ≠ 0#16 ∧
    Lives w n (a + 1) ((s.pollAt a).emit (w.chars ((s.pollAt a).mem.read a)))

/-- One address further is one address nearer to any other. -/
theorem toNat_sub_succ {a z : Word} (h : z ≠ a) : (z - (a + 1)).toNat + 1 = (z - a).toNat := by
  have h0 : z.toNat ≠ a.toNat := fun e => h (BitVec.eq_of_toNat_eq e)
  have h1 := a.isLt
  have h2 := z.isLt
  have h3 : (1 : Word).toNat = 1 := rfl
  simp only [BitVec.toNat_sub, BitVec.toNat_add, h3]
  omega

/-- The address just below is the farthest. -/
theorem toNat_sub_self_succ (a : Word) : (a - (a + 1)).toNat = 65535 := by
  have h1 := a.isLt
  have h3 : (1 : Word).toNat = 1 := rfl
  simp only [BitVec.toNat_sub, BitVec.toNat_add, h3]
  omega

theorem addr_succ (a : Word) (n : Nat) :
    a + BitVec.ofNat 16 (n + 1) = a + 1 + BitVec.ofNat 16 n := by
  rw [BitVec.ofNat_add, BitVec.add_assoc, BitVec.add_comm (1 : Word)]; rfl

theorem Lives.add {w : Wait} {m : Nat} :
    ∀ {n : Nat} {a : Word} {s : State}, Lives w (n + m) a s ↔
      Lives w n a s ∧ Lives w m (a + BitVec.ofNat 16 n) (readsOn w n a s) := by
  intro n
  induction n with
  | zero => intro a s; simp [Lives, readsOn]
  | succ n ih =>
    intro a s
    rw [Nat.succ_add, addr_succ]
    simp only [Lives, readsOn, and_assoc, ih]

theorem readsOn_keeps {w : Wait} {P : State → Prop} (hpoll : ∀ s a, P s → P (s.pollAt a))
    (hemit : ∀ s bs, P s → P (s.emit bs)) :
    ∀ (n : Nat) (a : Word) (s : State), P s → P (readsOn w n a s) := by
  intro n
  induction n with
  | zero => intro a s h; exact h
  | succ n ih => intro a s h; exact ih _ _ (hemit _ _ (hpoll _ _ h))

/-- Reads that do not end the service run through the loop, which then marks it. -/
theorem stringLoop_of_lives {w : Wait} :
    ∀ {n : Nat} {a : Word} {s : State}, Lives w n a s →
      stringLoop w n a s = (readsOn w n a s).setHold (some w) := by
  intro n
  induction n with
  | zero => intros; rfl
  | succ n ih =>
    intro a s h
    rw [stringLoop_succ, if_neg h.1, ih h.2]; rfl

/-- Otherwise one of them, the one after `k` others, answers zero and is the last. -/
theorem stringLoop_of_not_lives {w : Wait} :
    ∀ {n : Nat} {a : Word} {s : State}, ¬ Lives w n a s →
      ∃ k, k < n ∧ Lives w k a s ∧
        ((readsOn w k a s).memRead (a + BitVec.ofNat 16 k)).1 = 0#16 ∧
        stringLoop w n a s = ((readsOn w k a s).memRead (a + BitVec.ofNat 16 k)).2 := by
  intro n
  induction n with
  | zero => intro a s h; exact absurd trivial h
  | succ n ih =>
    intro a s h
    by_cases h0 : (s.pollAt a).mem.read a = 0#16
    · refine ⟨0, Nat.succ_pos _, trivial, ?_, ?_⟩
      · simpa [readsOn] using h0
      · rw [stringLoop_succ, if_pos h0]; simp [readsOn]
    · obtain ⟨k, h1, h2, h3, h4⟩ := ih (fun hl => h ⟨h0, hl⟩)
      refine ⟨k + 1, Nat.succ_lt_succ h1, ⟨h0, h2⟩, ?_, ?_⟩
      · rw [addr_succ]; exact h3
      · rw [stringLoop_succ, if_neg h0, addr_succ]; exact h4

/-- Reads that stop short of KBSR change nothing but the output. -/
theorem readsOn_of_lt {w : Wait} :
    ∀ {n : Nat} {a : Word} {s : State}, n ≤ (s.config.kbsrAddr - a).toNat →
      (readsOn w n a s).mem = s.mem ∧ (readsOn w n a s).input = s.input ∧
        (readsOn w n a s).environment = s.environment ∧
        (readsOn w n a s).recurring = s.recurring ∧ (readsOn w n a s).config = s.config := by
  intro n
  induction n with
  | zero => intros; exact ⟨rfl, rfl, rfl, rfl, rfl⟩
  | succ n ih =>
    intro a s h
    have ha : a ≠ s.config.kbsrAddr := by
      rintro rfl; simp at h
    have hd := toNat_sub_succ (Ne.symm ha)
    rw [readsOn, State.pollAt_of_ne ha]
    have := ih (a := a + 1) (s := s.emit (w.chars (s.mem.read a))) (by
      simp only [State.emit_config]; omega)
    simpa using this

/-- A cell outside the two keyboard cells reads as before. -/
theorem readsOn_read_of_ne (w : Wait) (n : Nat) (a : Word) {s : State} {z : Word}
    (hs : z ≠ s.config.kbsrAddr) (hd : z ≠ s.config.kbdrAddr) :
    (readsOn w n a s).mem.read z = s.mem.read z :=
  (readsOn_keeps (P := fun u => u.config = s.config ∧ u.mem.read z = s.mem.read z)
    (fun u b hu => ⟨by simpa using hu.1,
      (State.pollAt_read_of_ne b (by rw [hu.1]; exact hs) (by rw [hu.1]; exact hd)).trans hu.2⟩)
    (fun _ _ hu => hu) n a s ⟨rfl, rfl⟩).2

/-- Each read of a service that lives answers other than zero. -/
theorem Lives.read {w : Wait} {k n : Nat} {a : Word} {s : State} (hk : k < n) (h : Lives w n a s) :
    ((readsOn w k a s).pollAt (a + BitVec.ofNat 16 k)).mem.read (a + BitVec.ofNat 16 k) ≠ 0#16 := by
  obtain ⟨m, rfl⟩ : ∃ m, n = k + (m + 1) := ⟨n - k - 1, by omega⟩
  exact (Lives.add.1 h).2.1

theorem Lives.le {w : Wait} {k n : Nat} {a : Word} {s : State} (hk : k ≤ n) (h : Lives w n a s) :
    Lives w k a s := by
  rw [← Nat.add_sub_cancel' hk] at h
  exact (Lives.add.1 h).1

theorem addr_of_distance (a z : Word) : a + BitVec.ofNat 16 (z - a).toNat = z := by
  rw [BitVec.ofNat_toNat, BitVec.setWidth_eq, BitVec.add_comm, BitVec.sub_add_cancel]

/-- A service that lives through the address space met no zero word outside the keyboard cells. -/
theorem Lives.cells {w : Wait} {n : Nat} {a : Word} {s : State} (hn : 65536 ≤ n)
    (h : Lives w n a s) {z : Word} (hs : z ≠ s.config.kbsrAddr) (hd : z ≠ s.config.kbdrAddr) :
    s.mem.read z ≠ 0#16 := by
  have h1 := h.read (k := (z - a).toNat) (Nat.lt_of_lt_of_le (z - a).isLt hn)
  have hc : (readsOn w (z - a).toNat a s).config = s.config :=
    readsOn_keeps (P := fun u => u.config = s.config) (fun u b hu => by simpa using hu)
      (fun _ _ hu => hu) _ _ _ rfl
  rw [addr_of_distance, State.pollAt_of_ne (by rw [hc]; exact hs), readsOn_read_of_ne w _ a hs hd]
    at h1
  exact h1

/-- From KBSR on: each round but the last polls, finds a character, and reads it in KBDR as other than
zero before the next poll. -/
theorem Lives.pollsFind_kbsr {w : Wait} :
    ∀ {k : Nat} {s : State}, s.mem.wf → s.config.kbsrAddr ≠ s.config.kbdrAddr →
      Lives w (65536 * k) s.config.kbsrAddr s → s.PollsFind k := by
  intro k
  induction k with
  | zero => intros; trivial
  | succ k ih =>
    intro s hm hne h
    rw [Nat.mul_succ, Nat.add_comm] at h
    obtain ⟨h1, h2⟩ := Lives.add.1 h
    have hround : s.config.kbsrAddr + BitVec.ofNat 16 65536 = s.config.kbsrAddr := by simp
    rw [hround] at h2
    obtain ⟨m, hm65⟩ : ∃ m, 65536 = m + 1 := ⟨65535, rfl⟩
    have h1' : Lives w (m + 1) s.config.kbsrAddr s := hm65 ▸ h1
    have hstep : readsOn w 65536 s.config.kbsrAddr s =
        readsOn w m (s.config.kbsrAddr + 1)
          ((s.pollAt s.config.kbsrAddr).emit
            (w.chars ((s.pollAt s.config.kbsrAddr).mem.read s.config.kbsrAddr))) := by
      rw [hm65]; rfl
    rw [hstep] at h2
    obtain ⟨h3, h4⟩ := h1'
    rw [State.pollAt_kbsr rfl] at h2 h3 h4
    set u := s.kbPoll.emit (w.chars (s.kbPoll.mem.read s.config.kbsrAddr)) with hu
    have huc : u.config = s.config := by simp [hu]
    have hdist : m = (u.config.kbsrAddr - (s.config.kbsrAddr + 1)).toNat := by
      rw [huc, toNat_sub_self_succ]; omega
    have hf := readsOn_of_lt (w := w) (n := m) (a := s.config.kbsrAddr + 1) (s := u)
      (Nat.le_of_eq hdist)
    cases hq : s.environmentActs.input with
    | nil => exact absurd (State.kbPoll_read_kbsr_nil hm hq) h3
    | cons c rest =>
      have hwf : s.kbPoll.mem.wf := State.kbPoll_wf hm
      refine (State.pollsFind_succ s k).2 ⟨c, rest, hq, ?_, ?_⟩
      · rintro rfl
        have hlt : (s.config.kbdrAddr - (s.config.kbsrAddr + 1)).toNat < m := by
          have h5 := toNat_sub_succ (Ne.symm hne)
          have h6 := (s.config.kbdrAddr - s.config.kbsrAddr).isLt
          omega
        have h7 := h4.read hlt
        have hf' := readsOn_of_lt (w := w)
          (n := (s.config.kbdrAddr - (s.config.kbsrAddr + 1)).toNat)
          (a := s.config.kbsrAddr + 1) (s := u) (by omega)
        rw [addr_of_distance, State.pollAt_of_ne (by rw [hf'.2.2.2.2, huc]; exact Ne.symm hne),
          hf'.1] at h7
        exact h7 (State.kbPoll_read_kbdr_cons hm hq)
      · refine (State.pollsFind_congr hf.2.1 hf.2.2.1 hf.2.2.2.1 k).1 ?_ |> fun h8 => by
          exact (State.pollsFind_congr (s := s.kbPoll) (t := u) rfl rfl rfl k).1 h8
        refine ih (by rw [hf.1]; exact hwf) (by rw [hf.2.2.2.2, huc]; exact hne) ?_
        rw [hf.2.2.2.2, huc]; exact h2

/-- From any address: what the polls of all rounds but one find. -/
theorem Lives.pollsFind {w : Wait} {k : Nat} {a : Word} {s : State} (hm : s.mem.wf)
    (hne : s.config.kbsrAddr ≠ s.config.kbdrAddr) (h : Lives w (65536 * (k + 1)) a s) :
    s.PollsFind k := by
  have hd := (s.config.kbsrAddr - a).isLt
  have h1 : Lives w ((s.config.kbsrAddr - a).toNat + 65536 * k) a s :=
    h.le (by rw [Nat.mul_succ]; omega)
  have h2 := (Lives.add.1 h1).2
  rw [addr_of_distance] at h2
  have hf := readsOn_of_lt (w := w) (a := a) (s := s) (Nat.le_refl _)
  refine (State.pollsFind_congr hf.2.1 hf.2.2.1 hf.2.2.2.1 k).1 (Lives.pollsFind_kbsr
    (by rw [hf.1]; exact hm) (by rw [hf.2.2.2.2]; exact hne) (by rw [hf.2.2.2.2]; exact h2))

/-- What makes a service live for ever: no zero in the plain cells, polls that always find a character,
and none in KBDR if it is read before the next poll. -/
structure Undying (a : Word) (s : State) : Prop where
  memory : s.mem.wf
  ports  : s.config.kbsrAddr ≠ s.config.kbdrAddr
  cells  : ∀ z, z ≠ s.config.kbsrAddr → z ≠ s.config.kbdrAddr → s.mem.read z ≠ 0#16
  polls  : ∀ n, s.PollsFind n
  data   : (s.config.kbdrAddr - a).toNat < (s.config.kbsrAddr - a).toNat →
    s.mem.read s.config.kbdrAddr ≠ 0#16

theorem zext8_ne_zero (c : Byte) : c ≠ 0#8 → zext8 c ≠ 0#16 := by
  revert c; decide +kernel

theorem Undying.read {a : Word} {s : State} (h : Undying a s) :
    (s.pollAt a).mem.read a ≠ 0#16 ∧ Undying (a + 1) (s.pollAt a) := by
  by_cases ha : a = s.config.kbsrAddr
  · obtain ⟨c, rest, hq, hc, _⟩ := (State.pollsFind_succ s 0).1 (h.polls 1)
    rw [State.pollAt_kbsr ha]
    refine ⟨by rw [ha, State.kbPoll_read_kbsr_cons h.memory h.ports hq]; decide,
      State.kbPoll_wf h.memory, by simpa using h.ports, fun z hs hd => ?_, fun n => ?_,
      fun _ => ?_⟩
    · rw [State.kbPoll_config] at hs hd
      rw [State.kbPoll_read_of_ne hs hd]; exact h.cells z hs hd
    · obtain ⟨_, _, _, _, h4⟩ := (State.pollsFind_succ s n).1 (h.polls (n + 1))
      exact h4
    · rw [State.kbPoll_config, State.kbPoll_read_kbdr_cons h.memory hq]
      exact zext8_ne_zero c hc
  · rw [State.pollAt_of_ne ha]
    refine ⟨?_, h.memory, h.ports, h.cells, h.polls, fun hlt => ?_⟩
    · by_cases hd : a = s.config.kbdrAddr
      · rw [hd]
        refine h.data ?_
        have h0 : s.config.kbsrAddr ≠ a := Ne.symm ha
        have h1 := toNat_sub_succ h0
        rw [← hd, BitVec.sub_self]; exact Nat.lt_of_lt_of_eq (Nat.succ_pos _) h1
      · exact h.cells a ha hd
    · by_cases hd : s.config.kbdrAddr = a
      · rw [hd] at hlt
        have h2 := (s.config.kbsrAddr - (a + 1)).isLt
        rw [toNat_sub_self_succ] at hlt
        omega
      · have h1 := toNat_sub_succ (Ne.symm ha)
        have h2 := toNat_sub_succ hd
        exact h.data (by omega)

theorem Undying.emit {a : Word} {s : State} (h : Undying a s) (bs : List Byte) :
    Undying a (s.emit bs) :=
  ⟨h.memory, h.ports, h.cells, fun n => (State.pollsFind_congr rfl rfl rfl n).2 (h.polls n), h.data⟩

theorem Undying.lives {w : Wait} :
    ∀ {n : Nat} {a : Word} {s : State}, Undying a s → Lives w n a s := by
  intro n
  induction n with
  | zero => intros; trivial
  | succ n ih => intro a s h; exact ⟨h.read.1, ih (h.read.2.emit _)⟩

theorem Undying.readsOn {w : Wait} :
    ∀ {n : Nat} {a : Word} {s : State}, Undying a s →
      Undying (a + BitVec.ofNat 16 n) (readsOn w n a s) := by
  intro n
  induction n with
  | zero => intro a s h; simpa [Machine.readsOn] using h
  | succ n ih => intro a s h; rw [addr_succ]; exact ih (h.read.2.emit _)

/-- A service that lives through `State.stringReads` reads lives for ever. -/
theorem Lives.undying {w : Wait} {a : Word} {s : State} (hm : s.mem.wf)
    (hne : s.config.kbsrAddr ≠ s.config.kbdrAddr) (h : Lives w s.stringReads a s) : Undying a s := by
  refine ⟨hm, hne, fun z hs hd => h.cells s.stringReads_le hs hd,
    State.pollsFind_forever (Lives.pollsFind hm hne (s.stringReads_eq ▸ h)), fun hlt => ?_⟩
  have hf := readsOn_of_lt (w := w) (n := (s.config.kbdrAddr - a).toNat) (a := a) (s := s)
    (Nat.le_of_lt hlt)
  have h1 := h.read (k := (s.config.kbdrAddr - a).toNat)
    (Nat.lt_of_lt_of_le (s.config.kbdrAddr - a).isLt s.stringReads_le)
  rw [addr_of_distance, State.pollAt_of_ne (by rw [hf.2.2.2.2]; exact Ne.symm hne), hf.1] at h1
  exact h1

/-! ### A whole service -/

/-- Rule R114: a service that ends does so in this call, at its first read that answers zero; one that is
marked would live for ever. -/
theorem State.writeString_cases (w : Wait) {s : State} (hm : s.mem.wf)
    (hne : s.config.kbsrAddr ≠ s.config.kbdrAddr) :
    (∃ k, Lives w k (s.reg 0) s ∧
      ((readsOn w k (s.reg 0) s).memRead (s.reg 0 + BitVec.ofNat 16 k)).1 = 0#16 ∧
      s.writeString w = ((readsOn w k (s.reg 0) s).memRead (s.reg 0 + BitVec.ofNat 16 k)).2) ∨
    (Undying (s.reg 0) s ∧
      s.writeString w = (readsOn w s.stringReads (s.reg 0) s).setHold (some w)) := by
  rw [State.writeString_eq]
  by_cases h : Lives w s.stringReads (s.reg 0) s
  · exact .inr ⟨h.undying hm hne, stringLoop_of_lives h⟩
  · obtain ⟨k, _, h2, h3, h4⟩ := stringLoop_of_not_lives h
    exact .inl ⟨k, h2, h3, h4⟩

/-- After `stringReads` reads a service is at the address where it began. -/
theorem addr_stringReads (a : Word) (s : State) : a + BitVec.ofNat 16 s.stringReads = a := by
  have : BitVec.ofNat 16 s.stringReads = 0#16 := by
    apply BitVec.eq_of_toNat_eq
    simp [State.stringReads_eq, Nat.mul_mod_right]
  rw [this]; simp

/-! ### In the words of the claims -/

open Sys2Proof.Safety

/-- The two states hold the same memory, input queue and world. -/
def SameReads (s v : State) : Prop :=
  (∀ x, v.mem.read x = s.mem.read x) ∧ v.input = s.input ∧ WorldKept s v

/-- What a read gives is one thing only. -/
theorem readGives_unique {s v t u : State} {a x y : Word} (hs : ReadGives s a x t)
    (hv : ReadGives v a y u) (h : SameReads s v) : y = x ∧ SameReads t u := by
  obtain ⟨hm, hi, hw⟩ := h
  have he := environmentActs_of_world hi hw
  obtain ⟨w1, w2, w3, w4⟩ := hw
  obtain ⟨s1, s2, s3⟩ := hs
  obtain ⟨v1, v2, v3⟩ := hv
  rw [w4] at v1 v2 v3
  have world : ∀ {p q : State}, WorldKept p q → WorldKept p t → WorldKept q u → WorldKept t u := by
    rintro p q ⟨a1, a2, a3, a4⟩ ⟨b1, b2, b3, b4⟩ ⟨c1, c2, c3, c4⟩
    exact ⟨by rw [c1, a1, b1], by rw [c2, a2, b2], by rw [c3, a3, b3], by rw [c4, a4, b4]⟩
  by_cases ha : a = s.config.kbsrAddr
  · cases hq : s.environmentActs.input with
    | nil =>
      obtain ⟨a1, a2, a3, a4, a5⟩ := s2 ha hq
      obtain ⟨b1, b2, b3, b4, b5⟩ := v2 ha (he.1.trans hq)
      refine ⟨by rw [a1, b1], fun z => ?_, by rw [a4, b4], world he.2 a5 b5⟩
      by_cases hz : z = s.config.kbsrAddr
      · rw [hz, a2, b2]
      · rw [a3 z (by simpa using hz), b3 z (by simpa using hz), hm]
    | cons c rest =>
      obtain ⟨a1, a2, a3, a4, a5, a6⟩ := s3 ha c rest hq
      obtain ⟨b1, b2, b3, b4, b5, b6⟩ := v3 ha c rest (he.1.trans hq)
      refine ⟨by rw [a1, b1], fun z => ?_, by rw [a5, b5], world he.2 a6 b6⟩
      by_cases hz : z = s.config.kbsrAddr
      · rw [hz, a2, b2]
      · by_cases hd : z = s.config.kbdrAddr
        · rw [hd, a3, b3]
        · rw [a4 z (by simp [hz, hd]), b4 z (by simp [hz, hd]), hm]
  · obtain ⟨a1, a2, a3, a4⟩ := s1 ha
    obtain ⟨b1, b2, b3, b4⟩ := v1 ha
    exact ⟨by rw [a1, b1, hm], fun z => by rw [a2 z (by simp), b2 z (by simp), hm],
      by rw [a3, b3, hi], world ⟨w1, w2, w3, w4⟩ a4 b4⟩

/-- A service that lives for ever comes to no zero word. -/
theorem Undying.not_ends {ws : List Word} :
    ∀ {a : Word} {s v u : State}, Undying a s → SameReads s v → ¬ StringEnds ws a v u := by
  induction ws with
  | nil =>
    rintro a s v u h ⟨hm, hi, hw⟩ ⟨m, ⟨k1, k2, k3⟩, hr⟩
    have hg := memRead_readGives h.memory h.ports a
    have hsame : SameReads s m :=
      ⟨fun x => (k1 x (by simp)).trans (hm x), k2.trans hi, k3.1.trans hw.1, k3.2.1.trans hw.2.1,
        k3.2.2.1.trans hw.2.2.1, k3.2.2.2.trans hw.2.2.2⟩
    have hz := (readGives_unique hg (by simpa using hr) hsame).1
    exact h.read.1 hz.symm
  | cons w ws ih =>
    rintro a s v u h hs ⟨m, ⟨hw, k, hr, hws⟩, hend⟩
    have hg := memRead_readGives h.memory h.ports a
    obtain ⟨_, hs'⟩ := readGives_unique hg hr hs
    refine ih (u := u) h.read.2 hs' ⟨m, hws, ?_⟩
    rw [List.length_cons, addr_succ] at hend
    exact hend

/-- The words that a service reads while it lives, and what it writes of them. -/
theorem Lives.words {w : Wait} :
    ∀ {n : Nat} {a : Word} {s : State}, s.mem.wf → s.config.kbsrAddr ≠ s.config.kbdrAddr →
      Lives w n a s → ∃ ws, ws.length = n ∧ StringWords ws a s (readsOn w n a s) ∧
        (readsOn w n a s).output = s.output ++ ws.flatMap w.chars := by
  intro n
  induction n with
  | zero =>
    intro a s _ _ _
    exact ⟨[], rfl, ⟨fun _ _ => rfl, rfl, rfl, rfl, rfl, rfl⟩, by simp [readsOn]⟩
  | succ n ih =>
    intro a s hm hne h
    obtain ⟨ws, h1, h2, h3⟩ := ih (s := (s.pollAt a).emit (w.chars ((s.pollAt a).mem.read a)))
      (State.pollAt_wf hm a) (by simpa using hne) h.2
    refine ⟨(s.pollAt a).mem.read a :: ws, by simp [h1],
      ⟨h.1, _, ReadGives_congr (memRead_readGives hm hne a) rfl rfl ⟨rfl, rfl, rfl, rfl⟩
        (t' := (s.pollAt a).emit (w.chars ((s.pollAt a).mem.read a))) rfl rfl
        ⟨rfl, rfl, rfl, rfl⟩, h2⟩, ?_⟩
    rw [readsOn, h3]
    simp

/-- A service lives for ever exactly if it comes to no zero word. -/
theorem undying_iff_neverEnds {s : State} (hm : s.mem.wf)
    (hne : s.config.kbsrAddr ≠ s.config.kbdrAddr) : Undying (s.reg 0) s ↔ NeverEnds s := by
  refine ⟨fun h ws t => h.not_ends ⟨fun _ => rfl, rfl, rfl, rfl, rfl, rfl⟩, fun h => ?_⟩
  rcases State.writeString_cases .puts hm hne with ⟨k, h1, h2, _⟩ | ⟨h1, _⟩
  · obtain ⟨ws, h4, h5, _⟩ := h1.words hm hne
    have hf : (readsOn .puts k (s.reg 0) s).mem.wf ∧
        (readsOn .puts k (s.reg 0) s).config = s.config :=
      readsOn_keeps (P := fun u => u.mem.wf ∧ u.config = s.config)
        (fun u b hu => ⟨State.pollAt_wf hu.1 b, by simpa using hu.2⟩) (fun _ _ hu => hu) _ _ _
        ⟨hm, rfl⟩
    have hg := memRead_readGives hf.1 (by rw [hf.2]; exact hne) (s.reg 0 + BitVec.ofNat 16 k)
    rw [h2, ← h4] at hg
    exact absurd ⟨_, h4 ▸ h5, hg⟩ (h ws _)
  · exact h1

end Sys2Proof.Machine
end

