-- ==== Sys2Proof/Tests/Slice0.lean ====
section
/-! SUPPORT. Tests: what the well-formedness checks refuse, one word of each instruction form written out
from rule R86, one step of each instruction on values taken from 95_test_vectors.md, and for each
obligation a state and operands that meet its hypotheses. -/

namespace Sys2Proof.Tests

open Sys2Proof Sys2Proof.Machine Sys2Proof.Safety Sys2Proof.Statements

/-! ### Well-formedness -/

/-- 0x25 is a recognised vector, so no `trapUnknown` carries it (rule R161). -/
theorem test_wf_refuses_recognised_vector :
    Instr.wf Encoding.published (.trapUnknown 0xF025#16) = false := by decide

/-- A fault form carries a word of its own opcode (rules R180, R181). -/
theorem test_wf_refuses_other_opcodes :
    Instr.wf Encoding.published (.trapUnknown 0x0000#16) = false ∧
    Instr.wf Encoding.published (.rti 0xD000#16) = false ∧
    Instr.wf Encoding.published (.res 0x8000#16) = false := by decide

theorem test_wf_accepts_the_edges :
    Instr.wf Encoding.published (.trapUnknown 0xF01F#16) = true ∧
    Instr.wf Encoding.published (.trapUnknown 0xFF26#16) = true ∧
    Instr.wf Encoding.published (.rti 0x8FFF#16) = true ∧
    Instr.wf Encoding.published (.res 0xD000#16) = true := by decide

/-- A table that gives BR two numbers gives RES none. -/
theorem test_encoding_refuses_missing_opcode :
    Encoding.wf { Encoding.published with opcodes := Encoding.published.opcodes.set 13 .br } =
      false := by decide

/-- SR2 on top of the immediate flag. -/
theorem test_encoding_refuses_overlap :
    Encoding.wf { Encoding.published with sr2 := 3 } = false := by decide

/-- A field that reaches into the opcode. -/
theorem test_encoding_refuses_high_field :
    Encoding.wf { Encoding.published with dr := 10 } = false := by decide

/-- The two keyboard addresses are distinct (rule R7). -/
theorem test_config_refuses_one_keyboard_address :
    Config.wf { Config.default with kbdrAddr := 0xFE00#16 } = false ∧
    Config.wf { Config.default with encoding := { Encoding.published with dr := 10 } } = false := by
  decide

theorem test_config_accepts_default : Config.wf Config.default = true := by decide

/-- Memory that is out of order, that lists a zero, or that lists an address above 65535. -/
theorem test_memory_form_refuses :
    ¬ Memory.wf [(2, 1#16), (1, 1#16)] ∧ ¬ Memory.wf [(1, 0#16)] ∧ ¬ Memory.wf [(65536, 1#16)] := by
  decide

/-- Storing what an unlisted address reads as removes the entry. -/
theorem test_memory_write_zero_removes :
    Memory.write (Memory.write [] 5 7) 5 0 = [] := by decide

/-! ### Decoding: words written out from rule R86 -/

theorem test_decode_operate :
    Encoding.published.decode 0b0001_000_001_0_00_010#16 = .addReg 0 1 2 ∧
    Encoding.published.decode 0b0001_000_001_1_11111#16 = .addImm 0 1 0b11111#5 ∧
    Encoding.published.decode 0b0101_010_011_0_00_100#16 = .andReg 2 3 4 ∧
    Encoding.published.decode 0b0101_001_111_1_10000#16 = .andImm 1 7 0b10000#5 ∧
    Encoding.published.decode 0b1001_101_100_111111#16 = .not 5 4 := by decide

theorem test_decode_control :
    Encoding.published.decode 0b0000_0_1_0_000000011#16 = .br false true false 3 ∧
    Encoding.published.decode 0b0000_1_0_0_111111111#16 = .br true false false 0b111111111#9 ∧
    Encoding.published.decode 0b1100_000_010_000000#16 = .jmp 2 ∧
    Encoding.published.decode 0b0100_1_10000000000#16 = .jsr 0b10000000000#11 ∧
    Encoding.published.decode 0b0100_0_00_011_000000#16 = .jsrr 3 := by decide

theorem test_decode_load :
    Encoding.published.decode 0b0010_110_000000100#16 = .ld 6 4 ∧
    Encoding.published.decode 0b1010_110_000000111#16 = .ldi 6 7 ∧
    Encoding.published.decode 0b0110_011_001_100000#16 = .ldr 3 1 0b100000#6 ∧
    Encoding.published.decode 0b1110_001_100000000#16 = .lea 1 0b100000000#9 := by decide

theorem test_decode_store :
    Encoding.published.decode 0b0011_101_000000111#16 = .st 5 7 ∧
    Encoding.published.decode 0b1011_110_000000111#16 = .sti 6 7 ∧
    Encoding.published.decode 0b0111_100_001_000010#16 = .str 4 1 2 := by decide

theorem test_decode_trap :
    Encoding.published.decode 0b1111_0000_0010_0000#16 = .trapGetc ∧
    Encoding.published.decode 0b1111_0000_0010_0001#16 = .trapOut ∧
    Encoding.published.decode 0b1111_0000_0010_0010#16 = .trapPuts ∧
    Encoding.published.decode 0b1111_0000_0010_0011#16 = .trapIn ∧
    Encoding.published.decode 0b1111_0000_0010_0100#16 = .trapPutsp ∧
    Encoding.published.decode 0b1111_0000_0010_0101#16 = .trapHalt ∧
    Encoding.published.decode 0b1111_0000_0010_0110#16 = .trapUnknown 0xF026#16 := by decide

theorem test_decode_reserved :
    Encoding.published.decode 0b1000_000000000000#16 = .rti 0x8000#16 ∧
    Encoding.published.decode 0b1101_111111111111#16 = .res 0xDFFF#16 := by decide

/-- Vectors E14, E16, E17, E18, E19: ignored bits (rule R88). -/
theorem test_decode_ignores_bits :
    Encoding.published.decode 0x1019#16 = .addReg 0 0 1 ∧
    Encoding.published.decode 0x9000#16 = .not 0 0 ∧
    Encoding.published.decode 0xCFFF#16 = .jmp 7 ∧
    Encoding.published.decode 0x47FF#16 = .jsrr 7 ∧
    Encoding.published.decode 0xFF25#16 = .trapHalt ∧
    Encoding.published.canonical 0x1019#16 = false ∧
    Encoding.published.canonical 0x1001#16 = true := by decide

/-- Rules R86, R168, R180, R181: the ignored bits of the three faulting forms. -/
theorem test_canonical_faulting_words :
    Encoding.published.canonical 0x8000#16 = true ∧
    Encoding.published.canonical 0x8ABC#16 = false ∧
    Encoding.published.canonical 0xD000#16 = true ∧
    Encoding.published.canonical 0xDFFF#16 = false ∧
    Encoding.published.canonical 0xF026#16 = true ∧
    Encoding.published.canonical 0xF126#16 = false := by decide

/-- Words of 95_test_vectors.md, from the instruction to the word. -/
theorem test_encode_words :
    Encoding.published.encode (.addReg 0 1 2) = 0x1042#16 ∧
    Encoding.published.encode (.not 5 4) = 0x9B3F#16 ∧
    Encoding.published.encode asmRet = 0xC1C0#16 ∧
    Encoding.published.encode (.br false false true 0x1FD#9) = 0x03FD#16 ∧
    Encoding.published.encode (.jsr 0x400#11) = 0x4C00#16 ∧
    Encoding.published.encode (.str 4 1 2) = 0x7842#16 ∧
    Encoding.published.encode .trapPutsp = 0xF024#16 := by decide

/-- The host's view of a table word. -/
theorem test_decodeTableWord :
    decodeTableWord 16 0xBC07 = some (.sti 6 7) ∧ decodeTableWord 16 0 = some asmNop := by decide

/-! ### Steps -/

/-- A word at an address, and PC there. -/
def startAt (pc w : Word) : State := (State.reset.setPc pc).withFetchWord 16 w.toNat

/-- A word at 0x3000, after reset. -/
def start (w : Word) : State := startAt 0x3000#16 w

/-- What one step leaves, seen through `f`. -/
def after {α : Type} (s : State) (f : State → α) : Option α :=
  match step s with
  | .next t => some (f t)
  | .fault _ => none
  | .refused _ => none

/-- A1. -/
theorem test_addReg_wraps_to_negative :
    after (((start 0x1042).setReg 1 0x7FFF).setReg 2 1) (fun t => (t.reg 0, t.cond, t.pc)) =
      some (0x8000, .negative, 0x3001) := by decide

/-- A4. -/
theorem test_addReg_reads_before_it_writes :
    after ((start 0x1241).setReg 1 0x1234) (fun t => (t.reg 1, t.cond)) =
      some (0x2468, .positive) := by decide

/-- S4, A5. -/
theorem test_addImm_adds_minus_one :
    after ((start 0x107F).setReg 1 5) (fun t => (t.reg 0, t.cond)) = some (4, .positive) := by decide

/-- A7. -/
theorem test_addImm_wraps_to_zero :
    after (((start 0x102F).setReg 0 0xFFF1).setCond .negative) (fun t => (t.reg 0, t.cond)) =
      some (0, .zero) := by decide

/-- A9. -/
theorem test_andReg_masks :
    after (((start 0x54C4).setReg 3 0xF0F0).setReg 4 0x8888) (fun t => (t.reg 2, t.cond)) =
      some (0x8080, .negative) := by decide

/-- A12. -/
theorem test_andImm_sign_extends :
    after ((start 0x5270).setReg 1 0xABCD) (fun t => (t.reg 1, t.cond)) =
      some (0xABC0, .negative) := by decide

/-- A13. -/
theorem test_andImm_clears_high_bits :
    after ((start 0x526F).setReg 1 0xABCD) (fun t => (t.reg 1, t.cond)) =
      some (0x000D, .positive) := by decide

/-- A14. -/
theorem test_not_complements :
    after ((start 0x9B3F).setReg 4 0x0234) (fun t => (t.reg 5, t.cond)) =
      some (0xFDCB, .negative) := by decide

/-- A17. -/
theorem test_not_ignores_low_bits :
    after ((start 0x9000).setReg 0 0x8000) (fun t => (t.reg 0, t.cond)) =
      some (0x7FFF, .positive) := by decide

/-- S8, B1, B2. -/
theorem test_br_zero_and_negative :
    after (start 0x0403) State.pc = some 0x3004 ∧ after (start 0x0803) State.pc = some 0x3001 := by
  decide

/-- B6, B8. -/
theorem test_br_backwards_and_wrapping :
    after ((startAt 0x3005 0x03FD).setCond .positive) State.pc = some 0x3003 ∧
    after (startAt 0xFFFF 0x0EFF) State.pc = some 0x00FF := by decide

/-- B9, B11. -/
theorem test_jmp :
    after ((start 0xC080).setReg 2 0x4000) State.pc = some 0x4000 ∧
    after ((start 0xCFFF).setReg 7 0x1234) (fun t => (t.pc, t.reg 7)) = some (0x1234, 0x1234) := by
  decide

/-- B12, B14. -/
theorem test_jsr :
    after (startAt 0x3001 0x4803) (fun t => (t.reg 7, t.pc)) = some (0x3002, 0x3005) ∧
    after (start 0x4C00) (fun t => (t.reg 7, t.pc)) = some (0x3001, 0x2C01) := by decide

/-- B16. -/
theorem test_jsrr :
    after ((startAt 0x3003 0x40C0).setReg 3 0x3005) (fun t => (t.reg 7, t.pc)) =
      some (0x3004, 0x3005) := by decide

/-- B17. -/
theorem test_jsrr_through_r7_falls_through :
    after ((startAt 0x3003 0x41C0).setReg 7 0x5000) (fun t => (t.reg 7, t.pc)) =
      some (0x3004, 0x3004) := by decide

/-- M1. -/
theorem test_ld :
    after ((startAt 0x3009 0x2004).memWrite 0x300E 0xFDCB) (fun t => (t.reg 0, t.cond)) =
      some (0xFDCB, .negative) := by decide

/-- M2. -/
theorem test_ld_own_word :
    after (start 0x21FF) (fun t => (t.reg 0, t.cond)) = some (0x21FF, .positive) := by decide

/-- S6, M4. -/
theorem test_ldi :
    after (((startAt 0x3007 0xAC07).memWrite 0x300F 0x300C).memWrite 0x300C 0xF000)
      (fun t => (t.reg 6, t.cond, t.pc)) = some (0xF000, .negative, 0x3008) := by decide

/-- K1. -/
theorem test_ldi_polls_the_keyboard :
    after (((start 0xA001).memWrite 0x3002 0xFE00).setInput [0x61, 0x62])
      (fun t => (t.reg 0, t.mem.read 0xFE00, t.mem.read 0xFE02, t.input)) =
      some (0x8000, 0x8000, 0x0061, [0x62]) := by decide

/-- Rule R236: with KBSR at address 0, `LDI R0, #0` at 0xFFFF polls twice; a character that arrives
between the polls is seen by the second only, one that arrives before the first is taken by it. -/
theorem test_ldi_arrival_between_polls :
    let s := { startAt 0xFFFF 0xA000 with config := { Config.default with kbsrAddr := 0 } }
    after { s with environment := [⟨[], false⟩, ⟨[], false⟩, ⟨[0x61], false⟩] }
      (fun t => (t.reg 0, t.mem.read 0xFE02)) = some (0x8000, 0x0061) ∧
    after { s with environment := [⟨[], false⟩, ⟨[0x61], false⟩] }
      (fun t => (t.reg 0, t.mem.read 0xFE02)) = some (0, 0x0061) := by decide

/-- M6. -/
theorem test_ldr_wraps :
    after ((start 0x627F).memWrite 0xFFFF 0x0042) (fun t => (t.reg 1, t.cond)) =
      some (0x0042, .positive) := by decide

/-- K5. -/
theorem test_ldr_polls_the_keyboard :
    after ((((start 0x6040).setReg 1 0xFE00).memWrite 0xFE00 0x7FFF).setInput [0x41])
      (fun t => (t.reg 0, t.mem.read 0xFE00, t.mem.read 0xFE02, t.input)) =
      some (0x8000, 0x8000, 0x0041, []) := by decide

/-- M10. -/
theorem test_lea_wraps_to_zero :
    after ((startAt 0xFFFF 0xE000).setReg 0 5) (fun t => (t.reg 0, t.cond, t.pc)) =
      some (0, .zero, 0) := by decide

/-- K9. -/
theorem test_lea_reads_no_memory :
    after ((startAt 0xFD00 0xE0FF).setInput [0x6B])
      (fun t => (t.reg 0, t.cond, t.input, t.mem.read 0xFE00)) =
      some (0xFE00, .negative, [0x6B], 0) := by decide

/-- M12. -/
theorem test_st :
    after ((startAt 0x3006 0x3A07).setReg 5 0xFDCB) (fun t => (t.mem.read 0x300E, t.cond)) =
      some (0xFDCB, .zero) := by decide

/-- M14. -/
theorem test_sti :
    after (((startAt 0x3008 0xBC07).setReg 6 0xF000).memWrite 0x3010 0x3011)
      (fun t => (t.mem.read 0x3011, t.mem.read 0x3010)) = some (0xF000, 0x3011) := by decide

/-- K4. -/
theorem test_sti_to_kbsr_does_not_poll :
    after ((((start 0xB001).setReg 0 0x1234).memWrite 0x3002 0xFE00).setInput [0x71])
      (fun t => (t.mem.read 0xFE00, t.mem.read 0xFE02, t.input)) = some (0x1234, 0, [0x71]) := by
  decide

/-- M16. -/
theorem test_str_own_base :
    after ((start 0x7240).setReg 1 0x4000) (fun t => (t.mem.read 0x4000, t.reg 1)) =
      some (0x4000, 0x4000) := by decide

/-- M17. -/
theorem test_str_wraps :
    after (((start 0x7060).setReg 0 0xAAAA).setReg 1 0x0010) (fun t => t.mem.read 0xFFF0) =
      some 0xAAAA := by decide

/-- T2. -/
theorem test_getc_takes_a_zero_character :
    after ((start 0xF020).setInput [0x00, 0x42]) (fun t => (t.reg 0, t.cond, t.reg 7, t.input)) =
      some (0, .zero, 0x3001, [0x42]) := by decide

/-- T15: R7 and PC are written, the step waits, and nothing more changes. -/
theorem test_getc_waits :
    after ((start 0xF020).setReg 0 7) (fun t => (t.reg 0, t.reg 7, t.pc, t.hold, t.run)) =
      some (7, 0x3001, 0x3001, some .getc, .running) := by decide

/-- T3, T4. -/
theorem test_out :
    after ((start 0xF021).setReg 0 0x1248) (fun t => (t.output, t.reg 7, t.reg 0)) =
      some ([0x48], 0x3001, 0x1248) ∧
    after ((start 0xF021).setReg 0 0xFF00) State.output = some [0x00] := by decide

/-- T7. -/
theorem test_puts_wraps :
    after ((((start 0xF022).setReg 0 0xFFFF).memWrite 0xFFFF 0x0041).memWrite 0x0000 0x0042)
      (fun t => (t.output, t.reg 7, t.reg 0)) = some ([0x41, 0x42], 0x3001, 0xFFFF) := by decide

/-- T7b. -/
theorem test_puts_low_bytes_only :
    after ((((start 0xF022).setReg 0 0x4000).memWrite 0x4000 0x0100).memWrite 0x4001 0x1241)
      State.output = some [0x00, 0x41] := by decide

/-- Rules R169, R201: a PUTS that is held goes on from R0, whatever the stop request, and ends at the
first zero word it meets. -/
theorem test_puts_goes_on :
    after { (((State.reset.setReg 0 0x4000).memWrite 0x4000 0x0041).setHold (some .puts)) with
        stopReq := true }
      (fun t => (t.output, t.reg 0, t.hold, t.run)) = some ([0x41], 0x4000, none, .running) := by
  decide

/-- An endless source: the event after the last of `environment` is the first of `recurring`, and so
on again (rule R236). -/
theorem test_endless_source :
    let s := { State.reset with environment := [⟨[0x41], false⟩], recurring := [⟨[0x42], false⟩] }
    s.environmentActs.environmentActs.environmentActs.input = [0x41, 0x42, 0x42] := by decide

/-- T10. -/
theorem test_in_prompts_and_echoes :
    after ((start 0xF023).setInput [0x79]) (fun t => (t.output, t.reg 0, t.cond, t.reg 7)) =
      some (Config.default.inPrompt ++ [0x79], 0x0079, .positive, 0x3001) := by decide

/-- Rule R116: the prompt is written before the wait. -/
theorem test_in_waits_after_the_prompt :
    after (start 0xF023) (fun t => (t.output, t.reg 0, t.hold)) =
      some (Config.default.inPrompt, 0, some .inService) := by decide

/-- T8. -/
theorem test_putsp :
    after ((((start 0xF024).setReg 0 0x4000).memWrite 0x4000 0x6548).memWrite 0x4001 0x006C)
      State.output = some [0x48, 0x65, 0x6C] := by decide

/-- T9. -/
theorem test_putsp_skips_a_zero_low_byte :
    after ((((start 0xF024).setReg 0 0x4000).memWrite 0x4000 0x4100).memWrite 0x4001 0x4342)
      State.output = some [0x41, 0x42, 0x43] := by decide

/-- S7, T12. -/
theorem test_halt :
    after ((startAt 0x4000 0xFF25).setReg 7 9) (fun t => (t.run, t.reg 7, t.pc, t.output)) =
      some (.halted, 0x4001, 0x4001, [0x48, 0x41, 0x4C, 0x54, 0x0A]) := by decide

/-- T13. -/
theorem test_unknown_vector :
    after (start 0xF000) (fun t => (t.status, t.reg 7, t.pc)) =
      some ((.faulted, some ⟨.illegalTrapVector, 0xF000, 0x3000⟩), 0x3001, 0x3001) := by decide

/-- F4. -/
theorem test_rti :
    after (((start 0x8ABC).setReg 7 3).setCond .negative) (fun t => (t.status, t.reg 7, t.cond)) =
      some ((.faulted, some ⟨.illegalOpcode, 0x8ABC, 0x3000⟩), 3, .negative) := by decide

/-- F3. -/
theorem test_res :
    after (startAt 0xFFFF 0xDFFF) (fun t => (t.status, t.pc)) =
      some ((.faulted, some ⟨.illegalOpcode, 0xDFFF, 0xFFFF⟩), 0) := by decide

/-- X1, X2: the stop request is seen before the fetch. -/
theorem test_stop_request_wins :
    after { start 0xD000 with stopReq := true } (fun t => (t.status, t.pc)) =
      some ((.stopped, none), 0x3000) ∧
    after { start 0xF025 with environment := [⟨[], true⟩] } (fun t => (t.run, t.output)) =
      some (.stopped, []) := by decide

/-- K8. -/
theorem test_fetch_from_kbsr :
    after ((startAt 0xFE00 0x1234).setInput [0x78])
      (fun t => (t.status, t.mem.read 0xFE02, t.pc)) =
      some ((.faulted, some ⟨.illegalOpcode, 0x8000, 0xFE00⟩), 0x0078, 0xFE01) := by decide

/-- The loader's vectors L2 to L4 and L6. -/
theorem test_loader :
    (boot Config.default [[0x30, 0x00, 0xF0, 0x25, 0x12]]).map State.mem =
      some [(0x3000, 0xF025)] ∧
    (boot Config.default [[0xFF, 0xFF, 0x11, 0x11, 0x22, 0x22]]).map State.mem =
      some [(0xFFFF, 0x1111)] ∧
    (boot Config.default [[0x30, 0x00, 0xAA, 0xAA, 0xBB, 0xBB], [0x30, 0x01, 0xCC, 0xCC]]).map
      State.mem = some [(0x3000, 0xAAAA), (0x3001, 0xCCCC)] ∧
    boot Config.default [[0x30]] = none := by decide

/-- S1, E3, E6, E9, E11. -/
theorem test_sign_extension :
    sext 0x1F#5 = 0xFFFF ∧ sext 0x10#5 = 0xFFF0 ∧ sext 0x20#6 = 0xFFE0 ∧ sext 0x1F#6 = 0x001F ∧
    sext 0x100#9 = 0xFF00 ∧ sext 0x3FF#11 = 0x03FF ∧ sext 0x400#11 = 0xFC00 := by decide

/-- The low bits of a difference that does not fit (notes/assumptions/16.md). -/
theorem test_labelOffset_truncates : labelOffset 9 0x3000 0x3101 = 0x100#9 := by decide

/-- The image bytes and the label offset of program P1: `BRp x3003` at 0x3005. -/
theorem test_assembly :
    labelOffset 9 0x3005 0x3003 = 0x1FD#9 ∧
    (assemble Encoding.published 0x3000 [.instr (.andImm 0 0 0), .stringz [0x48]]).bytes =
      [0x30, 0x00, 0x50, 0x20, 0x00, 0x48, 0x00, 0x00] := by decide

/-! ### Witnesses: states and operands that meet the hypotheses of the obligations -/

/-- One character is pending. -/
def pending : State := State.reset.setInput [0x41]

/-- Two characters are pending. -/
def pendingTwo : State := State.reset.setInput [0x41, 0x42]

/-- A GETC at 0x3000 waits. -/
def heldGetc : State := ((State.reset.setPc 0x3001).link).setHold (some .getc)

/-- An IN at 0x3000 waits; its prompt is written. -/
def heldIn : State :=
  ((((State.reset.setPc 0x3001).link).emit Config.default.inPrompt)).setHold (some .inService)

/-- `heldGetc` under reading (b) of rule R201, with the stop request up. -/
def heldStopped : State :=
  { heldGetc with config := { Config.default with stopEndsWait := true }, stopReq := true }

/-- Rules R116 and R201: an arriving character ends the wait, a stop request raised with it does not. -/
theorem test_held_in_goes_on :
    after { heldIn with environment := [⟨[0x79], true⟩] }
      (fun t => (t.output, t.reg 0, t.hold, t.pc, t.run)) =
      some (Config.default.inPrompt ++ [0x79], 0x0079, none, 0x3001, .running) := by decide

theorem witness_LdLoadsPcRelative : Sound State.reset ∧ Sound pending := by
  exact ⟨⟨by decide, by decide⟩, by decide, by decide⟩

/-- The pointer cell is plain, and it is KBSR with a character pending. -/
theorem witness_LdiLoadsThroughPointer :
    Sound (State.reset.memWrite 0x3000 0x4000) ∧ Sound (pending.setPc 0xFE00) :=
  ⟨⟨by decide, by decide⟩, by decide, by decide⟩

theorem witness_LdrLoadsBaseOffset : Sound (pending.setReg 1 0xFE00) := ⟨by decide, by decide⟩

theorem witness_StStoresPcRelative : State.reset.mem.wf := by decide

theorem witness_StiStoresThroughPointer :
    Sound (State.reset.memWrite 0x3000 0x4000) ∧ Sound (pending.setPc 0xFE00) :=
  ⟨⟨by decide, by decide⟩, by decide, by decide⟩

theorem witness_StrStoresBaseOffset : (State.reset.setReg 1 0xFFFF).mem.wf := by decide

theorem witness_GetcTakesOldestCharacter :
    pendingTwo.input = 0x41 :: [0x42] ∧ State.reset.input = [] := by decide

theorem witness_InPromptsReadsAndEchoes :
    pendingTwo.input = 0x41 :: [0x42] ∧ State.reset.input = [] := by decide

theorem witness_PutsWritesUntilZeroWord :
    Sound ((State.reset.setReg 0 0x4000).memWrite 0x4000 0x0041) ∧
    Sound (pending.setReg 0 0xFE00) := ⟨⟨by decide, by decide⟩, by decide, by decide⟩

theorem witness_PutspWritesNonZeroBytes :
    Sound ((State.reset.setReg 0 0xFFFF).memWrite 0xFFFF 0x4100) := ⟨by decide, by decide⟩

theorem witness_UnknownVectorFaults :
    ¬ (0x20 ≤ (0x1F#8).toNat ∧ (0x1F#8).toNat ≤ 0x25) ∧
    ¬ (0x20 ≤ (0x26#8).toNat ∧ (0x26#8).toNat ≤ 0x25) := by decide

theorem witness_StepRunsDecodedInstruction :
    Fetches (start 0x1042) ∧
    (start 0x1042).config.encoding.decode ((start 0x1042).environmentActs.memRead 0x3000).1 =
      .addReg 0 1 2 := ⟨⟨by decide, by decide, by decide⟩, by decide⟩

theorem witness_TerminalStatesAreFrozen :
    (State.reset.setRun .halted).run ≠ .running ∧ (State.reset.setRun .faulted).run ≠ .running ∧
    (State.reset.setRun .stopped).run ≠ .running := by decide

/-- The request is up already, and it is raised just before the step. -/
theorem witness_StopRequestStopsBeforeFetch :
    (({ State.reset with stopReq := true } : State).run = .running ∧
      ({ State.reset with stopReq := true } : State).hold = none ∧
      ({ State.reset with stopReq := true } : State).environmentActs.stopReq = true) ∧
    (({ State.reset with environment := [⟨[0x41], true⟩] } : State).run = .running ∧
      ({ State.reset with environment := [⟨[0x41], true⟩] } : State).hold = none ∧
      ({ State.reset with environment := [⟨[0x41], true⟩] } : State).environmentActs.stopReq =
        true) := by decide

/-- A character arrives, with and without the stop request; none does, under both readings. -/
theorem witness_WaitingStepIsHeldUntilInput :
    (heldIn.run = .running ∧ heldIn.hold = some .inService ∧
      ({ heldIn with environment := [⟨[0x41], false⟩] } : State).environmentActs.input = [0x41]) ∧
    ({ heldStopped with environment := [⟨[0x41], true⟩] } : State).environmentActs.input = [0x41] ∧
    (heldStopped.run = .running ∧ heldStopped.hold = some .getc ∧
      heldStopped.environmentActs.input = [] ∧ heldStopped.config.stopEndsWait = true ∧
      heldStopped.environmentActs.stopReq = true) ∧
    (heldGetc.environmentActs.input = [] ∧
      ¬ (heldGetc.config.stopEndsWait = true ∧ heldGetc.environmentActs.stopReq = true)) := by
  decide

/-- The first `n` words of memory are 1, and the source delivers an `A` at every look. -/
def endless (n : Nat) : State :=
  { State.reset with
    mem := (List.range n).map (fun k => (k, 1#16)), recurring := [⟨[0x41], false⟩] }

theorem endless_wf {n : Nat} (hn : n = 65536) : (endless n).mem.wf := by
  refine ⟨List.pairwise_map.2 List.pairwise_lt_range, fun c hc => ?_⟩
  obtain ⟨k, hk, rfl⟩ := List.mem_map.1 hc
  exact ⟨hn ▸ List.mem_range.1 hk, show (1#16 : Word) ≠ 0#16 by decide⟩

theorem endless_read {n : Nat} (hn : n = 65536) (a : Word) : (endless n).mem.read a = 1#16 :=
  lookupCell_mem (endless_wf hn) (c := (a.toNat, 1#16))
    (List.mem_map.2 ⟨a.toNat, List.mem_range.2 (hn ▸ a.isLt), rfl⟩)

theorem endless_neverZero {n : Nat} (hn : n = 65536) : NeverZero (endless n) := by
  refine ⟨⟨endless_wf hn, show Config.default.kbsrAddr ≠ Config.default.kbdrAddr by decide⟩,
    fun a _ => by rw [endless_read hn]; decide, fun c hc => absurd hc List.not_mem_nil,
    List.cons_ne_nil _ _, fun e he => ?_⟩
  obtain rfl := List.mem_singleton.1 (show e ∈ [(⟨[0x41], false⟩ : EnvEvent)] from he)
  decide

theorem endless_polls (n k : Nat) : (endless n).PollsFind k := by
  show Flows [] (comingEvents [⟨[0x41], false⟩] k [])
  induction k with
  | zero => trivial
  | succ k ih => exact ⟨0x41, [], rfl, by decide, ih⟩

/-- The PUTS or PUTSP at 0x3000 over that memory, held. -/
def heldString (n : Nat) (w : Wait) : State := (((endless n).setPc 0x3001).link).setHold (some w)

theorem heldString_meets {n : Nat} (hn : n = 65536) (w : Wait) :
    Sound (heldString n w) ∧ NeverEnds (heldString n w) ∧ (heldString n w).run = .running ∧
      (heldString n w).reg 7 = (heldString n w).pc ∧ (heldString n w).hold = some w := by
  have hs : Sound (heldString n w) := (endless_neverZero hn).1
  have hu : Undying ((heldString n w).reg 0) (heldString n w) :=
    ⟨hs.1, hs.2, fun z _ _ => by rw [show (heldString n w).mem.read z = 1#16 from endless_read hn z]; decide,
      endless_polls n, fun _ => by
        rw [show (heldString n w).mem.read _ = 1#16 from endless_read hn _]; decide⟩
  exact ⟨hs, (undying_iff_neverEnds hs.1 hs.2).1 hu, rfl, rfl, rfl⟩

/-- A state that never reads zero, one in which a service is to begin, and one in which it is held. -/
theorem witness_UnterminatedStringGoesOnForEver :
    NeverZero (endless 65536) ∧ (Sound (endless 65536) ∧ (endless 65536).hold = none) ∧
    ∀ w, Sound (heldString 65536 w) ∧ NeverEnds (heldString 65536 w) ∧
      (heldString 65536 w).run = .running ∧
      (heldString 65536 w).reg 7 = (heldString 65536 w).pc ∧
      (heldString 65536 w).hold = some w :=
  ⟨endless_neverZero rfl, ⟨(endless_neverZero rfl).1, rfl⟩, heldString_meets rfl⟩

/-- A held PUTS that never ends meets the invariant. -/
theorem heldString_inv {n : Nat} (hn : n = 65536) : Inv (heldString n .puts) := by
  obtain ⟨h1, h2, h3, h4, _⟩ := heldString_meets hn .puts
  exact ⟨h1.1, show Config.default.wf = true by decide, show State.reset.run ≠ .faulted by decide,
    ⟨h3, h4, h2⟩, fun h => absurd (h3.symm.trans h) (by decide),
    fun h => absurd (h3.symm.trans h) (by decide)⟩

/-- The same memory with one character to come: the first round of reads meets no zero word, and the
second poll ends the service. -/
def fedOnce (n : Nat) : State := { endless n with input := [0x41], recurring := [] }

theorem fedOnce_ends {n : Nat} (hn : n = 65536) :
    ∃ t, exec .trapPuts (fedOnce n) = .next t ∧ t.hold = none := by
  refine ⟨_, rfl, ?_⟩
  rcases State.writeString_cases .puts (s := (fedOnce n).link) (endless_wf hn)
    (show Config.default.kbsrAddr ≠ Config.default.kbdrAddr by decide) with ⟨k, _, _, h⟩ | ⟨h, _⟩
  · rw [h, State.memRead_snd, State.pollAt_hold]
    exact readsOn_keeps (P := fun u => u.hold = none) (fun u a hu => by simpa using hu)
      (fun _ _ hu => hu) _ _ _ rfl
  · obtain ⟨_, _, h1, _, c, rest, h2, _⟩ := h.polls 2
    cases h1; cases h2

/-- Rule R114: a service that ends in a later round is one step. -/
theorem test_puts_of_two_rounds_is_one_step :
    ∃ t, exec .trapPuts (fedOnce 65536) = .next t ∧ t.hold = none := fedOnce_ends rfl

theorem witness_heldPuts_inv : Inv (heldString 65536 .puts) := heldString_inv rfl

theorem witness_RunStateChangesOnlyAsListed :
    State.reset.run = .running ∧
    exec (.rti 0x8000) State.reset = .next (State.reset.raise .illegalOpcode 0x8000 0x2FFF) ∧
    exec (.jmp 0) State.reset = .next (State.reset.setPc 0) :=
  ⟨rfl, rfl, rfl⟩

/-- A held IN meets the invariant, and so does the state after a faulting step. -/
theorem witness_EveryStepKeepsInvariant :
    Inv heldIn ∧ (∃ t, step heldIn = .next t) ∧
    Inv { (start 0x8000).raise .illegalOpcode 0x8000 0x3000 with pc := 0x3001 } := by
  refine ⟨⟨by decide, by decide, show heldIn.run ≠ .faulted by decide, ?_, by decide, by decide⟩,
    ⟨heldIn, by rfl⟩,
    ⟨by decide, by decide, ?_, trivial, by decide, by decide⟩⟩
  · exact ⟨by decide, by decide, by decide⟩
  · exact ⟨by decide, by decide, fun _ => .inl (by decide), fun h => by cases h⟩

theorem witness_EveryRunGoesOnInInvariant : Inv (start 0xF025) :=
  ⟨by decide, by decide, show (start 0xF025).run ≠ .faulted by decide, trivial, by decide, by decide⟩

/-- Origin 0xFFFF: word 0 is placed, word 1 is not, address 0 is outside. -/
theorem witness_LoaderPlacesAndClips :
    State.reset.mem.wf ∧
    0 < min ([0x11#8, 0x11#8, 0x22#8, 0x22#8].length / 2)
      (65536 - (0xFF#8 ++ 0xFF#8 : Word).toNat) ∧
    ¬ ((0xFF#8 ++ 0xFF#8 : Word).toNat ≤ (0x0000#16).toNat ∧
       (0x0000#16).toNat < (0xFF#8 ++ 0xFF#8 : Word).toNat +
         min ([0x11#8, 0x11#8, 0x22#8, 0x22#8].length / 2)
           (65536 - (0xFF#8 ++ 0xFF#8 : Word).toNat)) := by decide

theorem witness_BootChangesMemoryOnly :
    boot Config.default [[0x30, 0x00, 0xF0, 0x25]] =
      some (State.reset.memWrite 0x3000 0xF025) ∧ Config.default.wf = true := by decide

theorem witness_OnlyFlagSettersWriteCond :
    exec (.jmp 0) State.reset = .next (State.reset.setPc 0) ∧ flagResult (.jmp 0) = none ∧
    exec (.not 1 0) State.reset = .next (State.reset.setResult 1 0xFFFF) ∧
    flagResult (.not 1 0) = some 1 ∧ flagResult .trapGetc = some 0 ∧ pending.input ≠ [] ∧
    exec .trapGetc State.reset = .next (State.reset.link.setHold (some .getc)) :=
  ⟨rfl, rfl, rfl, rfl, rfl, by decide, rfl⟩

theorem witness_UnlistedRegistersAreNeitherReadNorWritten :
    (5 : Reg) ∉ readsOf (.str 0 1 2) ∧ (5 : Reg) ∉ writesOf (.str 0 1 2) ∧
    (7 : Reg) ∉ readsOf (.jmp 3) ∧ (7 : Reg) ∉ writesOf (.jmp 3) := by decide

theorem witness_PcAfterEachInstruction :
    exec (.jsrr 7) State.reset = .next (State.reset.link.setPc 0x3000) := rfl

theorem witness_OnlyStoresWriteMemory :
    State.reset.mem.wf ∧ storesMemory (.ld 0 0) = false ∧ readsMemory (.ld 0 0) = true ∧
    exec (.ld 0 0) State.reset = .next (State.reset.setResult 0 0) ∧
    storesMemory (.jmp 0) = false ∧ readsMemory (.jmp 0) = false ∧
    exec (.jmp 0) State.reset = .next (State.reset.setPc 0) := by
  exact ⟨by decide, rfl, rfl, rfl, rfl, rfl, rfl⟩

theorem witness_PortsAreUsedOnlyAsListed :
    exec (.jmp 0) pending = .next (pending.setPc 0) ∧ readsMemory (.jmp 0) = false ∧
    ¬ takesCharacter (.jmp 0) ∧ writesOutput (.jmp 0) = false := by
  refine ⟨rfl, rfl, ?_, rfl⟩
  unfold takesCharacter; decide

theorem witness_WorldIsNeverWritten :
    exec .trapHalt State.reset =
      .next ((State.reset.link.emit Config.default.haltNotice).setRun .halted) ∧
    readsMemory .trapHalt = false ∧ ({ State.reset with stopReq := true } : State).stopReq = true :=
  ⟨rfl, rfl, rfl⟩

theorem witness_PollLatchesOrClears :
    Sound pending ∧ pending.environmentActs.input = 0x41 :: [] ∧ Sound State.reset ∧
    State.reset.environmentActs.input = [] :=
  ⟨⟨by decide, by decide⟩, rfl, ⟨by decide, by decide⟩, rfl⟩

/-- Two characters that were there, and a second one that arrives between the polls. -/
theorem witness_PollConsequences :
    (Sound pendingTwo ∧ pendingTwo.environmentActs.input = 0x41 :: [0x42] ∧
      pendingTwo.kbPoll.environmentActs.input = 0x42 :: []) ∧
    ({ State.reset with environment := [⟨[0x41], false⟩, ⟨[0x42], false⟩] } :
      State).kbPoll.environmentActs.input = 0x42 :: [] ∧
    (Sound pending ∧ pending.environmentActs.input = 0x41 :: [] ∧
      pending.kbPoll.environmentActs.input = []) :=
  ⟨⟨⟨by decide, by decide⟩, rfl, rfl⟩, rfl, ⟨by decide, by decide⟩, rfl, rfl⟩

/-- Program P5: `ST R0, x3002` at 0x3001. -/
theorem witness_StoredWordIsExecutedNext :
    (startAt 0x3001 0x3000).mem.wf ∧ (startAt 0x3001 0x3000).run = .running ∧
    (startAt 0x3001 0x3000).hold = none ∧ (startAt 0x3001 0x3000).stopReq = false ∧
    (startAt 0x3001 0x3000).environment = [] ∧ (startAt 0x3001 0x3000).recurring = [] ∧
    (startAt 0x3001 0x3000).pc ≠ (startAt 0x3001 0x3000).config.kbsrAddr ∧
    (startAt 0x3001 0x3000).pc + 1 ≠ (startAt 0x3001 0x3000).config.kbsrAddr ∧
    (startAt 0x3001 0x3000).config.encoding.decode
      ((startAt 0x3001 0x3000).mem.read (startAt 0x3001 0x3000).pc) = .st 0 0 := by decide

theorem witness_FetchFromKbsrWithInputFaults :
    Sound (pending.setPc 0xFE00) ∧ Fetches (pending.setPc 0xFE00) ∧
    (pending.setPc 0xFE00).config.encoding = Encoding.published ∧
    (pending.setPc 0xFE00).pc = (pending.setPc 0xFE00).config.kbsrAddr ∧
    (pending.setPc 0xFE00).environmentActs.environmentActs.input = 0x41 :: [] :=
  ⟨⟨by decide, by decide⟩, ⟨rfl, rfl, rfl⟩, rfl, rfl, rfl⟩

theorem witness_ZeroMemoryIsWalkedForEver :
    State.reset.mem = [] ∧ State.reset.run = .running ∧ State.reset.hold = none ∧
    State.reset.stopReq = false ∧ State.reset.environment = [] ∧ State.reset.recurring = [] ∧
    State.reset.input = [] ∧
    State.reset.config.encoding = Encoding.published := by decide

/-- A string of one word just below KBSR, its terminator included. -/
theorem witness_PutsWritesPlainString :
    let s := (State.reset.setReg 0 0xFDFE).memWrite 0xFDFE 0x0041
    (∀ k w, [(0x0041 : Word)][k]? = some w →
      w ≠ 0x0000#16 ∧ s.mem.read (s.reg 0 + BitVec.ofNat 16 k) = w) ∧
    s.mem.read (s.reg 0 + BitVec.ofNat 16 1) = 0x0000#16 ∧
    (∀ k, k ≤ 1 → s.reg 0 + BitVec.ofNat 16 k ≠ s.config.kbsrAddr) := by
  refine ⟨fun k w h => ?_, by decide, by decide⟩
  cases k with
  | zero => cases h; decide
  | succ k => simp at h

/-- The zero word one below R0 is the last that a string can reach. -/
theorem witness_ZeroWordBoundsStrings :
    (State.reset.setReg 0 0x4000).mem.wf ∧
    (State.reset.setReg 0 0x4000).mem.read 0x3FFF = 0x0000#16 ∧
    (0x3FFF : Word) ≠ State.reset.config.kbsrAddr ∧
    (0x3FFF : Word) ≠ State.reset.config.kbdrAddr := by decide

/-- The published table, and one that puts every field elsewhere. -/
theorem witness_DecodeEncodeRoundTrip :
    Encoding.published.wf = true ∧ Instr.wf Encoding.published (.trapUnknown 0xF0FF) = true ∧
    Encoding.wf { Encoding.published with
      opcodes := (Encoding.published.opcodes.set 0 .trap).set 15 .br,
      dr := 0, sr := 0, sr1 := 3, sr2 := 7, baseR := 3, immFlag := 6, longFlag := 0,
      maskN := 0, maskZ := 1, maskP := 2, imm5 := 7, offset6 := 6, pcOffset9 := 3,
      pcOffset11 := 1 } = true := by decide

theorem witness_SignExtensionIsExact :
    11 ∈ [5, 6, 9, 11] ∧ (0x3FF#11).getLsbD (11 - 1) = false ∧
    (0x400#11).getLsbD (11 - 1) = true := by decide

end Sys2Proof.Tests
end

/-! ## Sign extension (rule R19) -/

namespace Sys2Proof.Machine

/-- Both cases of rule R19 at once: a set top bit adds `2^16 - 2^n`. -/
theorem sext_toNat {n : Nat} (hn : n ≤ 16) (v : BitVec n) :
    (sext v).toNat = v.toNat + if v.msb then 2 ^ 16 - 2 ^ n else 0 := by
  rw [sext, BitVec.toNat_signExtend, BitVec.toNat_setWidth_of_le hn]

theorem sext_setWidth {n : Nat} (hn : n ≤ 16) (v : BitVec n) : (sext v).setWidth n = v := by
  ext i hi
  have hi16 : i < 16 := by omega
  simp [sext, BitVec.getElem_signExtend, hi, hi16]

theorem sext_toInt {n : Nat} (hn : n ≤ 16) (v : BitVec n) : (sext v).toInt = v.toInt :=
  BitVec.toInt_signExtend_of_le hn

/-- Settles O57: the four widths are at most 16, and for those the extension's value, low bits and
signed value are known. -/
theorem signExtensionIsExact : Obligations.SignExtensionIsExact := by
  intro n hmem v
  have hn : n ≤ 16 := (by decide : ∀ m ∈ [5, 6, 9, 11], m ≤ 16) n hmem
  have hpow : 2 ^ n ≤ 2 ^ 16 := Nat.pow_le_pow_right (by decide) hn
  rw [← BitVec.msb_eq_getLsbD_last]
  refine ⟨fun hclear => ?_, fun hset => ?_, sext_setWidth hn v, sext_toInt hn v⟩
  · simp [sext_toNat hn, hclear]
  · rw [sext_toNat hn, if_pos hset]
    omega

end Sys2Proof.Machine

/-! ## Reset and the condition code (rules R26, R37) -/

namespace Sys2Proof.Machine

open Sys2Proof.Safety

/-- Every register is zero at reset (rule R37). -/
@[simp] theorem State.reset_reg (r : Reg) : State.reset.reg r = 0#16 := by
  rw [State.reg, State.reset, Vector.get_eq_getElem, Vector.getElem_replicate]

/-- Settles O34: the registers by `State.reset_reg`; reset lists no cell, so memory reads as zero by
`Memory.read_nil`; the rest are fields of `State.reset`. -/
theorem resetLeavesListedValues : Obligations.ResetLeavesListedValues :=
  ⟨State.reset_reg, rfl, rfl, rfl, rfl, Memory.read_nil, rfl, rfl⟩

@[simp] theorem condOf_zero : condOf 0#16 = .zero := rfl

theorem condOf_of_pos_of_lt {v : Word} (hpos : 0 < v.toNat) (hlt : v.toNat < 0x8000) :
    condOf v = .positive := by
  have hne : v ≠ 0#16 := by rintro rfl; contradiction
  have hmsb : v.msb = false := BitVec.msb_eq_false_iff_two_mul_lt.mpr (by omega)
  simp [condOf, hne, hmsb]

theorem condOf_of_ge {v : Word} (hge : 0x8000 ≤ v.toNat) : condOf v = .negative := by
  have hne : v ≠ 0#16 := by rintro rfl; contradiction
  have hmsb : v.msb = true := BitVec.msb_eq_true_iff_two_mul_ge.mpr (by omega)
  simp [condOf, hne, hmsb]

/-- The code computed from a word is the one its range calls for (rule R26). -/
theorem condAgrees_condOf (v : Word) : CondAgrees v (condOf v) := by
  refine ⟨fun hzero => ?_, fun ⟨hpos, hle⟩ => ?_, condOf_of_ge⟩
  · have hv : v = 0#16 := BitVec.eq_of_toNat_eq hzero
    rw [hv, condOf_zero]
  · exact condOf_of_pos_of_lt hpos (by omega)

/-- Settles O58: `setcc` writes COND alone, by definition, and writes `condOf` of the register, which
is the code of the word's range. -/
theorem setccFollowsTheRegister : Obligations.SetccFollowsTheRegister :=
  fun s r => ⟨condAgrees_condOf (s.reg r), rfl⟩

end Sys2Proof.Machine

/-! ## Which instructions write memory (rule R57) -/

namespace Sys2Proof.Machine

open Sys2Proof.Safety Sys2Proof.Statements

/-! ### Memory under the shared operations -/

@[simp] theorem State.finishGetc_mem (s : State) : s.finishGetc.mem = s.mem := by
  obtain ⟨c, rest, -, h⟩ | ⟨-, h⟩ := State.finishGetc_cases s <;> simp [h]

@[simp] theorem State.finishIn_mem (s : State) : s.finishIn.mem = s.mem := by
  obtain ⟨c, rest, -, h⟩ | ⟨-, h⟩ := State.finishIn_cases s <;> simp [h]

theorem cellsKeptBut_of_mem_eq {s t : State} (h : t.mem = s.mem) (cells : List Word) :
    CellsKeptBut cells s t := fun a _ => congrArg (Memory.read · a) h

/-! ### What polls of the keyboard do to memory -/

/-- Memory differs in the two keyboard cells at most, and they are the same two cells in both states, so
that one such change can follow another. -/
def PolledFrom (s t : State) : Prop :=
  CellsKeptBut [s.config.kbsrAddr, s.config.kbdrAddr] s t ∧ t.config = s.config

theorem PolledFrom.refl (s : State) : PolledFrom s s := ⟨fun _ _ => rfl, rfl⟩

theorem PolledFrom.trans {s t u : State} (hst : PolledFrom s t) (htu : PolledFrom t u) :
    PolledFrom s u := by
  obtain ⟨hcells, hconfig⟩ := hst
  obtain ⟨hcells', hconfig'⟩ := htu
  rw [hconfig] at hcells'
  exact ⟨fun a ha => (hcells' a ha).trans (hcells a ha), hconfig'.trans hconfig⟩

theorem polledFrom_pollAt (s : State) (a : Word) : PolledFrom s (s.pollAt a) := by
  refine ⟨fun b hb => ?_, State.pollAt_config s a⟩
  obtain ⟨hkbsr, hkbdr⟩ : b ≠ s.config.kbsrAddr ∧ b ≠ s.config.kbdrAddr := by simpa using hb
  exact State.pollAt_read_of_ne a hkbsr hkbdr

/-- A load changes memory by its read only. -/
theorem polledFrom_loadFrom (s : State) (dr : Reg) (ea : Word) : PolledFrom s (s.loadFrom dr ea) :=
  polledFrom_pollAt s ea

theorem polledFrom_writeString (w : Wait) (s : State) : PolledFrom s (s.writeString w) := by
  rw [State.writeString_eq]
  exact stringLoop_keeps (P := PolledFrom s) (fun u a hu => hu.trans (polledFrom_pollAt u a))
    (fun _ _ hu => hu) (fun _ hu => hu) _ _ s (.refl s)

/-! ### Memory after each instruction -/

theorem exec_mem_of_not_stores_of_not_reads {i : Instr} {s t : State} (h : exec i s = .next t)
    (hstores : storesMemory i = false) (hreads : readsMemory i = false) : t.mem = s.mem := by
  cases i with
  | st | sti | str => cases hstores
  | ld | ldi | ldr | trapPuts | trapPutsp => cases hreads
  | br => cases h; split <;> rfl
  | trapGetc => cases h; exact State.finishGetc_mem _
  | trapIn => cases h; exact State.finishIn_mem _
  | addReg | addImm | andReg | andImm | not | jmp | jsr | jsrr | lea | trapOut | trapHalt
  | trapUnknown | rti | res => cases h; rfl

/-- The loads and the string services read, and do nothing else to memory. -/
theorem exec_polledFrom_of_reads {i : Instr} {s t : State} (h : exec i s = .next t)
    (hstores : storesMemory i = false) (hreads : readsMemory i = true) : PolledFrom s t := by
  cases i with
  | ld | ldr => cases h; exact polledFrom_loadFrom s _ _
  | ldi => cases h; exact (polledFrom_pollAt s _).trans (polledFrom_loadFrom _ _ _)
  | trapPuts | trapPutsp => cases h; exact polledFrom_writeString _ s.link
  | sti => cases hstores
  | _ => cases hreads

/-- Settles O43: a write by the laws of one cell; of the instructions that do not store, one that reads
no memory keeps the whole of it, and one that reads changes it by the polls of its reads. -/
theorem onlyStoresWriteMemory : Obligations.OnlyStoresWriteMemory := by
  refine ⟨fun s a v hwf => ?_, fun i s t h hstores => ?_⟩
  · obtain ⟨-, hcells, -⟩ := frame_memWrite a v s
    exact ⟨Memory.read_write_same hwf a v, hcells, rfl⟩
  · cases hreads : readsMemory i with
    | false =>
      have hmem := exec_mem_of_not_stores_of_not_reads h hstores hreads
      exact ⟨cellsKeptBut_of_mem_eq hmem _, fun _ => cellsKeptBut_of_mem_eq hmem _⟩
    | true =>
      obtain ⟨hcells, -⟩ := exec_polledFrom_of_reads h hstores hreads
      exact ⟨hcells, nofun⟩

end Sys2Proof.Machine

/-! ## Operate instructions (rules R120 to R124) -/

namespace Sys2Proof.Machine

open Sys2Proof.Safety

/-! ### The words of the operate format (rule R86) -/

@[simp] theorem toFin_regBits (r : Reg) : (regBits r).toFin = r := by
  rw [regBits, BitVec.toFin_ofNat, Fin.ofNat_val_eq_self]

/-- An operate word: opcode, DR, first source, and the six bits that the forms use differently. -/
def operateWord (op : BitVec 4) (d a : Reg) (low : BitVec 6) : Word :=
  op ++ regBits d ++ regBits a ++ low

/-- The low six bits of the register mode; `x` is ignored. -/
def registerLow (b : Reg) (x : BitVec 2) : BitVec 6 := 0b0#1 ++ (x ++ regBits b)

/-- The low six bits of the immediate mode. -/
def immediateLow (i : BitVec 5) : BitVec 6 := 0b1#1 ++ i

section Fields

variable (op : BitVec 4) (d a : Reg) (low : BitVec 6)

theorem operateWord_registerMode (b : Reg) (x : BitVec 2) :
    op ++ regBits d ++ regBits a ++ 0b0#1 ++ x ++ regBits b =
      operateWord op d a (registerLow b x) := by
  rw [operateWord, registerLow, BitVec.append_assoc, BitVec.append_assoc]
  rfl

theorem operateWord_immediateMode (i : BitVec 5) :
    op ++ regBits d ++ regBits a ++ 0b1#1 ++ i = operateWord op d a (immediateLow i) := by
  rw [operateWord, immediateLow, BitVec.append_assoc]
  rfl

theorem opcodeOf_operateWord (e : Encoding) :
    e.opcodeOf (operateWord op d a low) = e.opcodes.get op.toFin := by
  rw [Encoding.opcodeOf, bitField, operateWord, BitVec.extractLsb'_append_eq_of_le (by decide),
    BitVec.extractLsb'_append_eq_of_le (by decide), BitVec.extractLsb'_append_eq_left]

@[simp] theorem regField_dr_operateWord : regField (operateWord op d a low) 9 = d := by
  rw [regField, bitField, operateWord, BitVec.extractLsb'_append_eq_of_le (by decide),
    BitVec.extractLsb'_append_eq_of_le (by decide), BitVec.extractLsb'_append_eq_right,
    toFin_regBits]

@[simp] theorem regField_sr1_operateWord : regField (operateWord op d a low) 6 = a := by
  rw [regField, bitField, operateWord, BitVec.extractLsb'_append_eq_of_le (by decide),
    BitVec.extractLsb'_append_eq_right, toFin_regBits]

theorem bitField_low_operateWord {lo n : Nat} (h : lo + n ≤ 6) :
    bitField (operateWord op d a low) lo n = low.extractLsb' lo n := by
  rw [bitField, operateWord, BitVec.extractLsb'_append_eq_of_add_le h]

theorem flagField_low_operateWord {k : Nat} (h : k < 6) :
    flagField (operateWord op d a low) k = low.getLsbD k := by
  rw [flagField, operateWord, BitVec.getLsbD_append, if_pos h]

@[simp] theorem sr2_registerMode (b : Reg) (x : BitVec 2) :
    regField (operateWord op d a (registerLow b x)) 0 = b := by
  rw [regField, bitField_low_operateWord _ _ _ _ (by decide), registerLow,
    BitVec.extractLsb'_append_eq_of_add_le (by decide), BitVec.extractLsb'_append_eq_right,
    toFin_regBits]

@[simp] theorem imm5_immediateMode (i : BitVec 5) :
    bitField (operateWord op d a (immediateLow i)) 0 5 = i := by
  rw [bitField_low_operateWord _ _ _ _ (by decide), immediateLow,
    BitVec.extractLsb'_append_eq_right]

@[simp] theorem immFlag_registerMode (b : Reg) (x : BitVec 2) :
    flagField (operateWord op d a (registerLow b x)) 5 = false := by
  rw [flagField_low_operateWord _ _ _ _ (by decide), registerLow, BitVec.getLsbD_append]
  rfl

@[simp] theorem immFlag_immediateMode (i : BitVec 5) :
    flagField (operateWord op d a (immediateLow i)) 5 = true := by
  rw [flagField_low_operateWord _ _ _ _ (by decide), immediateLow, BitVec.getLsbD_append]
  rfl

end Fields

/-! ### Decoding (rule R91) -/

theorem decode_of_add {e : Encoding} {w : Word} (h : e.opcodeOf w = .add) :
    e.decode w =
      if flagField w e.immFlag then
        .addImm (regField w e.dr) (regField w e.sr1) (bitField w e.imm5 5)
      else .addReg (regField w e.dr) (regField w e.sr1) (regField w e.sr2) := by
  rw [Encoding.decode, h]

theorem decode_of_and {e : Encoding} {w : Word} (h : e.opcodeOf w = .and) :
    e.decode w =
      if flagField w e.immFlag then
        .andImm (regField w e.dr) (regField w e.sr1) (bitField w e.imm5 5)
      else .andReg (regField w e.dr) (regField w e.sr1) (regField w e.sr2) := by
  rw [Encoding.decode, h]

theorem decode_of_not {e : Encoding} {w : Word} (h : e.opcodeOf w = .not) :
    e.decode w = .not (regField w e.dr) (regField w e.sr1) := by
  rw [Encoding.decode, h]

theorem decode_addReg (d a b : Reg) (x : BitVec 2) :
    Encoding.published.decode
      (0b0001#4 ++ regBits d ++ regBits a ++ 0b0#1 ++ x ++ regBits b) = .addReg d a b := by
  rw [operateWord_registerMode, decode_of_add (opcodeOf_operateWord _ _ _ _ _)]
  simp [Encoding.published]

theorem decode_addImm (d a : Reg) (i : BitVec 5) :
    Encoding.published.decode
      (0b0001#4 ++ regBits d ++ regBits a ++ 0b1#1 ++ i) = .addImm d a i := by
  rw [operateWord_immediateMode, decode_of_add (opcodeOf_operateWord _ _ _ _ _)]
  simp [Encoding.published]

theorem decode_andReg (d a b : Reg) (x : BitVec 2) :
    Encoding.published.decode
      (0b0101#4 ++ regBits d ++ regBits a ++ 0b0#1 ++ x ++ regBits b) = .andReg d a b := by
  rw [operateWord_registerMode, decode_of_and (opcodeOf_operateWord _ _ _ _ _)]
  simp [Encoding.published]

theorem decode_andImm (d a : Reg) (i : BitVec 5) :
    Encoding.published.decode
      (0b0101#4 ++ regBits d ++ regBits a ++ 0b1#1 ++ i) = .andImm d a i := by
  rw [operateWord_immediateMode, decode_of_and (opcodeOf_operateWord _ _ _ _ _)]
  simp [Encoding.published]

theorem decode_not (d a : Reg) (x : BitVec 6) :
    Encoding.published.decode (0b1001#4 ++ regBits d ++ regBits a ++ x) = .not d a := by
  rw [← operateWord, decode_of_not (opcodeOf_operateWord _ _ _ _ _)]
  simp [Encoding.published]

/-! ### The result, the flags and the frame -/

/-- What every flag-setting instruction without a memory access does, whatever `v` it computes. -/
theorem exec_setResult {i : Instr} {s : State} {d : Reg} {v : Word}
    (h : exec i s = .next (s.setResult d v)) :
    ∃ t, exec i s = .next t ∧ t.reg d = v ∧
      CondAgrees (t.reg d) t.cond ∧ t.pc = s.pc ∧ Frame [d] [] s t := by
  have hreg : (s.setResult d v).reg d = v := by simp
  refine ⟨s.setResult d v, h, hreg, ?_, rfl, frame_setResult d v s⟩
  rw [hreg, State.setResult_cond]
  exact condAgrees_condOf v

/-- Settles O1: the sum is the word sum, whose value is the sum of the two values modulo 2^16. -/
theorem addRegisterModeAdds : Obligations.AddRegisterModeAdds := by
  refine ⟨decode_addReg, fun d a b s => ?_⟩
  obtain ⟨t, hexec, hreg, hrest⟩ :=
    exec_setResult (i := .addReg d a b) (v := s.reg a + s.reg b) rfl
  exact ⟨t, hexec, by rw [hreg, BitVec.toNat_add], hrest⟩

/-- Settles O2: the model's sign extension is the signed value of the immediate modulo 2^16. -/
theorem addImmediateModeAdds : Obligations.AddImmediateModeAdds := by
  refine ⟨decode_addImm, fun d a i s => ?_⟩
  rw [← sext_eq_ofInt (by decide)]
  exact exec_setResult rfl

/-- Settles O3: AND on words is AND on each bit. -/
theorem andRegisterModeMasks : Obligations.AndRegisterModeMasks := by
  refine ⟨decode_andReg, fun d a b s => ?_⟩
  obtain ⟨t, hexec, hreg, hrest⟩ :=
    exec_setResult (i := .andReg d a b) (v := s.reg a &&& s.reg b) rfl
  exact ⟨t, hexec, fun k => by rw [hreg, BitVec.getLsbD_and], hrest⟩

/-- Settles O4: as O3, with the sign-extended immediate for the second source. -/
theorem andImmediateModeMasks : Obligations.AndImmediateModeMasks := by
  refine ⟨decode_andImm, fun d a i s => ?_⟩
  obtain ⟨t, hexec, hreg, hrest⟩ :=
    exec_setResult (i := .andImm d a i) (v := s.reg a &&& sext i) rfl
  rw [sext_eq_ofInt (by decide)] at hreg
  exact ⟨t, hexec, fun k => by rw [hreg, BitVec.getLsbD_and], hrest⟩

/-- Settles O5: the complement of a word is `2^16 - 1` minus its value. -/
theorem notComplements : Obligations.NotComplements := by
  refine ⟨decode_not, fun d a s => ?_⟩
  obtain ⟨t, hexec, hreg, hrest⟩ := exec_setResult (i := .not d a) (v := ~~~s.reg a) rfl
  exact ⟨t, hexec, by rw [hreg, BitVec.toNat_not], hrest⟩

end Sys2Proof.Machine

/-! ## Control transfer (rules R130 to R132) -/

namespace Sys2Proof.Machine

open Sys2Proof.Safety

/-! ### The words of the control formats (rule R86) -/

/-- A BR word: opcode, the three mask bits, and the offset. -/
def branchWord (op : BitVec 4) (n z p : Bool) (o : BitVec 9) : Word :=
  op ++ BitVec.ofBool n ++ BitVec.ofBool z ++ BitVec.ofBool p ++ o

/-- A word of JSR's format: opcode, the flag that tells JSR from JSRR, and the low eleven bits. -/
def linkWord (op : BitVec 4) (long : Bool) (low : BitVec 11) : Word :=
  op ++ BitVec.ofBool long ++ low

section BranchWord

variable (op : BitVec 4) (n z p : Bool) (o : BitVec 9)

theorem opcodeOf_branchWord (e : Encoding) :
    e.opcodeOf (branchWord op n z p o) = e.opcodes.get op.toFin := by
  rw [Encoding.opcodeOf, bitField, branchWord, BitVec.extractLsb'_append_eq_of_le (by decide),
    BitVec.extractLsb'_append_eq_of_le (by decide), BitVec.extractLsb'_append_eq_of_le (by decide),
    BitVec.extractLsb'_append_eq_left]

@[simp] theorem maskN_branchWord : flagField (branchWord op n z p o) 11 = n := by
  rw [flagField, branchWord]
  iterate 4 rw [BitVec.getLsbD_append]
  simp

@[simp] theorem maskZ_branchWord : flagField (branchWord op n z p o) 10 = z := by
  rw [flagField, branchWord]
  iterate 3 rw [BitVec.getLsbD_append]
  simp

@[simp] theorem maskP_branchWord : flagField (branchWord op n z p o) 9 = p := by
  rw [flagField, branchWord]
  iterate 2 rw [BitVec.getLsbD_append]
  simp

@[simp] theorem pcOffset9_branchWord : bitField (branchWord op n z p o) 0 9 = o := by
  rw [bitField, branchWord, BitVec.extractLsb'_append_eq_right]

end BranchWord

section LinkWord

variable (op : BitVec 4) (long : Bool) (low : BitVec 11)

theorem opcodeOf_linkWord (e : Encoding) :
    e.opcodeOf (linkWord op long low) = e.opcodes.get op.toFin := by
  rw [Encoding.opcodeOf, bitField, linkWord, BitVec.extractLsb'_append_eq_of_le (by decide),
    BitVec.extractLsb'_append_eq_left]

@[simp] theorem longFlag_linkWord : flagField (linkWord op long low) 11 = long := by
  rw [flagField, linkWord]
  iterate 2 rw [BitVec.getLsbD_append]
  simp

@[simp] theorem pcOffset11_linkWord : bitField (linkWord op long low) 0 11 = low := by
  rw [bitField, linkWord, BitVec.extractLsb'_append_eq_right]

end LinkWord

/-! ### Decoding (rule R91) -/

theorem decode_of_br {e : Encoding} {w : Word} (h : e.opcodeOf w = .br) :
    e.decode w = .br (flagField w e.maskN) (flagField w e.maskZ) (flagField w e.maskP)
      (bitField w e.pcOffset9 9) := by
  rw [Encoding.decode, h]

theorem decode_of_jmp {e : Encoding} {w : Word} (h : e.opcodeOf w = .jmp) :
    e.decode w = .jmp (regField w e.baseR) := by
  rw [Encoding.decode, h]

theorem decode_of_jsr {e : Encoding} {w : Word} (h : e.opcodeOf w = .jsr) :
    e.decode w =
      if flagField w e.longFlag then .jsr (bitField w e.pcOffset11 11)
      else .jsrr (regField w e.baseR) := by
  rw [Encoding.decode, h]

theorem decode_br (n z p : Bool) (o : BitVec 9) :
    Encoding.published.decode
      (0b0000#4 ++ BitVec.ofBool n ++ BitVec.ofBool z ++ BitVec.ofBool p ++ o) =
      .br n z p o := by
  rw [← branchWord, decode_of_br (opcodeOf_branchWord _ _ _ _ _ _)]
  simp [Encoding.published]

/-- A JMP word has the operate format's layout: ignored bits where DR stands, BaseR in the place of the
first source. -/
theorem decode_jmp (x : BitVec 3) (b : Reg) (y : BitVec 6) :
    Encoding.published.decode (0b1100#4 ++ x ++ regBits b ++ y) = .jmp b := by
  have hx : x = regBits x.toFin := by simp [regBits]
  rw [hx, ← operateWord, decode_of_jmp (opcodeOf_operateWord _ _ _ _ _)]
  simp [Encoding.published]

theorem decode_jsr (o : BitVec 11) :
    Encoding.published.decode (0b0100#4 ++ 0b1#1 ++ o) = .jsr o := by
  have hword : 0b0100#4 ++ 0b1#1 ++ o = linkWord 0b0100#4 true o := rfl
  rw [hword, decode_of_jsr (opcodeOf_linkWord _ _ _ _)]
  simp [Encoding.published]

/-! ### The target, the link and the frame -/

/-- The model's PC-relative address is PC plus the signed value of the offset, modulo 2^16. -/
theorem State.pcRelative_eq_ofInt {n : Nat} (hn : n ≤ 16) (s : State) (o : BitVec n) :
    s.pcRelative o = s.pc + BitVec.ofInt 16 o.toInt := by
  rw [State.pcRelative, sext_eq_ofInt hn]

/-- What every transfer without a link does, whatever target `v` it computes. -/
theorem exec_setPc {i : Instr} {s : State} {v : Word} (h : exec i s = .next (s.setPc v)) :
    ∃ t, exec i s = .next t ∧ t.pc = v ∧ t.cond = s.cond ∧ Frame [] [] s t :=
  ⟨s.setPc v, h, rfl, rfl, frame_setPc v s⟩

/-- What every transfer with a link does, whatever target `v` it computes. -/
theorem exec_link_setPc {i : Instr} {s : State} {v : Word}
    (h : exec i s = .next (s.link.setPc v)) :
    ∃ t, exec i s = .next t ∧ t.reg 7 = s.pc ∧ t.pc = v ∧ t.cond = s.cond ∧ Frame [7] [] s t :=
  ⟨s.link.setPc v, h, by simp, rfl, rfl, frame_link_setPc v s⟩

theorem brTaken_iff (n z p : Bool) (c : Cond) :
    brTaken n z p c = true ↔
      (n = true ∧ c = .negative) ∨ (z = true ∧ c = .zero) ∨ (p = true ∧ c = .positive) := by
  cases c <;> simp [brTaken]

/-- A branch not taken writes PC with the value it has. -/
theorem exec_br (n z p : Bool) (o : BitVec 9) (s : State) :
    exec (.br n z p o) s =
      .next (s.setPc (if brTaken n z p s.cond then s.pcRelative o else s.pc)) := by
  rw [exec, execBr]
  split <;> rfl

/-- Settles O6: BR is a transfer to its target or to the incremented PC, as `brTaken` says, and
`brTaken` is the mask bit of COND. -/
theorem brBranchesOnItsMask : Obligations.BrBranchesOnItsMask := by
  refine ⟨decode_br, fun n z p o s => ?_⟩
  obtain ⟨t, hexec, hpc, hrest⟩ := exec_setPc (exec_br n z p o s)
  simp only [brTaken_iff, State.pcRelative_eq_ofInt (by decide : 9 ≤ 16)] at hpc
  exact ⟨t, hexec, hpc, hrest⟩

/-- Settles O7: JMP is a transfer to the word in its base register. -/
theorem jmpGoesToItsRegister : Obligations.JmpGoesToItsRegister :=
  ⟨decode_jmp, fun _ _ => exec_setPc rfl⟩

/-- Settles O8: JSR is a transfer with a link, and the link write leaves the PC that its target is
relative to. -/
theorem jsrLinksAndBranches : Obligations.JsrLinksAndBranches := by
  refine ⟨decode_jsr, fun o s => ?_⟩
  rw [← State.pcRelative_eq_ofInt (by decide)]
  exact exec_link_setPc rfl

end Sys2Proof.Machine

/-! ## LEA (rule R143) -/

namespace Sys2Proof.Machine

open Sys2Proof.Safety

/-! ### The words of the PC-relative format (rule R86) -/

/-- A word of the format that LD, LDI, LEA, ST and STI share: opcode, register, offset. -/
def pcRelativeWord (op : BitVec 4) (r : Reg) (o : BitVec 9) : Word := op ++ regBits r ++ o

section PcRelativeWord

variable (op : BitVec 4) (r : Reg) (o : BitVec 9)

theorem opcodeOf_pcRelativeWord (e : Encoding) :
    e.opcodeOf (pcRelativeWord op r o) = e.opcodes.get op.toFin := by
  rw [Encoding.opcodeOf, bitField, pcRelativeWord, BitVec.extractLsb'_append_eq_of_le (by decide),
    BitVec.extractLsb'_append_eq_left]

@[simp] theorem regField_pcRelativeWord : regField (pcRelativeWord op r o) 9 = r := by
  rw [regField, bitField, pcRelativeWord, BitVec.extractLsb'_append_eq_of_le (by decide),
    BitVec.extractLsb'_append_eq_right, toFin_regBits]

@[simp] theorem pcOffset9_pcRelativeWord : bitField (pcRelativeWord op r o) 0 9 = o := by
  rw [bitField, pcRelativeWord, BitVec.extractLsb'_append_eq_right]

end PcRelativeWord

/-! ### Decoding and meaning -/

theorem decode_of_lea {e : Encoding} {w : Word} (h : e.opcodeOf w = .lea) :
    e.decode w = .lea (regField w e.dr) (bitField w e.pcOffset9 9) := by
  rw [Encoding.decode, h]

theorem decode_lea (d : Reg) (o : BitVec 9) :
    Encoding.published.decode (0b1110#4 ++ regBits d ++ o) = .lea d o := by
  rw [← pcRelativeWord, decode_of_lea (opcodeOf_pcRelativeWord _ _ _ _)]
  simp [Encoding.published]

/-- Settles O13: LEA sets its register and the flags to the PC-relative address, as the operate
instructions do with their results, and reads no memory. -/
theorem leaComputesAddress : Obligations.LeaComputesAddress := by
  refine ⟨decode_lea, fun d o s => ?_⟩
  rw [← State.pcRelative_eq_ofInt (by decide)]
  exact exec_setResult rfl

end Sys2Proof.Machine

/-! ## Stores to a computed address (rules R150, R152) -/

namespace Sys2Proof.Machine

open Sys2Proof.Safety

/-! ### Decoding (rule R91)

An STR word has the operate format's layout: SR in the place of DR, BaseR in that of the first source,
and the offset in the low six bits. -/

@[simp] theorem offset6_operateWord (op : BitVec 4) (r b : Reg) (o : BitVec 6) :
    bitField (operateWord op r b o) 0 6 = o := by
  rw [bitField, operateWord, BitVec.extractLsb'_append_eq_right]

theorem decode_of_st {e : Encoding} {w : Word} (h : e.opcodeOf w = .st) :
    e.decode w = .st (regField w e.sr) (bitField w e.pcOffset9 9) := by
  rw [Encoding.decode, h]

theorem decode_of_str {e : Encoding} {w : Word} (h : e.opcodeOf w = .str) :
    e.decode w = .str (regField w e.sr) (regField w e.baseR) (bitField w e.offset6 6) := by
  rw [Encoding.decode, h]

theorem decode_st (r : Reg) (o : BitVec 9) :
    Encoding.published.decode (0b0011#4 ++ regBits r ++ o) = .st r o := by
  rw [← pcRelativeWord, decode_of_st (opcodeOf_pcRelativeWord _ _ _ _)]
  simp [Encoding.published]

theorem decode_str (r b : Reg) (o : BitVec 6) :
    Encoding.published.decode (0b0111#4 ++ regBits r ++ regBits b ++ o) = .str r b o := by
  rw [← operateWord, decode_of_str (opcodeOf_operateWord _ _ _ _ _)]
  simp [Encoding.published]

/-! ### The stored cell and the frame -/

/-- The model's base-plus-offset address is the base register plus the signed value of the offset,
modulo 2^16. -/
theorem State.baseOffset_eq_ofInt (s : State) (b : Reg) (o : BitVec 6) :
    s.baseOffset b o = s.reg b + BitVec.ofInt 16 o.toInt := by
  rw [State.baseOffset, sext_eq_ofInt (by decide)]

/-- What every store without a memory read does, whatever address `a` it computes. The keyboard cells
are no exception (rule R57). -/
theorem exec_memWrite {i : Instr} {s : State} {a v : Word} (hwf : s.mem.wf)
    (h : exec i s = .next (s.memWrite a v)) :
    ∃ t, exec i s = .next t ∧ t.mem.read a = v ∧ t.pc = s.pc ∧ t.cond = s.cond ∧
      Frame [] [a] s t :=
  ⟨s.memWrite a v, h, Memory.read_write_same hwf a v, rfl, rfl, frame_memWrite a v s⟩

/-- Settles O14: ST is one memory write, at the PC-relative address. -/
theorem stStoresPcRelative : Obligations.StStoresPcRelative := by
  refine ⟨decode_st, fun r o s hwf => ?_⟩
  rw [← State.pcRelative_eq_ofInt (by decide)]
  exact exec_memWrite hwf rfl

/-- Settles O16: STR is one memory write, at the base-plus-offset address; base and source are both
read before it, so they may be one register. -/
theorem strStoresBaseOffset : Obligations.StrStoresBaseOffset := by
  refine ⟨decode_str, fun r b o s hwf => ?_⟩
  rw [← State.baseOffset_eq_ofInt]
  exact exec_memWrite hwf rfl

end Sys2Proof.Machine

/-! ## OUT (rule R163) -/

namespace Sys2Proof.Machine

open Sys2Proof.Safety Sys2Proof.Statements

/-! ### The words of the TRAP format (rule R86) -/

/-- A TRAP word: opcode, the four ignored bits `x`, and the vector. -/
def trapWord (op x : BitVec 4) (v : BitVec 8) : Word := op ++ x ++ v

section TrapWord

variable (op x : BitVec 4) (v : BitVec 8)

theorem opcodeOf_trapWord (e : Encoding) :
    e.opcodeOf (trapWord op x v) = e.opcodes.get op.toFin := by
  rw [Encoding.opcodeOf, bitField, trapWord, BitVec.extractLsb'_append_eq_of_le (by decide),
    BitVec.extractLsb'_append_eq_of_le (by decide), BitVec.extractLsb'_eq_self]

@[simp] theorem vector_trapWord : bitField (trapWord op x v) 0 8 = v := by
  rw [bitField, trapWord, BitVec.extractLsb'_append_eq_right]

end TrapWord

/-! ### Decoding (rules R91, R160) -/

theorem decode_of_trap {e : Encoding} {w : Word} (h : e.opcodeOf w = .trap) :
    e.decode w = decodeTrap w := by
  rw [Encoding.decode, h]

/-- Under the published table a TRAP word decodes by its vector. -/
theorem decode_trapWord (x : BitVec 4) (v : BitVec 8) :
    Encoding.published.decode (0b1111#4 ++ x ++ v) = decodeTrap (trapWord 0b1111#4 x v) := by
  rw [← trapWord, decode_of_trap (opcodeOf_trapWord _ _ _ _)]

theorem decode_trapOut (x : BitVec 4) :
    Encoding.published.decode (0b1111#4 ++ x ++ 0x21#8) = .trapOut := by
  rw [decode_trapWord, decodeTrap, vector_trapWord]
  rfl

/-! ### The link, the output and the frame -/

theorem trapFrame_link_emit (bs : List Byte) (s : State) : TrapFrame [7] s (s.link.emit bs) := by
  refine ⟨fun r hr => ?_, fun _ _ => rfl, rfl, rfl, rfl, rfl, rfl, rfl, rfl⟩
  simp only [List.mem_singleton] at hr
  simp [hr]

/-- What every service that only writes does, whatever bytes `bs` it writes. -/
theorem exec_link_emit {i : Instr} {s : State} {bs : List Byte}
    (h : exec i s = .next (s.link.emit bs)) :
    ∃ t, exec i s = .next t ∧ t.reg 7 = s.pc ∧ t.output = s.output ++ bs ∧ t.input = s.input ∧
      t.cond = s.cond ∧ t.hold = s.hold ∧ TrapFrame [7] s t :=
  ⟨s.link.emit bs, h, by simp, rfl, rfl, rfl, rfl, trapFrame_link_emit bs s⟩

/-- R0 is read after the link write (rule R160), which leaves it alone. -/
theorem exec_trapOut (s : State) :
    exec .trapOut s = .next (s.link.emit [(s.reg 0).setWidth 8]) := by
  rw [exec, execTrapOut, State.out, lowByte_eq_setWidth, State.link_reg, if_neg (by decide)]

/-- Settles O18: OUT is the link write and one emitted byte. -/
theorem outWritesLowByte : Obligations.OutWritesLowByte :=
  ⟨decode_trapOut, fun s => exec_link_emit (exec_trapOut s)⟩

end Sys2Proof.Machine

/-! ## RTI and RES (rules R180, R181) -/

namespace Sys2Proof.Machine

open Sys2Proof.Safety Sys2Proof.Statements

/-! ### Decoding (rules R86, R91)

The reserved formats are an opcode and twelve ignored bits. -/

theorem opcodeOf_append (e : Encoding) (op : BitVec 4) (x : BitVec 12) :
    e.opcodeOf (op ++ x) = e.opcodes.get op.toFin := by
  rw [Encoding.opcodeOf, bitField, BitVec.extractLsb'_append_eq_left]

theorem decode_of_rti {e : Encoding} {w : Word} (h : e.opcodeOf w = .rti) : e.decode w = .rti w := by
  rw [Encoding.decode, h]

theorem decode_of_res {e : Encoding} {w : Word} (h : e.opcodeOf w = .res) : e.decode w = .res w := by
  rw [Encoding.decode, h]

/-! ### The fault and the frame -/

theorem raiseFrame_raise (k : FaultKind) (w a : Word) (s : State) :
    RaiseFrame [] s (s.raise k w a) :=
  ⟨fun _ _ => rfl, fun _ _ => rfl, ⟨rfl, rfl⟩, rfl, rfl, rfl, ⟨rfl, rfl, rfl, rfl⟩⟩

/-- What every instruction that only faults does, whatever record it writes (rules R190, R192). -/
theorem exec_raise {i : Instr} {s : State} {k : FaultKind} {w a : Word}
    (h : exec i s = .next (s.raise k w a)) :
    ∃ t, exec i s = .next t ∧ t.run = .faulted ∧
      t.fault = some { kind := k, instr := w, addr := a } ∧ RaiseFrame [] s t :=
  ⟨s.raise k w a, h, State.raise_run s k w a, State.raise_fault s k w a, raiseFrame_raise k w a s⟩

/-- Settles O24: the published table has RTI under 1000, and RTI only raises its fault. -/
theorem rtiFaults : Obligations.RtiFaults :=
  ⟨fun x => decode_of_rti (opcodeOf_append _ 0b1000#4 x), fun _ _ => exec_raise rfl⟩

/-- Settles O25: the published table has RES under 1101, and RES only raises its fault. -/
theorem resFaults : Obligations.ResFaults :=
  ⟨fun x => decode_of_res (opcodeOf_append _ 0b1101#4 x), fun _ _ => exec_raise rfl⟩

end Sys2Proof.Machine

/-! ## Decoding what was encoded (rules R84 to R91) -/

namespace Sys2Proof

open Sys2Proof.Machine Sys2Proof.Laws

/-! ### Each kind of field past a put of each kind

One spelling for every pair, so that `simp` reads a field of an encoding back through the other
fields. -/

section Fields

variable {lo lo' : Nat} (w : Word)

theorem bitField_putReg_of_disjoint {n : Nat} (r : Reg) (h : lo + 3 ≤ lo' ∨ lo' + n ≤ lo)
    (h' : lo' + n ≤ 12) : bitField (putReg lo r w) lo' n = bitField w lo' n :=
  bitField_putField_of_disjoint _ w h (by omega)

theorem bitField_putFlag_of_disjoint {n : Nat} (b : Bool) (h : lo + 1 ≤ lo' ∨ lo' + n ≤ lo)
    (h' : lo' + n ≤ 12) : bitField (putFlag lo b w) lo' n = bitField w lo' n :=
  bitField_putField_of_disjoint _ w h (by omega)

theorem regField_putReg_of_disjoint (r : Reg) (h : lo + 3 ≤ lo' ∨ lo' + 3 ≤ lo)
    (h' : lo' + 3 ≤ 12) : regField (putReg lo r w) lo' = regField w lo' :=
  regField_putField_of_disjoint _ w h h'

theorem regField_putFlag_of_disjoint (b : Bool) (h : lo + 1 ≤ lo' ∨ lo' + 3 ≤ lo)
    (h' : lo' + 3 ≤ 12) : regField (putFlag lo b w) lo' = regField w lo' :=
  regField_putField_of_disjoint _ w h h'

theorem flagField_putReg_of_disjoint (r : Reg) (h : lo + 3 ≤ lo' ∨ lo' + 1 ≤ lo)
    (h' : lo' + 1 ≤ 12) : flagField (putReg lo r w) lo' = flagField w lo' :=
  flagField_putField_of_disjoint _ w h h'

theorem flagField_putFlag_of_disjoint (b : Bool) (h : lo + 1 ≤ lo' ∨ lo' + 1 ≤ lo)
    (h' : lo' + 1 ≤ 12) : flagField (putFlag lo b w) lo' = flagField w lo' :=
  flagField_putField_of_disjoint _ w h h'

end Fields

/-! ### The fields of each format, read back

The words are those the encoder builds on a word `w` that holds the opcode. -/

section Formats

variable {dr sr1 sr2 imm imm5 baseR long offset6 offset9 offset11 maskN maskZ maskP : Nat}
  {v w : Word}

theorem fields_registerMode (hfit : fieldsFit [(dr, 3), (sr1, 3), (imm, 1), (sr2, 3)] = true)
    (d a b : Reg) (flag : Bool)
    (hv : v = putReg dr d (putReg sr1 a (putFlag imm flag (putReg sr2 b w)))) :
    regField v dr = d ∧ regField v sr1 = a ∧ flagField v imm = flag ∧ regField v sr2 = b := by
  simp [fieldsFit, disjointFields] at hfit
  subst hv
  simp (disch := omega) [regField_putReg_same, flagField_putFlag_same, regField_putReg_of_disjoint,
    regField_putFlag_of_disjoint, flagField_putReg_of_disjoint]

theorem fields_immediateMode (hfit : fieldsFit [(dr, 3), (sr1, 3), (imm, 1), (imm5, 5)] = true)
    (d a : Reg) (flag : Bool) (i : BitVec 5)
    (hv : v = putReg dr d (putReg sr1 a (putFlag imm flag (putField imm5 i w)))) :
    regField v dr = d ∧ regField v sr1 = a ∧ flagField v imm = flag ∧ bitField v imm5 5 = i := by
  simp [fieldsFit, disjointFields] at hfit
  subst hv
  simp (disch := omega) [regField_putReg_same, flagField_putFlag_same, bitField_putField_same,
    regField_putReg_of_disjoint, flagField_putReg_of_disjoint, bitField_putReg_of_disjoint,
    bitField_putFlag_of_disjoint]

theorem fields_twoRegisters (hfit : fieldsFit [(dr, 3), (sr1, 3)] = true) (d a : Reg)
    (hv : v = putReg dr d (putReg sr1 a w)) : regField v dr = d ∧ regField v sr1 = a := by
  simp [fieldsFit, disjointFields] at hfit
  subst hv
  simp (disch := omega) [regField_putReg_same, regField_putReg_of_disjoint]

theorem fields_branch
    (hfit : fieldsFit [(maskN, 1), (maskZ, 1), (maskP, 1), (offset9, 9)] = true)
    (n z p : Bool) (o : BitVec 9)
    (hv : v = putFlag maskN n (putFlag maskZ z (putFlag maskP p (putField offset9 o w)))) :
    flagField v maskN = n ∧ flagField v maskZ = z ∧ flagField v maskP = p ∧
      bitField v offset9 9 = o := by
  simp [fieldsFit, disjointFields] at hfit
  subst hv
  simp (disch := omega) [flagField_putFlag_same, bitField_putField_same,
    flagField_putFlag_of_disjoint, bitField_putFlag_of_disjoint]

theorem fields_longOffset (hfit : fieldsFit [(long, 1), (offset11, 11)] = true)
    (flag : Bool) (o : BitVec 11) (hv : v = putFlag long flag (putField offset11 o w)) :
    flagField v long = flag ∧ bitField v offset11 11 = o := by
  simp [fieldsFit, disjointFields] at hfit
  subst hv
  simp (disch := omega) [flagField_putFlag_same, bitField_putField_same,
    bitField_putFlag_of_disjoint]

theorem fields_longRegister (hfit : fieldsFit [(long, 1), (baseR, 3)] = true)
    (flag : Bool) (b : Reg) (hv : v = putFlag long flag (putReg baseR b w)) :
    flagField v long = flag ∧ regField v baseR = b := by
  simp [fieldsFit, disjointFields] at hfit
  subst hv
  simp (disch := omega) [flagField_putFlag_same, regField_putReg_same,
    regField_putFlag_of_disjoint]

/-- `dr` stands for the SR field of the stores too. -/
theorem fields_pcRelative (hfit : fieldsFit [(dr, 3), (offset9, 9)] = true)
    (d : Reg) (o : BitVec 9) (hv : v = putReg dr d (putField offset9 o w)) :
    regField v dr = d ∧ bitField v offset9 9 = o := by
  simp [fieldsFit, disjointFields] at hfit
  subst hv
  simp (disch := omega) [regField_putReg_same, bitField_putField_same,
    bitField_putReg_of_disjoint]

/-- `dr` stands for the SR field of the stores too. -/
theorem fields_baseOffset (hfit : fieldsFit [(dr, 3), (baseR, 3), (offset6, 6)] = true)
    (d b : Reg) (o : BitVec 6)
    (hv : v = putReg dr d (putReg baseR b (putField offset6 o w))) :
    regField v dr = d ∧ regField v baseR = b ∧ bitField v offset6 6 = o := by
  simp [fieldsFit, disjointFields] at hfit
  subst hv
  simp (disch := omega) [regField_putReg_same, bitField_putField_same,
    regField_putReg_of_disjoint, bitField_putReg_of_disjoint]

end Formats

/-! ### The decoder, by opcode -/

theorem decode_of_ld {e : Encoding} {w : Word} (h : e.opcodeOf w = .ld) :
    e.decode w = .ld (regField w e.dr) (bitField w e.pcOffset9 9) := by
  rw [Encoding.decode, h]

theorem decode_of_ldi {e : Encoding} {w : Word} (h : e.opcodeOf w = .ldi) :
    e.decode w = .ldi (regField w e.dr) (bitField w e.pcOffset9 9) := by
  rw [Encoding.decode, h]

theorem decode_of_ldr {e : Encoding} {w : Word} (h : e.opcodeOf w = .ldr) :
    e.decode w = .ldr (regField w e.dr) (regField w e.baseR) (bitField w e.offset6 6) := by
  rw [Encoding.decode, h]

theorem decode_of_sti {e : Encoding} {w : Word} (h : e.opcodeOf w = .sti) :
    e.decode w = .sti (regField w e.sr) (bitField w e.pcOffset9 9) := by
  rw [Encoding.decode, h]

/-! ### TRAP by its vector (rules R160, R161) -/

theorem recognisedVector_iff (v : BitVec 8) :
    recognisedVector v = true ↔ 0x20 ≤ v.toNat ∧ v.toNat ≤ 0x25 := by
  simp [recognisedVector, BitVec.le_def]

/-- A recognised vector has a service of its own. -/
theorem decodeTrap_of_recognised {w : Word} (h : recognisedVector (bitField w 0 8) = true) :
    (decodeTrap w).illegal = false := by
  rw [recognisedVector_iff] at h
  obtain hv | hv | hv | hv | hv | hv : (bitField w 0 8).toNat = 0x20 ∨
      (bitField w 0 8).toNat = 0x21 ∨ (bitField w 0 8).toNat = 0x22 ∨
      (bitField w 0 8).toNat = 0x23 ∨ (bitField w 0 8).toNat = 0x24 ∨
      (bitField w 0 8).toNat = 0x25 := by omega
  all_goals rw [decodeTrap, hv]; rfl

/-- Any other vector is the faulting form. -/
theorem decodeTrap_of_not_recognised {w : Word} (h : recognisedVector (bitField w 0 8) = false) :
    decodeTrap w = .trapUnknown w := by
  rw [Bool.eq_false_iff, Ne, recognisedVector_iff] at h
  unfold decodeTrap
  split
  case h_7 => rfl
  all_goals omega

/-! ### The round trip -/

/-- The word of an instruction has the instruction's opcode. -/
theorem opcodeOf_encode {e : Encoding} (he : e.wf = true) {i : Instr} (hi : i.wf e = true) :
    e.opcodeOf (e.encode i) = i.opcode := by
  cases i with
  | addReg => exact OpcodeOfEncode.addReg _ _ _ e he hi
  | addImm => exact OpcodeOfEncode.addImm _ _ _ e he hi
  | andReg => exact OpcodeOfEncode.andReg _ _ _ e he hi
  | andImm => exact OpcodeOfEncode.andImm _ _ _ e he hi
  | not => exact OpcodeOfEncode.not _ _ e he hi
  | br => exact OpcodeOfEncode.br _ _ _ _ e he hi
  | jmp => exact OpcodeOfEncode.jmp _ e he hi
  | jsr => exact OpcodeOfEncode.jsr _ e he hi
  | jsrr => exact OpcodeOfEncode.jsrr _ e he hi
  | ld => exact OpcodeOfEncode.ld _ _ e he hi
  | ldi => exact OpcodeOfEncode.ldi _ _ e he hi
  | ldr => exact OpcodeOfEncode.ldr _ _ _ e he hi
  | lea => exact OpcodeOfEncode.lea _ _ e he hi
  | st => exact OpcodeOfEncode.st _ _ e he hi
  | sti => exact OpcodeOfEncode.sti _ _ e he hi
  | str => exact OpcodeOfEncode.str _ _ _ e he hi
  | trapGetc => exact OpcodeOfEncode.trapGetc e he hi
  | trapOut => exact OpcodeOfEncode.trapOut e he hi
  | trapPuts => exact OpcodeOfEncode.trapPuts e he hi
  | trapIn => exact OpcodeOfEncode.trapIn e he hi
  | trapPutsp => exact OpcodeOfEncode.trapPutsp e he hi
  | trapHalt => exact OpcodeOfEncode.trapHalt e he hi
  | trapUnknown => exact OpcodeOfEncode.trapUnknown _ e he hi
  | rti => exact OpcodeOfEncode.rti _ e he hi
  | res => exact OpcodeOfEncode.res _ e he hi

/-- Settles O53: the opcode selects the format, and then each field of it reads back what was put
there; a faulting form is its own word. -/
theorem decodeEncodeRoundTrip : Obligations.DecodeEncodeRoundTrip := by
  intro e he i hi
  have hop := opcodeOf_encode he hi
  generalize hv : e.encode i = v at hop ⊢
  cases i with
  | addReg d a b | andReg d a b =>
    obtain ⟨hd, ha, hflag, hb⟩ := fields_registerMode
      (Encoding.wf_fits he (by simp [Encoding.formats])) d a b false hv.symm
    simp [Encoding.decode, hop, Instr.opcode, hd, ha, hflag, hb]
  | addImm d a imm | andImm d a imm =>
    obtain ⟨hd, ha, hflag, himm⟩ := fields_immediateMode
      (Encoding.wf_fits he (by simp [Encoding.formats])) d a true imm hv.symm
    simp [Encoding.decode, hop, Instr.opcode, hd, ha, hflag, himm]
  | not d a =>
    obtain ⟨hd, ha⟩ := fields_twoRegisters
      (Encoding.wf_fits he (by simp [Encoding.formats])) d a hv.symm
    simp [Encoding.decode, hop, Instr.opcode, hd, ha]
  | br n z p o =>
    obtain ⟨hn, hz, hp, ho⟩ := fields_branch
      (Encoding.wf_fits he (by simp [Encoding.formats])) n z p o hv.symm
    simp [Encoding.decode, hop, Instr.opcode, hn, hz, hp, ho]
  | jmp b =>
    have hb : regField v e.baseR = b :=
      hv ▸ regField_putReg_same b _ (Encoding.bounds he).baseR
    simp [Encoding.decode, hop, Instr.opcode, hb]
  | jsr o =>
    obtain ⟨hflag, ho⟩ := fields_longOffset
      (Encoding.wf_fits he (by simp [Encoding.formats])) true o hv.symm
    simp [Encoding.decode, hop, Instr.opcode, hflag, ho]
  | jsrr b =>
    obtain ⟨hflag, hb⟩ := fields_longRegister
      (Encoding.wf_fits he (by simp [Encoding.formats])) false b hv.symm
    simp [Encoding.decode, hop, Instr.opcode, hflag, hb]
  | ld d o | ldi d o | lea d o | st d o | sti d o =>
    obtain ⟨hd, ho⟩ := fields_pcRelative
      (Encoding.wf_fits he (by simp [Encoding.formats])) d o hv.symm
    simp [Encoding.decode, hop, Instr.opcode, hd, ho]
  | ldr d b o | str d b o =>
    obtain ⟨hd, hb, ho⟩ := fields_baseOffset
      (Encoding.wf_fits he (by simp [Encoding.formats])) d b o hv.symm
    simp [Encoding.decode, hop, Instr.opcode, hd, hb, ho]
  | trapGetc | trapOut | trapPuts | trapIn | trapPutsp | trapHalt =>
    rw [decode_of_trap hop, decodeTrap, ← hv, Encoding.encode, bitField_base_low]
    rfl
  | trapUnknown w =>
    obtain ⟨-, hvector⟩ := Bool.and_eq_true_iff.mp hi
    obtain rfl : w = v := hv
    exact (decode_of_trap hop).trans
      (decodeTrap_of_not_recognised (Bool.not_eq_eq_eq_not.mp hvector))
  | rti w => obtain rfl : w = v := hv; exact decode_of_rti hop
  | res w => obtain rfl : w = v := hv; exact decode_of_res hop

/-! ### Which words are illegal (rule R89) -/

/-- A word is illegal by its opcode, or as a TRAP by its vector. -/
theorem illegal_decode_iff (e : Encoding) (w : Word) :
    (e.decode w).illegal = true ↔
      e.opcodeOf w = .rti ∨ e.opcodeOf w = .res ∨
        (e.opcodeOf w = .trap ∧ recognisedVector (bitField w 0 8) = false) := by
  cases hop : e.opcodeOf w with
  | trap =>
    rw [decode_of_trap hop]
    cases hv : recognisedVector (bitField w 0 8) with
    | true => simp [decodeTrap_of_recognised hv]
    | false => simp [decodeTrap_of_not_recognised hv, Instr.illegal]
  | add | and | jsr => rw [Encoding.decode, hop]; dsimp only; split <;> simp [Instr.illegal]
  | _ => rw [Encoding.decode, hop]; simp [Instr.illegal]

theorem Instr.wf_of_legal (e : Encoding) {i : Instr} (h : i.illegal = false) : i.wf e = true := by
  cases i with
  | trapUnknown | rti | res => cases h
  | _ => rfl

/-- Settles O54: a decoded faulting form carries the word it was decoded from, whose opcode and
vector make it that form; no other form has a check. -/
theorem decodedInstructionsAreWellFormed : Obligations.DecodedInstructionsAreWellFormed := by
  intro e w
  cases hop : e.opcodeOf w with
  | trap =>
    rw [decode_of_trap hop]
    cases hv : recognisedVector (bitField w 0 8) with
    | true => exact Instr.wf_of_legal e (decodeTrap_of_recognised hv)
    | false =>
      rw [decodeTrap_of_not_recognised hv]
      exact Bool.and_eq_true_iff.mpr ⟨beq_iff_eq.mpr hop, Bool.not_eq_eq_eq_not.mpr hv⟩
  | rti => rw [decode_of_rti hop]; exact beq_iff_eq.mpr hop
  | res => rw [decode_of_res hop]; exact beq_iff_eq.mpr hop
  | _ => exact Instr.wf_of_legal e (Bool.eq_false_iff.mpr (by simp [illegal_decode_iff, hop]))

/-- The three opcodes of the faulting forms in the published table. -/
theorem published_opcodes (k : Fin 16) :
    (Encoding.published.opcodes.get k = .rti ↔ k.val = 0x8) ∧
      (Encoding.published.opcodes.get k = .res ↔ k.val = 0xD) ∧
      (Encoding.published.opcodes.get k = .trap ↔ k.val = 0xF) := by
  revert k; decide

/-- Settles O55: an illegal word is one by its opcode or its vector, which are its top four bits and
its low byte. -/
theorem illegalWordsAreThese : Obligations.IllegalWordsAreThese := by
  intro w
  have hop : ((bitField w 12 4).toFin : Fin 16).val = w.toNat / 4096 := by
    have hlt := w.isLt
    simp only [bitField, BitVec.extractLsb'_toNat, BitVec.val_toFin, Nat.shiftRight_eq_div_pow]
    omega
  obtain ⟨hrti, hres, htrap⟩ := published_opcodes (bitField w 12 4).toFin
  have hv : (bitField w 0 8).toNat = w.toNat % 256 := by simp [bitField]
  rw [illegal_decode_iff, Bool.eq_false_iff, Ne, recognisedVector_iff, hv, Encoding.opcodeOf, hrti,
    hres, htrap, hop]

/-- Settles O56: eight closed facts about the decoder. -/
theorem sampleWordsDecode : Obligations.SampleWordsDecode := by
  unfold Obligations.SampleWordsDecode
  decide

/-- Settles O59: eight masks and three codes. -/
theorem brTestsTheOneHotCode : Obligations.BrTestsTheOneHotCode := by
  refine ⟨⟨rfl, rfl, rfl⟩, fun n z p c => ?_⟩
  cases c with
  | negative | zero | positive => revert n z p; decide

end Sys2Proof

/-! ## JSRR (rule R133) -/

namespace Sys2Proof.Machine

open Sys2Proof.Safety

/-- A JSRR word has the operate format's layout: the flag and two ignored bits where DR stands,
BaseR in the place of the first source. -/
theorem decode_jsrr (x : BitVec 2) (b : Reg) (y : BitVec 6) :
    Encoding.published.decode (0b0100#4 ++ 0b0#1 ++ x ++ regBits b ++ y) = .jsrr b := by
  have hx : (0b0#1 ++ x : BitVec 3) = regBits (0b0#1 ++ x : BitVec 3).toFin := by simp [regBits]
  have hword : 0b0100#4 ++ 0b0#1 ++ x ++ regBits b ++ y =
      operateWord 0b0100#4 (0b0#1 ++ x : BitVec 3).toFin b y := by
    rw [operateWord, ← hx, BitVec.append_assoc (x₁ := 0b0100#4) (x₂ := 0b0#1)]
    rfl
  have hflag : flagField (0b0100#4 ++ 0b0#1 ++ x ++ regBits b ++ y) 11 = false := by
    rw [flagField]
    iterate 4 rw [BitVec.getLsbD_append]
    rfl
  rw [hword] at hflag ⊢
  rw [decode_of_jsr (opcodeOf_operateWord _ _ _ _ _)]
  simp [Encoding.published, hflag]

/-- Settles O9: JSRR is a transfer with a link, to its base register as it is after the link write.
-/
theorem jsrrLinksBeforeItReads : Obligations.JsrrLinksBeforeItReads := by
  refine ⟨decode_jsrr, fun b s => ?_⟩
  rw [← State.link_reg]
  exact exec_link_setPc rfl

end Sys2Proof.Machine

/-! ## The keyboard poll (rules R55, R56) -/

namespace Sys2Proof.Machine

open Sys2Proof.Safety Sys2Proof.Statements

theorem kbPoll_worldKept (s : State) : WorldKept s.environmentActs s.kbPoll := by simp [WorldKept]

/-- Settles O46: the two forms of the poll, cell by cell; the rest of the state by its field lemmas.
-/
theorem pollLatchesOrClears : Obligations.PollLatchesOrClears := by
  rintro s ⟨hwf, hne⟩
  refine ⟨fun c rest hq => ⟨by simp [hq], State.kbPoll_read_kbsr_cons hwf hne hq, ?_, ?_⟩,
    fun hq => ⟨by simp [hq], State.kbPoll_read_kbsr_nil hwf hq, fun a ha => ?_⟩,
    by simp, by simp, by simp, by simp, by simp [RunKept], kbPoll_worldKept s⟩
  · rw [State.kbPoll_read_kbdr_cons hwf hq, zext8_eq_setWidth]
  · intro a ha
    obtain ⟨hkbsr, hkbdr⟩ : a ≠ s.config.kbsrAddr ∧ a ≠ s.config.kbdrAddr := by simpa using ha
    exact State.kbPoll_read_of_ne hkbsr hkbdr
  · rw [State.kbPoll_nil hq]
    simpa using Memory.read_write_of_ne _ _ (by simpa using ha)

/-- What a poll answers does not depend on what memory holds (rule R56, point 5). -/
theorem memRead_kbsr_congr {s t : State} (hwf : s.mem.wf) (hwf' : t.mem.wf)
    (hne : s.config.kbsrAddr ≠ s.config.kbdrAddr) (hi : t.input = s.input) (hw : WorldKept s t) :
    (t.memRead s.config.kbsrAddr).1 = (s.memRead s.config.kbsrAddr).1 := by
  obtain ⟨hq, -⟩ := environmentActs_of_world hi hw
  obtain ⟨-, -, -, hconfig⟩ := hw
  cases hin : s.environmentActs.input with
  | nil =>
    rw [State.memRead_kbsr_nil hwf hin, ← hconfig, State.memRead_kbsr_nil hwf' (hq.trans hin)]
  | cons c rest =>
    rw [State.memRead_kbsr_cons hwf hne hin, ← hconfig,
      State.memRead_kbsr_cons hwf' (hconfig ▸ hne) (hq.trans hin)]

/-- Settles O47: two polls in a row, each by what one poll does to the two cells; the stores by the
laws of one cell. -/
theorem pollConsequences : Obligations.PollConsequences := by
  rintro s ⟨hwf, hne⟩
  have hwf' : s.kbPoll.mem.wf := State.kbPoll_wf hwf
  have hconfig : s.kbPoll.config = s.config := State.kbPoll_config s
  refine ⟨fun c d q rest hc hd => ⟨?_, ?_, by simp [hd]⟩, fun c q hc hd => ⟨?_, ?_⟩,
    State.memRead_of_ne hne.symm, fun v => ?_, fun v => ?_⟩
  · rw [State.kbPoll_read_kbdr_cons hwf hc, zext8_eq_setWidth]
  · rw [← hconfig, State.kbPoll_read_kbdr_cons hwf' hd, zext8_eq_setWidth]
  · rw [← hconfig, State.kbPoll_read_kbsr_nil hwf' hd]
  · rw [← hconfig, State.kbPoll_read_kbdr_nil (hconfig ▸ hne) hd, hconfig,
      State.kbPoll_read_kbdr_cons hwf hc, zext8_eq_setWidth]
  · exact memRead_kbsr_congr hwf (State.memWrite_wf hwf _ v) hne rfl ⟨rfl, rfl, rfl, rfl⟩
  · rw [State.memRead_of_ne (s := s.memWrite s.config.kbdrAddr v) hne.symm]
    exact Memory.read_write_same hwf _ v

end Sys2Proof.Machine

/-! ## Loads and STI (rules R140 to R142, R151) -/

namespace Sys2Proof.Machine

open Sys2Proof.Safety Sys2Proof.Statements

/-! ### Decoding (rule R91) -/

theorem decode_ld (d : Reg) (o : BitVec 9) :
    Encoding.published.decode (0b0010#4 ++ regBits d ++ o) = .ld d o := by
  rw [← pcRelativeWord, decode_of_ld (opcodeOf_pcRelativeWord _ _ _ _)]
  simp [Encoding.published]

theorem decode_ldi (d : Reg) (o : BitVec 9) :
    Encoding.published.decode (0b1010#4 ++ regBits d ++ o) = .ldi d o := by
  rw [← pcRelativeWord, decode_of_ldi (opcodeOf_pcRelativeWord _ _ _ _)]
  simp [Encoding.published]

theorem decode_sti (r : Reg) (o : BitVec 9) :
    Encoding.published.decode (0b1011#4 ++ regBits r ++ o) = .sti r o := by
  rw [← pcRelativeWord, decode_of_sti (opcodeOf_pcRelativeWord _ _ _ _)]
  simp [Encoding.published]

/-- An LDR word has the operate format's layout, as STR has. -/
theorem decode_ldr (d b : Reg) (o : BitVec 6) :
    Encoding.published.decode (0b0110#4 ++ regBits d ++ regBits b ++ o) = .ldr d b o := by
  rw [← operateWord, decode_of_ldr (opcodeOf_operateWord _ _ _ _ _)]
  simp [Encoding.published]

/-! ### One read and its result -/

theorem sound_memRead {s : State} (hs : Sound s) (a : Word) : Sound (s.memRead a).2 := by
  obtain ⟨hwf, hne⟩ := hs
  exact ⟨State.pollAt_wf hwf a, by simpa using hne⟩

/-- A read is a load without a result. -/
theorem memRead_loadFrame (s : State) (a : Word) : LoadFrame [] s (s.memRead a).2 := by
  obtain ⟨hregs, hout, hrun, -⟩ := memRead_frame s a
  exact ⟨hregs, hout, hrun⟩

theorem loadFrame_after_read {rs : List Reg} {s m t : State} (hsm : LoadFrame [] s m)
    (hmt : LoadFrame rs m t) : LoadFrame rs s t := by
  obtain ⟨hregs, hout, hrun, hfault, hhold⟩ := hsm
  obtain ⟨hregs', hout', hrun', hfault', hhold'⟩ := hmt
  exact ⟨fun r hr => (hregs' r hr).trans (hregs r (List.not_mem_nil)), hout'.trans hout,
    hrun'.trans hrun, hfault'.trans hfault, hhold'.trans hhold⟩

/-- What every load does with the address `a` it computes: one read, whose answer is the result. -/
theorem loadFrom_spec {s : State} (hs : Sound s) (d : Reg) (a : Word) :
    ReadGives s a ((s.loadFrom d a).reg d) (s.loadFrom d a) ∧
      CondAgrees ((s.loadFrom d a).reg d) (s.loadFrom d a).cond ∧
      (s.loadFrom d a).pc = s.pc ∧ LoadFrame [d] s (s.loadFrom d a) := by
  obtain ⟨hwf, hne⟩ := hs
  have hreg : (s.loadFrom d a).reg d = (s.memRead a).1 := by simp [State.loadFrom]
  rw [hreg]
  refine ⟨ReadGives_congr (memRead_readGives hwf hne a) rfl rfl ⟨rfl, rfl, rfl, rfl⟩ rfl rfl
    ⟨rfl, rfl, rfl, rfl⟩, ?_, by simp [State.loadFrom], ⟨fun r hr => ?_, ?_, ?_⟩⟩
  · rw [State.loadFrom, State.setResult_cond]
    exact condAgrees_condOf _
  · have hrd : r ≠ d := by simpa using hr
    simp [State.loadFrom, hrd]
  · simp [State.loadFrom]
  · simp [State.loadFrom, RunKept]

/-- Settles O10: LD is one load, from the PC-relative address. -/
theorem ldLoadsPcRelative : Obligations.LdLoadsPcRelative := by
  refine ⟨decode_ld, fun d o s hs => ⟨s.loadFrom d (s.pcRelative o), rfl, ?_⟩⟩
  rw [← State.pcRelative_eq_ofInt (by decide)]
  exact loadFrom_spec hs d _

/-- Settles O12: LDR is one load, from the base-plus-offset address. -/
theorem ldrLoadsBaseOffset : Obligations.LdrLoadsBaseOffset := by
  refine ⟨decode_ldr, fun d b o s hs => ⟨s.loadFrom d (s.baseOffset b o), rfl, ?_⟩⟩
  rw [← State.baseOffset_eq_ofInt]
  exact loadFrom_spec hs d _

/-- Settles O11: LDI is the read of the pointer, then a load from it. -/
theorem ldiLoadsThroughPointer : Obligations.LdiLoadsThroughPointer := by
  refine ⟨decode_ldi, fun d o s hs => ?_⟩
  rw [← State.pcRelative_eq_ofInt (by decide)]
  obtain ⟨hread, hcond, hpc, hframe⟩ :=
    loadFrom_spec (sound_memRead hs (s.pcRelative o)) d (s.memRead (s.pcRelative o)).1
  obtain ⟨hwf, hne⟩ := hs
  exact ⟨_, _, _, rfl, memRead_readGives hwf hne _, hread, hcond, hpc.trans (by simp),
    loadFrame_after_read (memRead_loadFrame s _) hframe⟩

/-- Settles O15: STI is the read of the pointer, then one memory write at it. -/
theorem stiStoresThroughPointer : Obligations.StiStoresThroughPointer := by
  refine ⟨decode_sti, fun r o s hs => ?_⟩
  rw [← State.pcRelative_eq_ofInt (by decide)]
  obtain ⟨hwf, hne⟩ := hs
  obtain ⟨-, hcells, ⟨hin, -⟩, -, hworld⟩ :=
    frame_memWrite (s.indirect o).1 (s.reg r) (s.indirect o).2
  exact ⟨_, _, _, rfl, memRead_readGives hwf hne _,
    Memory.read_write_same (State.pollAt_wf hwf _) _ _, hcells, hin, hworld,
    by simp [State.indirect], by simp [State.indirect], memRead_loadFrame s _⟩

end Sys2Proof.Machine

/-! ## GETC, IN, HALT and the unknown vector (rules R162, R165, R167, R168) -/

namespace Sys2Proof.Machine

open Sys2Proof.Safety Sys2Proof.Statements

/-! ### Decoding (rules R91, R160) -/

theorem decode_trapGetc (x : BitVec 4) :
    Encoding.published.decode (0b1111#4 ++ x ++ 0x20#8) = .trapGetc := by
  rw [decode_trapWord, decodeTrap, vector_trapWord]
  rfl

theorem decode_trapPuts (x : BitVec 4) :
    Encoding.published.decode (0b1111#4 ++ x ++ 0x22#8) = .trapPuts := by
  rw [decode_trapWord, decodeTrap, vector_trapWord]
  rfl

theorem decode_trapIn (x : BitVec 4) :
    Encoding.published.decode (0b1111#4 ++ x ++ 0x23#8) = .trapIn := by
  rw [decode_trapWord, decodeTrap, vector_trapWord]
  rfl

theorem decode_trapPutsp (x : BitVec 4) :
    Encoding.published.decode (0b1111#4 ++ x ++ 0x24#8) = .trapPutsp := by
  rw [decode_trapWord, decodeTrap, vector_trapWord]
  rfl

theorem decode_trapHalt (x : BitVec 4) :
    Encoding.published.decode (0b1111#4 ++ x ++ 0x25#8) = .trapHalt := by
  rw [decode_trapWord, decodeTrap, vector_trapWord]
  rfl

theorem decode_trapUnknown (x : BitVec 4) {v : BitVec 8}
    (hv : ¬ (0x20 ≤ v.toNat ∧ v.toNat ≤ 0x25)) :
    Encoding.published.decode (0b1111#4 ++ x ++ v) = .trapUnknown (0b1111#4 ++ x ++ v) := by
  rw [decode_trapWord, ← trapWord]
  apply decodeTrap_of_not_recognised
  rwa [vector_trapWord, Bool.eq_false_iff, Ne, recognisedVector_iff]

/-! ### The character -/

/-- A character has no sign bit once it is a word, so it is never NEGATIVE (decision D5). -/
theorem condOf_zext8 (c : Byte) : condOf (zext8 c) = if c = 0x00#8 then .zero else .positive := by
  split
  case isTrue hc => rw [hc]; rfl
  case isFalse hc =>
    have hne : c.toNat ≠ 0 := fun h => hc (BitVec.eq_of_toNat_eq h)
    have hval : (zext8 c).toNat = c.toNat := by
      rw [zext8_eq_setWidth, BitVec.toNat_setWidth_of_le (by decide)]
    have hlt := c.isLt
    exact condOf_of_pos_of_lt (by omega) (by omega)

/-! ### The services that take a character -/

theorem trapFrame_link (s : State) : TrapFrame [7] s s.link := trapFrame_link_emit [] s

theorem trapFrame_trans {rs rs' : List Reg} {s m t : State} (hsm : TrapFrame rs s m)
    (hmt : TrapFrame rs' m t) : TrapFrame (rs ++ rs') s t := by
  obtain ⟨hregs, hcells, hpc, hrun, hfault, hstop, henv, hrec, hconfig⟩ := hsm
  obtain ⟨hregs', hcells', hpc', hrun', hfault', hstop', henv', hrec', hconfig'⟩ := hmt
  refine ⟨fun r hr => ?_, fun a ha => (hcells' a ha).trans (hcells a ha), hpc'.trans hpc,
    hrun'.trans hrun, hfault'.trans hfault, hstop'.trans hstop, henv'.trans henv,
    hrec'.trans hrec, hconfig'.trans hconfig⟩
  rw [List.mem_append, not_or] at hr
  obtain ⟨hr, hr'⟩ := hr
  exact (hregs' r hr').trans (hregs r hr)

/-- What GETC and IN do from their `InTake()` on when it answers: `bs` is the echo. -/
theorem finish_spec {s t : State} {c : Byte} {rest bs : List Byte}
    (h : t = (((s.setInput rest).setHold none).emit bs).setResult 0 (zext8 c)) :
    t.reg 0 = c.setWidth 16 ∧ t.cond = (if c = 0x00#8 then .zero else .positive) ∧
      t.input = rest ∧ t.output = s.output ++ bs ∧ t.hold = none ∧ TrapFrame [0] s t := by
  subst h
  refine ⟨by simp [zext8_eq_setWidth], by rw [State.setResult_cond, condOf_zext8], rfl, rfl, rfl,
    fun r hr => ?_, fun _ _ => rfl, rfl, rfl, rfl, rfl, rfl, rfl, rfl⟩
  have hr0 : r ≠ 0 := by simpa using hr
  simp [hr0]

theorem finishGetc_spec {s : State} {c : Byte} {rest : List Byte} (h : s.input = c :: rest) :
    s.finishGetc.reg 0 = c.setWidth 16 ∧
      s.finishGetc.cond = (if c = 0x00#8 then .zero else .positive) ∧
      s.finishGetc.input = rest ∧ s.finishGetc.output = s.output ∧
      s.finishGetc.hold = none ∧ TrapFrame [0] s s.finishGetc := by
  have hnone : s.finishGetc = (((s.setInput rest).setHold none).emit []).setResult 0 (zext8 c) := by
    rw [State.finishGetc_cons h, State.emit, List.append_nil]
  simpa using finish_spec hnone

theorem finishIn_spec {s : State} {c : Byte} {rest : List Byte} (h : s.input = c :: rest) :
    s.finishIn.reg 0 = c.setWidth 16 ∧
      s.finishIn.cond = (if c = 0x00#8 then .zero else .positive) ∧
      s.finishIn.input = rest ∧ s.finishIn.output = s.output ++ [c] ∧
      s.finishIn.hold = none ∧ TrapFrame [0] s s.finishIn :=
  finish_spec (State.finishIn_cons h)

/-- R7 outlives the write of R0. -/
theorem reg7_of_trapFrame {s t : State} (h : TrapFrame [0] s t) : t.reg 7 = s.reg 7 := by
  obtain ⟨hregs, -⟩ := h
  exact hregs 7 (by decide)

/-- Settles O17: the link write, then `finishGetc` with a character or without. -/
theorem getcTakesOldestCharacter : Obligations.GetcTakesOldestCharacter := by
  refine ⟨decode_trapGetc, fun s c rest h => ?_, fun s h => ?_⟩
  · obtain ⟨h0, hcond, hin, hout, hhold, hframe⟩ := finishGetc_spec (s := s.link) h
    exact ⟨_, rfl, by simp [reg7_of_trapFrame hframe], h0, hcond, hin, hout, hhold,
      trapFrame_trans (trapFrame_link s) hframe⟩
  · refine ⟨s.link.setHold (some .getc), ?_, by simp, rfl, rfl, ⟨rfl, rfl⟩, trapFrame_link s⟩
    rw [exec, execTrapGetc, State.finishGetc_nil (s := s.link) h]

/-- Settles O20: the link write and the prompt, then `finishIn` with a character or without. -/
theorem inPromptsReadsAndEchoes : Obligations.InPromptsReadsAndEchoes := by
  refine ⟨decode_trapIn, fun s c rest h => ?_, fun s h => ?_⟩
  · obtain ⟨h0, hcond, hin, hout, hhold, hframe⟩ :=
      finishIn_spec (s := s.link.emit s.config.inPrompt) h
    exact ⟨_, rfl, by simp [reg7_of_trapFrame hframe], h0, hcond, hin, hout, hhold,
      trapFrame_trans (trapFrame_link_emit _ s) hframe⟩
  · refine ⟨(s.link.emit s.config.inPrompt).setHold (some .inService), ?_, by simp, rfl, rfl, h,
      rfl, trapFrame_link_emit s.config.inPrompt s⟩
    rw [exec, execTrapIn, State.finishIn_nil (s := s.link.emit s.config.inPrompt) h]

/-! ### HALT and the unknown vector -/

/-- Settles O22: HALT is the link write, the notice, and the write of RUN. -/
theorem haltHalts : Obligations.HaltHalts := by
  refine ⟨decode_trapHalt, fun s => ?_⟩
  obtain ⟨hregs, hcells, -, -, -, hworld⟩ := trapFrame_link_emit s.config.haltNotice s
  exact ⟨_, rfl, by simp, rfl, rfl, rfl, rfl, rfl, rfl, rfl, hregs, hcells, hworld⟩

/-- Settles O23: the link write, then the fault, whose record names the word and the address below
the incremented PC. -/
theorem unknownVectorFaults : Obligations.UnknownVectorFaults := by
  refine ⟨fun x v hv => decode_trapUnknown x hv, fun w s => ?_⟩
  obtain ⟨hregs, hcells, -, -, -, hworld⟩ := trapFrame_link s
  exact ⟨_, rfl, by simp, rfl, rfl, hregs, hcells, ⟨rfl, rfl⟩, rfl, rfl, rfl, hworld⟩

end Sys2Proof.Machine

/-! ## PUTS and PUTSP (rules R164, R166, R169) -/

namespace Sys2Proof.Machine

open Sys2Proof.Safety Sys2Proof.Statements

/-! ### The reads of a service -/

/-- The reads change memory, the ports and, through their polls, the world only. -/
theorem readsOn_hold_config (w : Wait) (n : Nat) (a : Word) (s : State) :
    (readsOn w n a s).hold = s.hold ∧ (readsOn w n a s).config = s.config :=
  readsOn_keeps (P := fun u => u.hold = s.hold ∧ u.config = s.config)
    (fun _ _ hu => by simpa using hu) (fun _ _ hu => hu) n a s ⟨rfl, rfl⟩

theorem readsOn_sound (w : Wait) (n : Nat) (a : Word) {s : State} (hs : Sound s) :
    Sound (readsOn w n a s) :=
  readsOn_keeps (P := Sound) (fun _ b hu => sound_memRead hu b) (fun _ _ hu => hu) n a s hs

/-- Each word that a service reads is followed by the read of the next, until one answers zero. -/
theorem stringEnds_of_lives {w : Wait} {k : Nat} {a : Word} {s : State} (hs : Sound s)
    (hlives : Lives w k a s)
    (hzero : ((readsOn w k a s).memRead (a + BitVec.ofNat 16 k)).1 = 0#16) :
    ∃ ws, StringEnds ws a s ((readsOn w k a s).memRead (a + BitVec.ofNat 16 k)).2 ∧
      (readsOn w k a s).output = s.output ++ ws.flatMap w.chars := by
  obtain ⟨hwf, hne⟩ := hs
  obtain ⟨ws, hlength, hwords, hout⟩ := hlives.words hwf hne
  obtain ⟨hwf', hne'⟩ := readsOn_sound w k a ⟨hwf, hne⟩
  have hread := memRead_readGives hwf' hne' (a + BitVec.ofNat 16 k)
  rw [hzero] at hread
  exact ⟨ws, ⟨_, hwords, hlength ▸ hread⟩, hout⟩

/-- The mark of a held service is no part of what the reads say. -/
theorem stringWords_setHold {ws : List Word} {w : Option Wait} {t : State} :
    ∀ {a : Word} {s : State}, StringWords ws a s t → StringWords ws a s (t.setHold w) := by
  induction ws with
  | nil => exact fun h => h
  | cons v ws ih =>
    rintro a s ⟨hv, m, hread, hrest⟩
    exact ⟨hv, m, hread, ih hrest⟩

/-- The words that a service reads, whether it ends or not, and what it writes of them. -/
theorem writeString_words (w : Wait) {s : State} (hs : Sound s) :
    ∃ ws, (s.writeString w).output = s.output ++ ws.flatMap w.chars ∧
      ((StringEnds ws (s.reg 0) s (s.writeString w) ∧ (s.writeString w).hold = s.hold) ∨
        (NeverEnds s ∧ StringWords ws (s.reg 0) s (s.writeString w) ∧
          (s.writeString w).hold = some w ∧ 65536 ≤ ws.length ∧ ws.length % 65536 = 0)) := by
  obtain ⟨hwf, hne⟩ := hs
  obtain ⟨k, hlives, hzero, hend⟩ | ⟨hundying, hend⟩ := State.writeString_cases w hwf hne
  · obtain ⟨ws, hends, hout⟩ := stringEnds_of_lives ⟨hwf, hne⟩ hlives hzero
    obtain ⟨hhold, -⟩ := readsOn_hold_config w k (s.reg 0) s
    rw [hend]
    exact ⟨ws, by simpa using hout, .inl ⟨hends, by simpa using hhold⟩⟩
  · obtain ⟨ws, hlength, hwords, hout⟩ :=
      (hundying.lives (w := w) (n := s.stringReads)).words hwf hne
    rw [hend]
    refine ⟨ws, hout, .inr ⟨(undying_iff_neverEnds hwf hne).1 hundying,
      stringWords_setHold hwords, rfl, ?_, ?_⟩⟩
    · rw [hlength]; exact s.stringReads_le
    · rw [hlength, s.stringReads_eq, Nat.mul_mod_right]

/-- Whether a service never ends depends on R0, memory, the queue, the coming events and the
configuration. -/
theorem neverEnds_congr {s t : State} (hs : Sound s) (hreg : t.reg 0 = s.reg 0)
    (hmem : t.mem = s.mem) (hin : t.input = s.input) (henv : t.environment = s.environment)
    (hrec : t.recurring = s.recurring) (hconfig : t.config = s.config) (h : NeverEnds s) :
    NeverEnds t := by
  obtain ⟨hwf, hne⟩ := hs
  have hwf' : t.mem.wf := hmem ▸ hwf
  have hne' : t.config.kbsrAddr ≠ t.config.kbdrAddr := hconfig ▸ hne
  obtain ⟨-, -, hcells, hpolls, hdata⟩ := (undying_iff_neverEnds hwf hne).2 h
  refine (undying_iff_neverEnds hwf' hne').1 ⟨hwf', hne', ?_,
    fun n => (State.pollsFind_congr hin henv hrec n).2 (hpolls n), ?_⟩
  · rw [hmem, hconfig]; exact hcells
  · rw [hmem, hconfig, hreg]; exact hdata

/-! ### A service that has not linked yet

The claims speak of the state before the link write, which no read can see. -/

theorem stringWords_link {ws : List Word} {a : Word} {s t : State}
    (h : StringWords ws a s.link t) : StringWords ws a s t := by
  cases ws with
  | nil => exact h
  | cons w ws =>
    obtain ⟨hw, m, hread, hrest⟩ := h
    exact ⟨hw, m, ReadGives_congr hread rfl rfl ⟨rfl, rfl, rfl, rfl⟩ rfl rfl ⟨rfl, rfl, rfl, rfl⟩,
      hrest⟩

@[simp] theorem State.link_reg0 (s : State) : s.link.reg 0 = s.reg 0 := by
  rw [State.link_reg, if_neg (by decide)]

/-- What a TRAP to a string service does, from the words it reads on. -/
theorem link_writeString_spec (w : Wait) {s : State} (hs : Sound s) :
    ∃ ws, ReadsString w ws s (s.link.writeString w) ∧
      (s.link.writeString w).output = s.output ++ ws.flatMap w.chars := by
  obtain ⟨hregs, hpc, hcond, hrun, hfault, -⟩ := State.writeString_frame w s.link
  have hreg : ∀ r, (s.link.writeString w).reg r = s.link.reg r := fun r => by
    rw [State.reg, hregs, State.reg]
  have hkept : RegsKeptBut [7] s (s.link.writeString w) := fun r hr => by
    have hr7 : r ≠ 7 := by simpa using hr
    simp [hreg, hr7]
  obtain ⟨ws, hout, hcases⟩ := writeString_words w (s := s.link) hs
  rw [State.link_reg0] at hcases
  refine ⟨ws, ⟨?_, by simp [hreg], hpc, hcond, hkept, hrun, hfault⟩, hout⟩
  obtain ⟨⟨m, hwords, hread⟩, hhold⟩ | ⟨hnever, hwords, hrest⟩ := hcases
  · exact .inl ⟨⟨m, stringWords_link hwords, hread⟩, hhold⟩
  · have hnever' : NeverEnds s :=
      neverEnds_congr (s := s.link) hs (State.link_reg0 s).symm rfl rfl rfl rfl rfl hnever
    exact .inr ⟨hnever', stringWords_link hwords, hrest⟩

theorem flatMap_putsChars (ws : List Word) :
    ws.flatMap putsChars = ws.map (fun w => w.setWidth 8) := by
  rw [List.map_eq_flatMap]
  simp only [← lowByte_eq_setWidth]
  rfl

/-- PUTSP's two conditions are one filter of the two bytes. -/
theorem putspChars_eq_filter (w : Word) :
    putspChars w = [w.setWidth 8, (w >>> 8).setWidth 8].filter (fun b => b != 0x00#8) := by
  rw [← lowByte_eq_setWidth, ← highByte_eq_shift, putspChars]
  by_cases hlow : lowByte w = 0#8
  · by_cases hhigh : highByte w = 0#8
    · simp [hlow, hhigh]
    · simp [hlow, hhigh]
  · by_cases hhigh : highByte w = 0#8
    · simp [hlow, hhigh]
    · simp [hlow, hhigh]

/-- Settles O19: PUTS is the link write and the string service, whose byte for a word is its low
one. -/
theorem putsWritesUntilZeroWord : Obligations.PutsWritesUntilZeroWord := by
  refine ⟨decode_trapPuts, fun s hs => ?_⟩
  obtain ⟨ws, hreads, hout⟩ := link_writeString_spec .puts hs
  exact ⟨_, ws, rfl, hreads, by rw [hout, ← flatMap_putsChars]; rfl⟩

/-- Settles O21: as O19, with the bytes of PUTSP. -/
theorem putspWritesNonZeroBytes : Obligations.PutspWritesNonZeroBytes := by
  refine ⟨decode_trapPutsp, fun s hs => ?_⟩
  obtain ⟨ws, hreads, hout⟩ := link_writeString_spec .putsp hs
  refine ⟨_, ws, rfl, hreads, ?_⟩
  simp only [← putspChars_eq_filter]
  exact hout

/-! ### Plain strings -/

theorem addr_add_65536 (a : Word) (k : Nat) :
    a + BitVec.ofNat 16 (k + 65536) = a + BitVec.ofNat 16 k := by
  have hround : BitVec.ofNat 16 65536 = 0#16 := rfl
  rw [BitVec.ofNat_add, hround, BitVec.add_zero]

/-- A string that covers the address space has no cell left for its terminator. -/
theorem length_lt_of_terminated {m : Memory} {a : Word} {ws : List Word}
    (hws : ∀ k w, ws[k]? = some w → w ≠ 0x0000#16 ∧ m.read (a + BitVec.ofNat 16 k) = w)
    (hzero : m.read (a + BitVec.ofNat 16 ws.length) = 0x0000#16) : ws.length < 65536 := by
  by_contra hlong
  obtain ⟨k, hk⟩ : ∃ k, ws.length = k + 65536 := ⟨ws.length - 65536, by omega⟩
  obtain ⟨hne, hread⟩ := hws k _ (List.getElem?_eq_getElem (by omega))
  rw [hk, addr_add_65536, hread] at hzero
  exact hne hzero

/-- Over a plain string the loop reads each word, then the terminator, and leaves the state but for
the output. -/
theorem stringLoop_plain (w : Wait) {ws : List Word} :
    ∀ {n : Nat} {a : Word} {s : State}, ws.length < n →
      (∀ k v, ws[k]? = some v → v ≠ 0x0000#16 ∧ s.mem.read (a + BitVec.ofNat 16 k) = v) →
      s.mem.read (a + BitVec.ofNat 16 ws.length) = 0x0000#16 →
      (∀ k, k ≤ ws.length → a + BitVec.ofNat 16 k ≠ s.config.kbsrAddr) →
      stringLoop w n a s = s.emit (ws.flatMap w.chars) := by
  induction ws with
  | nil =>
    intro n a s hn _ hzero hplain
    obtain ⟨n, rfl⟩ : ∃ m, n = m + 1 := ⟨n - 1, by omega⟩
    have ha : a ≠ s.config.kbsrAddr := by simpa using hplain 0 (Nat.le_refl _)
    rw [stringLoop_succ, State.pollAt_of_ne ha, if_pos (by simpa using hzero)]
    simp [State.emit]
  | cons v ws ih =>
    intro n a s hn hws hzero hplain
    obtain ⟨n, rfl⟩ : ∃ m, n = m + 1 := ⟨n - 1, by omega⟩
    have ha : a ≠ s.config.kbsrAddr := by simpa using hplain 0 (Nat.zero_le _)
    obtain ⟨hv, hread⟩ : v ≠ 0x0000#16 ∧ s.mem.read a = v := by simpa using hws 0 v rfl
    have hrest : stringLoop w n (a + 1) (s.emit (w.chars v)) =
        (s.emit (w.chars v)).emit (ws.flatMap w.chars) := by
      refine ih (Nat.lt_of_succ_lt_succ hn) (fun k u hu => ?_) ?_ fun k hk => ?_
      · rw [← addr_succ]; exact hws (k + 1) u hu
      · rw [← addr_succ]; exact hzero
      · rw [← addr_succ]; exact hplain (k + 1) (Nat.succ_le_succ hk)
    rw [stringLoop_succ, State.pollAt_of_ne ha, hread, if_neg hv, hrest]
    simp [State.emit]

/-- Settles O51: on a plain string PUTS is the link write and the output of its bytes, as OUT is for
one byte. -/
theorem putsWritesPlainString : Obligations.PutsWritesPlainString := by
  intro s ws hws hzero hplain
  have hlt : ws.length < s.link.stringReads :=
    Nat.lt_of_lt_of_le (length_lt_of_terminated hws hzero) (State.stringReads_le _)
  have hloop : s.link.writeString .puts = s.link.emit (ws.map fun w => w.setWidth 8) := by
    rw [State.writeString_eq, State.link_reg0, ← flatMap_putsChars]
    exact stringLoop_plain .puts hlt hws hzero hplain
  exact ⟨_, congrArg Host.Outcome.next hloop, rfl, rfl, rfl, rfl⟩

/-! ### A zero word bounds a service (rule R169) -/

/-- A service lives no further than a zero word outside the keyboard cells. -/
theorem Lives.le_distance {w : Wait} {n : Nat} {a z : Word} {s : State} (h : Lives w n a s)
    (hzero : s.mem.read z = 0x0000#16) (hs : z ≠ s.config.kbsrAddr) (hd : z ≠ s.config.kbdrAddr) :
    n ≤ (z - a).toNat := by
  by_contra hlt
  have hread := h.read (k := (z - a).toNat) (by omega)
  obtain ⟨-, hconfig⟩ := readsOn_hold_config w (z - a).toNat a s
  rw [addr_of_distance, State.pollAt_of_ne (by rw [hconfig]; exact hs),
    readsOn_read_of_ne w _ a hs hd] at hread
  exact hread hzero

/-- Each read writes `c` bytes at most. -/
theorem readsOn_output {w : Wait} {c : Nat} (hchars : ∀ v, (w.chars v).length ≤ c) :
    ∀ (n : Nat) (a : Word) (s : State),
      ∃ out, (readsOn w n a s).output = s.output ++ out ∧ out.length ≤ n * c := by
  intro n
  induction n with
  | zero => exact fun a s => ⟨[], by simp [readsOn], by simp⟩
  | succ n ih =>
    intro a s
    obtain ⟨out, hout, hlength⟩ :=
      ih (a + 1) ((s.pollAt a).emit (w.chars ((s.pollAt a).mem.read a)))
    have hc := hchars ((s.pollAt a).mem.read a)
    refine ⟨w.chars ((s.pollAt a).mem.read a) ++ out, by rw [readsOn, hout]; simp, ?_⟩
    rw [List.length_append, Nat.succ_mul]
    omega

theorem writeString_bounded {w : Wait} {c : Nat} (hchars : ∀ v, (w.chars v).length ≤ c) {s : State}
    {z : Word} (hzero : s.mem.read z = 0x0000#16) (hs : z ≠ s.config.kbsrAddr)
    (hd : z ≠ s.config.kbdrAddr) :
    ∃ out, (s.writeString w).output = s.output ++ out ∧ out.length ≤ 65535 * c := by
  have hdist : (z - s.reg 0).toNat ≤ 65535 := Nat.le_of_lt_succ (z - s.reg 0).isLt
  have hends : ¬ Lives w s.stringReads (s.reg 0) s := fun hlives => by
    have hle := hlives.le_distance hzero hs hd
    have hreads := s.stringReads_le
    omega
  obtain ⟨k, -, hlives, -, hend⟩ := stringLoop_of_not_lives hends
  obtain ⟨out, hout, hlength⟩ := readsOn_output hchars k (s.reg 0) s
  have hk : k ≤ 65535 := Nat.le_trans (hlives.le_distance hzero hs hd) hdist
  rw [State.writeString_eq, hend]
  exact ⟨out, by simpa using hout, Nat.le_trans hlength (Nat.mul_le_mul_right c hk)⟩

theorem putspChars_length_le (v : Word) : (putspChars v).length ≤ 2 := by
  rw [putspChars_eq_filter]
  exact List.length_filter_le _ _

/-- Settles O52: the service ends at the zero word or before, and each word before it gives one
byte, or for PUTSP two at most. -/
theorem zeroWordBoundsStrings : Obligations.ZeroWordBoundsStrings := by
  intro s z _ hzero hs hd
  obtain ⟨out, hout, hlength⟩ := writeString_bounded (w := .puts) (c := 1) (fun _ => Nat.le_refl 1)
    (s := s.link) hzero hs hd
  obtain ⟨out', hout', hlength'⟩ := writeString_bounded (w := .putsp) (c := 2) putspChars_length_le
    (s := s.link) hzero hs hd
  exact ⟨⟨_, out, rfl, hout, hlength, State.writeString_ends .puts (s := s.link) hzero hs hd⟩,
    _, out', rfl, hout', hlength', State.writeString_ends .putsp (s := s.link) hzero hs hd⟩

/-! ### A service that never ends (rules R114, R169, R201) -/

/-- A source that delivers at every look never runs dry. -/
theorem flows_of_delivers {es : List EnvEvent}
    (hes : ∀ e ∈ es, e.chars ≠ [] ∧ ∀ c ∈ e.chars, c ≠ 0x00#8) :
    ∀ {q : List Byte}, (∀ c ∈ q, c ≠ 0x00#8) → Flows q es := by
  induction es with
  | nil => exact fun _ => trivial
  | cons e es ih =>
    intro q hq
    obtain ⟨hne, hchars⟩ := hes e (by simp)
    have hall : ∀ c ∈ q ++ e.chars, c ≠ 0x00#8 := fun c hc =>
      (List.mem_append.mp hc).elim (hq c) (hchars c)
    obtain ⟨c, rest, heq⟩ := List.exists_cons_of_ne_nil (List.append_ne_nil_of_right_ne_nil q hne)
    rw [heq] at hall
    exact ⟨c, rest, heq, hall c (by simp),
      ih (fun f hf => hes f (by simp [hf])) fun d hd => hall d (by simp [hd])⟩

/-- With recurring events every coming event is one of the two lists. -/
theorem mem_of_mem_comingEvents {rec : List EnvEvent} (hrec : rec ≠ []) {e : EnvEvent} :
    ∀ {n : Nat} {env : List EnvEvent}, e ∈ comingEvents rec n env → e ∈ env ++ rec := by
  intro n
  induction n with
  | zero => exact fun h => absurd h List.not_mem_nil
  | succ n ih =>
    intro env h
    have hne : (if env = [] then rec else env) ≠ [] := by split <;> assumption
    have hsub : ∀ x ∈ (if env = [] then rec else env), x ∈ env ++ rec := fun x hx => by
      split at hx <;> simp [hx]
    obtain ⟨f, fs, hcons⟩ := List.exists_cons_of_ne_nil hne
    rw [hcons] at hsub
    simp only [comingEvents, hcons] at h
    obtain rfl | h := List.mem_cons.mp h
    · exact hsub e (by simp)
    · obtain h | h := List.mem_append.mp (ih h)
      · exact hsub e (by simp [h])
      · simp [h]

theorem undying_of_neverZero {s : State} (h : NeverZero s) (a : Word) : Undying a s := by
  obtain ⟨⟨hwf, hne⟩, hcells, hin, hrec, hdelivers⟩ := h
  exact ⟨hwf, hne, fun z hs _ => hcells z hs,
    fun n => flows_of_delivers (fun e he => hdelivers e (mem_of_mem_comingEvents hrec he)) hin,
    fun _ => hcells _ hne.symm⟩

theorem sound_writeString (w : Wait) {s : State} (hs : Sound s) : Sound (s.writeString w) := by
  obtain ⟨hwf, hne⟩ := hs
  obtain ⟨-, -, -, -, -, -, hconfig⟩ := State.writeString_frame w s
  exact ⟨State.writeString_wf w hwf, hconfig ▸ hne⟩

/-- A service is held exactly if it never ends. -/
theorem writeString_held_iff {w : Wait} {s : State} (hs : Sound s) (hhold : s.hold ≠ some w) :
    (s.writeString w).hold = some w ↔ NeverEnds s := by
  obtain ⟨ws, -, ⟨hends, hsame⟩ | ⟨hnever, -, hheld, -⟩⟩ := writeString_words w hs
  · rw [hsame]
    exact iff_of_false hhold fun hnever => hnever ws _ hends
  · exact iff_of_true hheld hnever

/-- What a service that never ends leaves never ends either: it is back at the address in R0. -/
theorem neverEnds_writeString (w : Wait) {s : State} (hs : Sound s) (h : NeverEnds s) :
    NeverEnds (s.writeString w) := by
  have hs' : Sound (s.writeString w) := sound_writeString w hs
  obtain ⟨hregs, -, -, -, -, -, hconfig⟩ := State.writeString_frame w s
  obtain ⟨hwf, hne⟩ := hs
  have hundying := (undying_iff_neverEnds hwf hne).2 h
  obtain ⟨k, hlives, hzero, -⟩ | ⟨-, hend⟩ := State.writeString_cases w hwf hne
  · obtain ⟨ws, hends, -⟩ := stringEnds_of_lives ⟨hwf, hne⟩ hlives hzero
    exact absurd hends (h ws _)
  · have hundying' := hundying.readsOn (w := w) (n := s.stringReads)
    rw [addr_stringReads] at hundying'
    obtain ⟨hwf', hne'⟩ := hs'
    refine (undying_iff_neverEnds hwf' hne').1 ?_
    rw [State.reg, hregs, ← State.reg, hend]
    exact ⟨hundying'.memory, hundying'.ports, hundying'.cells, hundying'.polls, hundying'.data⟩

theorem stringWords_ne_zero {ws : List Word} {t : State} :
    ∀ {a : Word} {s : State}, StringWords ws a s t → ∀ v ∈ ws, v ≠ 0x0000#16 := by
  induction ws with
  | nil => exact fun _ _ hv => absurd hv List.not_mem_nil
  | cons w ws ih =>
    rintro a s ⟨hw, m, -, hrest⟩ v hv
    obtain rfl | hv := List.mem_cons.mp hv
    · exact hw
    · exact ih hrest v hv

theorem highByte_append_lowByte (w : Word) : highByte w ++ lowByte w = w :=
  (BitVec.extractLsb'_append_extractLsb'_eq_extractLsb' (w := 16) (start₁ := 0) (len₁ := 8)
    (start₂ := 8) (len₂ := 8) (x := w) rfl).trans (BitVec.extractLsb'_eq_self)

/-- A word that is not zero has a byte that is not zero. -/
theorem chars_length_pos {w : Wait} (hw : w = .puts ∨ w = .putsp) {v : Word} (hv : v ≠ 0x0000#16) :
    1 ≤ (w.chars v).length := by
  obtain rfl | rfl := hw
  · exact Nat.le_refl 1
  · by_contra hlt
    have hnil : putspChars v = [] := List.length_eq_zero_iff.mp (Nat.lt_one_iff.mp (not_le.mp hlt))
    obtain ⟨hlow, hhigh⟩ : lowByte v = 0#8 ∧ highByte v = 0#8 := by simpa [putspChars] using hnil
    have hbytes : highByte v ++ lowByte v = v := highByte_append_lowByte v
    rw [hlow, hhigh] at hbytes
    exact hv hbytes.symm

/-- A service that never ends has written a byte or more for each read of an address space or more.
-/
theorem output_of_neverEnds {w : Wait} (hw : w = .puts ∨ w = .putsp) {s : State} (hs : Sound s)
    (h : NeverEnds s) : s.output.length + 65536 ≤ (s.writeString w).output.length := by
  obtain ⟨ws, hout, ⟨hends, -⟩ | ⟨-, hwords, -, hlength, -⟩⟩ := writeString_words w hs
  · exact absurd hends (h ws _)
  · have hbytes : ws.length ≤ (ws.flatMap w.chars).length := by
      have hone : ∀ n ∈ ws.map fun v => (w.chars v).length, 1 ≤ n := fun n hn => by
        obtain ⟨v, hv, rfl⟩ := List.mem_map.mp hn
        exact chars_length_pos hw (stringWords_ne_zero hwords v hv)
      simpa [List.length_flatMap] using List.length_le_sum_of_one_le _ hone
    rw [hout, List.length_append]
    omega

/-! ### Steps inside a held service -/

theorem State.setReg_self (s : State) (r : Reg) : s.setReg r (s.reg r) = s := by
  simp [State.setReg, State.reg, Vector.get_eq_getElem]

/-- A TRAP that was begun has written the link already. -/
theorem State.link_self {s : State} (h : s.reg 7 = s.pc) : s.link = s := by
  rw [State.link, ← h, State.setReg_self]

theorem step_of_hold {s : State} {w : Wait} (hrun : s.run = .running) (hhold : s.hold = some w) :
    step s = .next (s.resume w) := by
  rw [step, State.engineStep, hrun]
  simp only [State.runningStep, hhold]

theorem State.resume_string {w : Wait} (hw : w = .puts ∨ w = .putsp) (s : State) :
    s.resume w = (s.setHold none).writeString w := by
  obtain rfl | rfl := hw <;> rfl

/-- One step inside a service that never ends. -/
theorem step_of_held_string {s : State} {w : Wait} (hw : w = .puts ∨ w = .putsp) (hs : Sound s)
    (hnever : NeverEnds s) (hrun : s.run = .running) (hhold : s.hold = some w) :
    ∃ t, step s = .next t ∧ Sound t ∧ NeverEnds t ∧ t.run = .running ∧ t.hold = some w ∧
      s.output.length + 65536 ≤ t.output.length := by
  have hs' : Sound (s.setHold none) := hs
  have hnever' : NeverEnds (s.setHold none) := neverEnds_congr hs rfl rfl rfl rfl rfl rfl hnever
  obtain ⟨-, -, -, hrun', -⟩ := State.writeString_frame w (s.setHold none)
  rw [step_of_hold hrun hhold, State.resume_string hw]
  exact ⟨_, rfl, sound_writeString w hs', neverEnds_writeString w hs' hnever', hrun'.trans hrun,
    (writeString_held_iff hs' nofun).2 hnever', output_of_neverEnds hw hs' hnever'⟩

theorem run_of_held_string {w : Wait} (hw : w = .puts ∨ w = .putsp) :
    ∀ (n : Nat) {s : State}, Sound s → NeverEnds s → s.run = .running → s.hold = some w →
      ∃ t, Sys2Proof.core.run n s = .next t ∧ t.run = .running ∧ t.hold = some w ∧ NeverEnds t ∧
        s.output.length + 65536 * n ≤ t.output.length := by
  intro n
  induction n with
  | zero => exact fun {s} _ hnever hrun hhold => ⟨s, rfl, hrun, hhold, hnever, Nat.le_refl _⟩
  | succ n ih =>
    intro s hs hnever hrun hhold
    obtain ⟨m, hstep, hs', hnever', hrun', hhold', hout⟩ :=
      step_of_held_string hw hs hnever hrun hhold
    obtain ⟨t, hrunsTo, hrun'', hhold'', hnever'', hout'⟩ := ih hs' hnever' hrun' hhold'
    refine ⟨t, (run_succ_of_next n hstep).trans hrunsTo, hrun'', hhold'', hnever'', ?_⟩
    calc s.output.length + 65536 * (n + 1) = s.output.length + 65536 + 65536 * n := by
          rw [Nat.mul_succ, Nat.add_right_comm, Nat.add_assoc]
      _ ≤ m.output.length + 65536 * n := Nat.add_le_add_right hout _
      _ ≤ t.output.length := hout'

/-- A TRAP to a string service is held exactly if the service never ends. -/
theorem link_writeString_held (w : Wait) {s : State} (hs : Sound s) (hhold : s.hold = none) :
    ((s.link.writeString w).hold = some w ↔ NeverEnds s) ∧
      (NeverEnds s → NeverEnds (s.link.writeString w)) := by
  have hlink : NeverEnds s → NeverEnds s.link :=
    neverEnds_congr hs (State.link_reg0 s) rfl rfl rfl rfl rfl
  have hunlink : NeverEnds s.link → NeverEnds s :=
    neverEnds_congr (s := s.link) hs (State.link_reg0 s).symm rfl rfl rfl rfl rfl
  have hheld := writeString_held_iff (w := w) (s := s.link) hs (by simp [hhold])
  exact ⟨hheld.trans ⟨hunlink, hlink⟩, fun h => neverEnds_writeString w (s := s.link) hs (hlink h)⟩

/-- Settles O60: a source that always delivers makes every read answer other than zero; the mark by
the cases of a whole service; a held one begins again at R0, the link write being made; and the run
by induction on its steps. -/
theorem unterminatedStringGoesOnForEver : Obligations.UnterminatedStringGoesOnForEver := by
  refine ⟨fun s h => ?_, fun s hs hhold => ?_,
    fun s hrun hlink => ⟨fun hhold => ?_, fun hhold => ?_⟩,
    fun n s w hw hs hnever hrun hhold => run_of_held_string hw n hs hnever hrun hhold⟩
  · have ⟨⟨hwf, hne⟩, _⟩ := h
    exact (undying_iff_neverEnds hwf hne).1 (undying_of_neverZero h _)
  · exact ⟨⟨_, rfl, link_writeString_held .puts hs hhold⟩, _, rfl,
      link_writeString_held .putsp hs hhold⟩
  · rw [step_of_hold hrun hhold, exec, execTrapPuts, State.link_self (s := s.setHold none) hlink]
    rfl
  · rw [step_of_hold hrun hhold, exec, execTrapPutsp, State.link_self (s := s.setHold none) hlink]
    rfl

end Sys2Proof.Machine

/-! ## What every instruction does (rules R22, R24, R27, R28, R170) -/

namespace Sys2Proof.Machine

open Sys2Proof.Safety Sys2Proof.Statements

/-! ### The shared operations, field by field -/

section Fields

variable (s : State)

@[simp] theorem State.loadFrom_pc (d : Reg) (a : Word) : (s.loadFrom d a).pc = s.pc := by
  simp [State.loadFrom]
@[simp] theorem State.loadFrom_run (d : Reg) (a : Word) : (s.loadFrom d a).run = s.run := by
  simp [State.loadFrom]
@[simp] theorem State.loadFrom_fault (d : Reg) (a : Word) : (s.loadFrom d a).fault = s.fault := by
  simp [State.loadFrom]
@[simp] theorem State.loadFrom_hold (d : Reg) (a : Word) : (s.loadFrom d a).hold = s.hold := by
  simp [State.loadFrom]
@[simp] theorem State.loadFrom_output (d : Reg) (a : Word) :
    (s.loadFrom d a).output = s.output := by
  simp [State.loadFrom]
@[simp] theorem State.indirect_snd (o : BitVec 9) :
    (s.indirect o).2 = s.pollAt (s.pcRelative o) := rfl

@[simp] theorem State.finishGetc_pc : s.finishGetc.pc = s.pc := by
  obtain ⟨c, rest, -, h⟩ | ⟨-, h⟩ := State.finishGetc_cases s <;> simp [h]
@[simp] theorem State.finishGetc_run : s.finishGetc.run = s.run := by
  obtain ⟨c, rest, -, h⟩ | ⟨-, h⟩ := State.finishGetc_cases s <;> simp [h]
@[simp] theorem State.finishGetc_output : s.finishGetc.output = s.output := by
  obtain ⟨c, rest, -, h⟩ | ⟨-, h⟩ := State.finishGetc_cases s <;> simp [h]
@[simp] theorem State.finishIn_pc : s.finishIn.pc = s.pc := by
  obtain ⟨c, rest, -, h⟩ | ⟨-, h⟩ := State.finishIn_cases s <;> simp [h]
@[simp] theorem State.finishIn_run : s.finishIn.run = s.run := by
  obtain ⟨c, rest, -, h⟩ | ⟨-, h⟩ := State.finishIn_cases s <;> simp [h]

@[simp] theorem State.writeString_pc (w : Wait) : (s.writeString w).pc = s.pc := by
  obtain ⟨-, h, -⟩ := State.writeString_frame w s; exact h
@[simp] theorem State.writeString_cond (w : Wait) : (s.writeString w).cond = s.cond := by
  obtain ⟨-, -, h, -⟩ := State.writeString_frame w s; exact h
@[simp] theorem State.writeString_run (w : Wait) : (s.writeString w).run = s.run := by
  obtain ⟨-, -, -, h, -⟩ := State.writeString_frame w s; exact h

end Fields

/-! ### Every instruction has a next state (rule R194) -/

theorem exec_next (i : Instr) (s : State) : ∃ t, exec i s = .next t := by
  cases i <;> exact ⟨_, rfl⟩

/-! ### RUN (rules R28, R190, R191, R194) -/

/-- An instruction that is neither HALT nor a faulting form leaves RUN. -/
theorem exec_run {i : Instr} {s t : State} (h : exec i s = .next t) (hlegal : i.illegal = false)
    (hhalt : i ≠ .trapHalt) : t.run = s.run := by
  cases i with
  | trapHalt => exact absurd rfl hhalt
  | trapUnknown | rti | res => cases hlegal
  | br => rw [exec_br] at h; cases h; rfl
  | ld | ldi | ldr | sti | trapGetc | trapIn | trapPuts | trapPutsp => cases h; simp
  | addReg | addImm | andReg | andImm | not | jmp | jsr | jsrr | lea | st | str | trapOut =>
    cases h; rfl

/-- Settles O30: HALT and the faulting forms write RUN with the value listed for them, no other
instruction writes it. -/
theorem runStateChangesOnlyAsListed : Obligations.RunStateChangesOnlyAsListed := by
  intro i s t hrun h
  cases hlegal : i.illegal with
  | true =>
    have hfaulted : t.run = .faulted := by
      cases i with
      | trapUnknown | rti | res => cases h; rfl
      | _ => cases hlegal
    have hhalt : i ≠ .trapHalt := by rintro rfl; cases hlegal
    simp [hfaulted, hhalt]
  | false =>
    by_cases hhalt : i = .trapHalt
    · subst hhalt; cases h; simp
    · simp [exec_run h hlegal hhalt, hrun, hhalt]

/-! ### PC (rule R24) -/

/-- Settles O42: the transfers write PC with their target, every other instruction leaves it. -/
theorem pcAfterEachInstruction : Obligations.PcAfterEachInstruction := by
  intro i s t h
  cases i with
  | br n z p o =>
    rw [exec_br] at h
    cases h
    simp only [brTaken_iff, State.pcRelative_eq_ofInt (by decide : 9 ≤ 16)]
    rfl
  | jsr o => cases h; exact State.pcRelative_eq_ofInt (by decide) s.link o
  | jsrr b => cases h; exact State.link_reg s b
  | ldi | ldr | ld | sti | trapGetc | trapIn | trapPuts | trapPutsp => cases h; simp [pcAfter]
  | addReg | addImm | andReg | andImm | not | jmp | lea | st | str | trapOut | trapHalt
  | trapUnknown | rti | res => cases h; rfl

/-! ### COND (rule R27) -/

theorem condAgrees_setResult (s : State) (d : Reg) (v : Word) :
    CondAgrees ((s.setResult d v).reg d) (s.setResult d v).cond := by
  rw [State.setResult_cond, State.setResult_reg, if_pos rfl]
  exact condAgrees_condOf v

theorem exec_cond_of_flagResult_none {i : Instr} {s t : State} (h : exec i s = .next t)
    (hflag : flagResult i = none) : t.cond = s.cond := by
  cases i with
  | br => rw [exec_br] at h; cases h; rfl
  | sti | trapPuts | trapPutsp => cases h; simp
  | jmp | jsr | jsrr | st | str | trapOut | trapHalt | trapUnknown | rti | res => cases h; rfl
  | _ => cases hflag

/-- Every flag-setting instruction ends with `setResult` of the register it defines. -/
theorem exec_condAgrees {i : Instr} {s t : State} {r : Reg} (h : exec i s = .next t)
    (hflag : flagResult i = some r) (hin : takesCharacter i → s.input ≠ []) :
    CondAgrees (t.reg r) t.cond := by
  cases i with
  | addReg | addImm | andReg | andImm | not | ld | ldi | ldr | lea =>
    cases hflag; cases h; exact condAgrees_setResult _ _ _
  | trapGetc =>
    obtain ⟨c, rest, hcons⟩ := List.exists_cons_of_ne_nil (hin (.inl rfl))
    rw [exec, execTrapGetc, State.finishGetc_cons (s := s.link) hcons] at h
    cases hflag; cases h; exact condAgrees_setResult _ _ _
  | trapIn =>
    obtain ⟨c, rest, hcons⟩ := List.exists_cons_of_ne_nil (hin (.inr rfl))
    rw [exec, execTrapIn, State.finishIn_cons (s := s.link.emit _) hcons] at h
    cases hflag; cases h; exact condAgrees_setResult _ _ _
  | _ => cases hflag

theorem exec_cond_of_waits {i : Instr} {s t : State} (h : exec i s = .next t)
    (htakes : takesCharacter i) (hin : s.input = []) : t.cond = s.cond := by
  obtain rfl | rfl := htakes
  · rw [exec, execTrapGetc, State.finishGetc_nil (s := s.link) hin] at h
    cases h; rfl
  · rw [exec, execTrapIn, State.finishIn_nil (s := s.link.emit _) hin] at h
    cases h; rfl

/-- Settles O40, by one lemma for each clause. -/
theorem onlyFlagSettersWriteCond : Obligations.OnlyFlagSettersWriteCond := fun _ _ _ h =>
  ⟨exec_cond_of_flagResult_none h, fun _ => exec_condAgrees h, exec_cond_of_waits h⟩

/-! ### The environment's events (rules R9, R14, R197) -/

theorem afterEvents_config (n : Nat) : ∀ s : State, (afterEvents n s).config = s.config := by
  induction n with
  | zero => exact fun _ => rfl
  | succ n ih => exact fun s => (ih s.environmentActs).trans (by simp)

theorem afterEvents_recurring (n : Nat) :
    ∀ s : State, (afterEvents n s).recurring = s.recurring := by
  induction n with
  | zero => exact fun _ => rfl
  | succ n ih => exact fun s => (ih s.environmentActs).trans (by simp)

theorem afterEvents_stopReq (n : Nat) :
    ∀ {s : State}, s.stopReq = true → (afterEvents n s).stopReq = true := by
  induction n with
  | zero => exact fun h => h
  | succ n ih => exact fun h => ih (State.environmentActs_stopReq h)

theorem afterEvents_add (n m : Nat) :
    ∀ s : State, afterEvents (n + m) s = afterEvents m (afterEvents n s) := by
  induction n with
  | zero => intro s; rw [Nat.zero_add]; rfl
  | succ n ih => intro s; rw [Nat.succ_add]; exact ih s.environmentActs

/-- `t` is `s` with some characters taken from the front of the queue, as far as the source and the
world go. -/
def TookFrom (taken : List Byte) (s t : State) : Prop :=
  WorldKept s t ∧ s.input = taken ++ t.input

/-- Characters that arrive stand behind those that were taken. -/
theorem TookFrom.environmentActs {taken : List Byte} {s t : State} (h : TookFrom taken s t) :
    TookFrom taken s.environmentActs t.environmentActs := by
  obtain ⟨⟨hstop, henv, hrec, hconfig⟩, hin⟩ := h
  unfold TookFrom WorldKept State.environmentActs State.upcoming
  rw [henv, hrec]
  split <;> simp [hstop, henv, hrec, hconfig, hin]

theorem TookFrom.afterEvents {taken : List Byte} (n : Nat) :
    ∀ {s t : State}, TookFrom taken s t → TookFrom taken (afterEvents n s) (afterEvents n t) := by
  induction n with
  | zero => exact fun h => h
  | succ n ih => exact fun h => ih h.environmentActs

theorem TookFrom.trans {taken taken' : List Byte} {s t u : State} (hst : TookFrom taken s t)
    (htu : TookFrom taken' t u) : TookFrom (taken ++ taken') s u := by
  obtain ⟨⟨hstop, henv, hrec, hconfig⟩, hin⟩ := hst
  obtain ⟨⟨hstop', henv', hrec', hconfig'⟩, hin'⟩ := htu
  exact ⟨⟨hstop'.trans hstop, henv'.trans henv, hrec'.trans hrec, hconfig'.trans hconfig⟩,
    by rw [hin, hin', List.append_assoc]⟩

/-- `t` is what some events of the environment and the taking of characters leave of `s`, as far as
the source and the world go. -/
def Consumes (s t : State) : Prop := ∃ n taken, TookFrom taken (afterEvents n s) t

theorem consumes_of_tookFrom {taken : List Byte} {s t : State} (h : TookFrom taken s t) :
    Consumes s t := ⟨0, taken, h⟩

theorem Consumes.trans {s t u : State} (hst : Consumes s t) (htu : Consumes t u) :
    Consumes s u := by
  obtain ⟨n, taken, hst⟩ := hst
  obtain ⟨m, taken', htu⟩ := htu
  exact ⟨n + m, taken ++ taken', by rw [afterEvents_add]; exact (hst.afterEvents m).trans htu⟩

theorem tookFrom_nil {s t : State} (hw : WorldKept s t) (hin : t.input = s.input) :
    TookFrom [] s t := ⟨hw, hin.symm⟩

/-- A poll is one event, and the taking of one character at most. -/
theorem consumes_kbPoll (s : State) : Consumes s s.kbPoll := by
  refine ⟨1, s.environmentActs.input.take 1, kbPoll_worldKept s, ?_⟩
  rw [State.kbPoll_input, ← List.drop_one, List.take_append_drop]
  rfl

theorem consumes_pollAt (s : State) (a : Word) : Consumes s (s.pollAt a) := by
  unfold State.pollAt
  split
  · exact consumes_kbPoll s
  · exact consumes_of_tookFrom (tookFrom_nil ⟨rfl, rfl, rfl, rfl⟩ rfl)

theorem consumes_loadFrom (s : State) (d : Reg) (a : Word) : Consumes s (s.loadFrom d a) :=
  consumes_pollAt s a

theorem consumes_indirect (s : State) (o : BitVec 9) : Consumes s (s.indirect o).2 :=
  consumes_pollAt s _

theorem consumes_link (s : State) : Consumes s s.link :=
  consumes_of_tookFrom (tookFrom_nil ⟨rfl, rfl, rfl, rfl⟩ rfl)

theorem consumes_writeString (w : Wait) (s : State) : Consumes s (s.writeString w) := by
  rw [State.writeString_eq]
  exact stringLoop_keeps (P := Consumes s) (fun u a hu => hu.trans (consumes_pollAt u a))
    (fun _ _ hu => hu) (fun _ hu => hu) _ _ s
    (consumes_of_tookFrom (tookFrom_nil ⟨rfl, rfl, rfl, rfl⟩ rfl))

/-! ### The ports (rule R170) and the world (rules R7, R14, R197) -/

theorem tookFrom_finishGetc (s : State) : TookFrom (s.input.take 1) s s.finishGetc := by
  obtain ⟨c, rest, hin, h⟩ | ⟨hin, h⟩ := State.finishGetc_cases s
  · rw [h]; exact ⟨⟨rfl, rfl, rfl, rfl⟩, by simp [hin]⟩
  · rw [h]; exact ⟨⟨rfl, rfl, rfl, rfl⟩, by simp [hin]⟩

theorem tookFrom_finishIn (s : State) : TookFrom (s.input.take 1) s s.finishIn := by
  obtain ⟨c, rest, hin, h⟩ | ⟨hin, h⟩ := State.finishIn_cases s
  · rw [h]; exact ⟨⟨rfl, rfl, rfl, rfl⟩, by simp [hin]⟩
  · rw [h]; exact ⟨⟨rfl, rfl, rfl, rfl⟩, by simp [hin]⟩

/-- An instruction that reads no memory takes a character, if it is GETC or IN, and does nothing
else to the source and the world. -/
theorem exec_tookFrom_of_not_reads {i : Instr} {s t : State} (h : exec i s = .next t)
    (hreads : readsMemory i = false) :
    ∃ taken, TookFrom taken s t ∧ (¬ takesCharacter i → taken = []) := by
  cases i with
  | trapGetc => cases h; exact ⟨_, tookFrom_finishGetc s.link, fun hno => absurd (.inl rfl) hno⟩
  | trapIn =>
    cases h
    exact ⟨_, tookFrom_finishIn (s.link.emit _), fun hno => absurd (.inr rfl) hno⟩
  | ld | ldi | ldr | sti | trapPuts | trapPutsp => cases hreads
  | br =>
    rw [exec_br] at h
    cases h; exact ⟨[], tookFrom_nil ⟨rfl, rfl, rfl, rfl⟩ rfl, fun _ => rfl⟩
  | addReg | addImm | andReg | andImm | not | jmp | jsr | jsrr | lea | st | str | trapOut | trapHalt
  | trapUnknown | rti | res =>
    cases h; exact ⟨[], tookFrom_nil ⟨rfl, rfl, rfl, rfl⟩ rfl, fun _ => rfl⟩

/-- The reads of the others are all they do to the source and the world. -/
theorem exec_consumes_of_reads {i : Instr} {s t : State} (h : exec i s = .next t)
    (hreads : readsMemory i = true) : Consumes s t := by
  cases i with
  | ld | ldr => cases h; exact consumes_loadFrom s _ _
  | ldi => cases h; exact (consumes_indirect s _).trans (consumes_loadFrom _ _ _)
  | sti => cases h; exact consumes_indirect s _
  | trapPuts | trapPutsp =>
    cases h; exact (consumes_link s).trans (consumes_writeString _ _)
  | _ => cases hreads

theorem exec_consumes {i : Instr} {s t : State} (h : exec i s = .next t) : Consumes s t := by
  cases hreads : readsMemory i with
  | true => exact exec_consumes_of_reads h hreads
  | false =>
    obtain ⟨taken, htook, -⟩ := exec_tookFrom_of_not_reads h hreads
    exact consumes_of_tookFrom htook

theorem exec_output_of_not_writes {i : Instr} {s t : State} (h : exec i s = .next t)
    (hwrites : writesOutput i = false) : t.output = s.output := by
  cases i with
  | trapOut | trapPuts | trapIn | trapPutsp | trapHalt => cases hwrites
  | br => rw [exec_br] at h; cases h; rfl
  | ld | ldi | ldr | sti | trapGetc => cases h; simp
  | addReg | addImm | andReg | andImm | not | jmp | jsr | jsrr | lea | st | str | trapUnknown | rti
  | res => cases h; rfl

theorem finishIn_output_prefix (s : State) : s.output <+: s.finishIn.output := by
  obtain ⟨c, rest, -, h⟩ | ⟨-, h⟩ := State.finishIn_cases s
  · rw [h]; exact List.prefix_append _ _
  · rw [h]; exact List.prefix_refl _

/-- The output log is only appended to. -/
theorem exec_output_prefix {i : Instr} {s t : State} (h : exec i s = .next t) :
    s.output <+: t.output := by
  cases hwrites : writesOutput i with
  | false => rw [exec_output_of_not_writes h hwrites]
  | true =>
    cases i with
    | trapOut | trapHalt => cases h; exact List.prefix_append _ _
    | trapIn =>
      cases h
      exact (List.prefix_append _ _).trans (finishIn_output_prefix (s.link.emit s.config.inPrompt))
    | trapPuts | trapPutsp => cases h; exact State.writeString_output _ s.link
    | _ => cases hwrites

/-- Settles O44: the source by `exec_consumes`, the output by what each instruction emits. -/
theorem portsAreUsedOnlyAsListed : Obligations.PortsAreUsedOnlyAsListed := by
  intro i s t h
  obtain ⟨written, hwritten⟩ := exec_output_prefix h
  refine ⟨exec_consumes h, ⟨written, hwritten.symm⟩, fun hreads htakes => ?_,
    exec_output_of_not_writes h⟩
  obtain ⟨taken, ⟨-, hin⟩, hnil⟩ := exec_tookFrom_of_not_reads h hreads
  rw [hin, hnil htakes, List.nil_append]

/-- Settles O45: what the environment's events keep, every instruction keeps. -/
theorem worldIsNeverWritten : Obligations.WorldIsNeverWritten := by
  intro i s t h
  obtain ⟨n, taken, hworld, -⟩ := exec_consumes h
  have ⟨hstop, _, hrec, hconfig⟩ := hworld
  refine ⟨hconfig.trans (afterEvents_config n s), hrec.trans (afterEvents_recurring n s),
    fun hs => hstop.trans (afterEvents_stopReq n hs), ⟨n, hworld⟩, fun hreads => ?_⟩
  obtain ⟨taken, ⟨hkept, -⟩, -⟩ := exec_tookFrom_of_not_reads h hreads
  exact hkept

end Sys2Proof.Machine

/-! ## Registers an instruction does not name (rule R22) -/

namespace Sys2Proof.Machine

open Sys2Proof.Safety Sys2Proof.Statements

/-! ### A register write commutes with what does not use that register -/

section Commute

variable {r : Reg} (v : Word) (s : State)

theorem State.setReg_reg_other {i : Reg} (h : r ≠ i) : (s.setReg r v).reg i = s.reg i :=
  State.setReg_reg_of_ne s v h.symm

theorem State.setReg_setReg_other {d : Reg} (w : Word) (h : r ≠ d) :
    (s.setReg r v).setReg d w = (s.setReg d w).setReg r v := by
  have hrd : r.val ≠ d.val := fun e => h (Fin.ext e)
  simp only [State.setReg, Vector.set_comm _ _ hrd]

theorem State.setReg_setResult_other {d : Reg} (w : Word) (h : r ≠ d) :
    (s.setReg r v).setResult d w = (s.setResult d w).setReg r v := by
  rw [State.setResult, State.setReg_setReg_other v s w h, State.setcc,
    State.setReg_reg_other v _ h]
  rfl

theorem State.setReg_link_other (h : r ≠ 7) : (s.setReg r v).link = s.link.setReg r v :=
  State.setReg_setReg_other v s s.pc h

theorem State.setReg_latch : (s.setReg r v).latch = s.latch.setReg r v := by
  cases hin : s.input with
  | nil => rw [State.latch_nil hin, State.latch_nil (s := s.setReg r v) hin]; rfl
  | cons c rest => rw [State.latch_cons hin, State.latch_cons (s := s.setReg r v) hin]; rfl

theorem State.setReg_environmentActs :
    (s.setReg r v).environmentActs = s.environmentActs.setReg r v := by
  have hup : (s.setReg r v).upcoming = s.upcoming := rfl
  unfold State.environmentActs
  rw [hup]
  split <;> rfl

theorem State.setReg_pollAt (a : Word) : (s.setReg r v).pollAt a = (s.pollAt a).setReg r v := by
  by_cases ha : a = s.config.kbsrAddr
  · rw [State.pollAt_kbsr ha, State.pollAt_kbsr (s := s.setReg r v) ha, State.kbPoll,
      State.setReg_environmentActs, State.setReg_latch, State.kbPoll]
  · rw [State.pollAt_of_ne ha, State.pollAt_of_ne (s := s.setReg r v) ha]

end Commute

theorem stringLoop_setReg (w : Wait) (r : Reg) (v : Word) :
    ∀ (n : Nat) (a : Word) (s : State),
      stringLoop w n a (s.setReg r v) = (stringLoop w n a s).setReg r v := by
  intro n
  induction n with
  | zero => exact fun _ _ => rfl
  | succ n ih =>
    intro a s
    rw [stringLoop_succ, stringLoop_succ, State.setReg_pollAt, State.setReg_mem]
    split
    · rfl
    · exact ih (a + 1) ((s.pollAt a).emit (w.chars ((s.pollAt a).mem.read a)))

section Services

variable {r : Reg} (v : Word) (s : State)

theorem State.setReg_indirect (o : BitVec 9) :
    (s.setReg r v).indirect o = ((s.indirect o).1, (s.indirect o).2.setReg r v) := by
  have hpc : (s.setReg r v).pcRelative o = s.pcRelative o := rfl
  rw [State.indirect, hpc, State.memRead, State.setReg_pollAt]
  rfl

theorem State.setReg_loadFrom_other {d : Reg} (a : Word) (h : r ≠ d) :
    (s.setReg r v).loadFrom d a = (s.loadFrom d a).setReg r v := by
  simp only [State.loadFrom, State.memRead_fst, State.memRead_snd, State.setReg_pollAt,
    State.setReg_mem]
  exact State.setReg_setResult_other v _ _ h

theorem State.setReg_writeString_other (w : Wait) (h : r ≠ 0) :
    (s.setReg r v).writeString w = (s.writeString w).setReg r v := by
  rw [State.writeString_eq, State.setReg_reg_other v s h, State.setReg_stringReads,
    stringLoop_setReg]
  rfl

theorem State.setReg_finishGetc_other (h : r ≠ 0) :
    (s.setReg r v).finishGetc = s.finishGetc.setReg r v := by
  cases hin : s.input with
  | nil => rw [State.finishGetc_nil hin, State.finishGetc_nil (s := s.setReg r v) hin]; rfl
  | cons c rest =>
    rw [State.finishGetc_cons hin, State.finishGetc_cons (s := s.setReg r v) hin]
    exact State.setReg_setResult_other v ((s.setInput rest).setHold none) _ h

theorem State.setReg_finishIn_other (h : r ≠ 0) :
    (s.setReg r v).finishIn = s.finishIn.setReg r v := by
  cases hin : s.input with
  | nil => rw [State.finishIn_nil hin, State.finishIn_nil (s := s.setReg r v) hin]; rfl
  | cons c rest =>
    rw [State.finishIn_cons hin, State.finishIn_cons (s := s.setReg r v) hin]
    exact State.setReg_setResult_other v (((s.setInput rest).setHold none).out c) _ h

end Services

/-! ### Every instruction -/

/-- Another value in a register that the instruction does not name is the same value in it after,
and nothing else of the outcome differs. -/
theorem exec_setReg_other {i : Instr} (s : State) {r : Reg} (v : Word) (hreads : r ∉ readsOf i)
    (hwrites : r ∉ writesOf i) :
    exec i (s.setReg r v) = mapNext (fun t => t.setReg r v) (exec i s) := by
  cases i with
  | addReg d a b | andReg d a b =>
    obtain ⟨ha, hb⟩ : r ≠ a ∧ r ≠ b := by simpa [readsOf] using hreads
    have hd : r ≠ d := by simpa [writesOf] using hwrites
    simp only [exec, execAddReg, execAndReg, mapNext, State.setReg_reg_other v s ha,
      State.setReg_reg_other v s hb, State.setReg_setResult_other v s _ hd]
  | addImm d a _ | andImm d a _ | not d a =>
    have ha : r ≠ a := by simpa [readsOf] using hreads
    have hd : r ≠ d := by simpa [writesOf] using hwrites
    simp only [exec, execAddImm, execAndImm, execNot, mapNext, State.setReg_reg_other v s ha,
      State.setReg_setResult_other v s _ hd]
  | br => rw [exec_br, exec_br]; rfl
  | jmp b =>
    have hb : r ≠ b := by simpa [readsOf] using hreads
    simp only [exec, execJmp, mapNext, State.setReg_reg_other v s hb]
    rfl
  | jsr =>
    have h7 : r ≠ 7 := by simpa [writesOf] using hwrites
    simp only [exec, execJsr, mapNext, State.setReg_link_other v s h7]
    rfl
  | jsrr b =>
    have hb : r ≠ b := by simpa [readsOf] using hreads
    have h7 : r ≠ 7 := by simpa [writesOf] using hwrites
    simp only [exec, execJsrr, mapNext, State.setReg_link_other v s h7,
      State.setReg_reg_other v s.link hb]
    rfl
  | ld d o =>
    have hd : r ≠ d := by simpa [writesOf] using hwrites
    exact congrArg Host.Outcome.next (State.setReg_loadFrom_other v s _ hd)
  | ldi d o =>
    have hd : r ≠ d := by simpa [writesOf] using hwrites
    simp only [exec, execLdi, mapNext, State.setReg_indirect,
      State.setReg_loadFrom_other v (s.indirect o).2 _ hd]
  | ldr d b o =>
    have hb : r ≠ b := by simpa [readsOf] using hreads
    have hd : r ≠ d := by simpa [writesOf] using hwrites
    simp only [exec, execLdr, mapNext, State.baseOffset, State.setReg_reg_other v s hb,
      State.setReg_loadFrom_other v s _ hd]
  | lea d o =>
    have hd : r ≠ d := by simpa [writesOf] using hwrites
    exact congrArg Host.Outcome.next (State.setReg_setResult_other v s _ hd)
  | st a o =>
    have ha : r ≠ a := by simpa [readsOf] using hreads
    simp only [exec, execSt, mapNext, State.setReg_reg_other v s ha]
    rfl
  | sti a o =>
    have ha : r ≠ a := by simpa [readsOf] using hreads
    simp only [exec, execSti, mapNext, State.setReg_indirect, State.setReg_reg_other v s ha]
    rfl
  | str a b o =>
    obtain ⟨ha, hb⟩ : r ≠ a ∧ r ≠ b := by simpa [readsOf] using hreads
    simp only [exec, execStr, mapNext, State.baseOffset, State.setReg_reg_other v s ha,
      State.setReg_reg_other v s hb]
    rfl
  | trapGetc =>
    obtain ⟨h7, h0⟩ : r ≠ 7 ∧ r ≠ 0 := by simpa [writesOf] using hwrites
    simp only [exec, execTrapGetc, mapNext, State.setReg_link_other v s h7,
      State.setReg_finishGetc_other v s.link h0]
  | trapIn =>
    obtain ⟨h7, h0⟩ : r ≠ 7 ∧ r ≠ 0 := by simpa [writesOf] using hwrites
    simp only [exec, execTrapIn, mapNext, State.setReg_link_other v s h7]
    exact congrArg Host.Outcome.next
      (State.setReg_finishIn_other v (s.link.emit s.config.inPrompt) h0)
  | trapOut =>
    have h0 : r ≠ 0 := by simpa [readsOf] using hreads
    have h7 : r ≠ 7 := by simpa [writesOf] using hwrites
    simp only [exec_trapOut, mapNext, State.setReg_reg_other v s h0, State.setReg_link_other v s h7]
    rfl
  | trapPuts | trapPutsp =>
    have h0 : r ≠ 0 := by simpa [readsOf] using hreads
    have h7 : r ≠ 7 := by simpa [writesOf] using hwrites
    simp only [exec, execTrapPuts, execTrapPutsp, mapNext, State.setReg_link_other v s h7,
      State.setReg_writeString_other v s.link _ h0]
  | trapHalt | trapUnknown =>
    have h7 : r ≠ 7 := by simpa [writesOf] using hwrites
    simp only [exec, execTrapHalt, execTrapUnknown, mapNext, State.setReg_link_other v s h7]
    rfl
  | rti | res => rfl

/-- Settles O41: `exec_setReg_other`; and with the value that the register has, which changes
nothing before, it says that the register has that value after. -/
theorem unlistedRegistersAreNeitherReadNorWritten :
    Obligations.UnlistedRegistersAreNeitherReadNorWritten := by
  intro i s r v hreads hwrites
  refine ⟨exec_setReg_other s v hreads hwrites, fun t h => ?_⟩
  have hsame := exec_setReg_other s (s.reg r) hreads hwrites
  rw [State.setReg_self, h] at hsame
  have ht : t = t.setReg r (s.reg r) := Host.Outcome.next.inj hsame
  rw [ht, State.setReg_reg_same]

end Sys2Proof.Machine

/-! ## The loader and boot (rules R220, R226 to R231) -/

namespace Sys2Proof.Machine

open Sys2Proof.Safety Sys2Proof.Statements

/-! ### The words of a byte sequence -/

theorem wordsOfBytes_length (bs : List Byte) : (wordsOfBytes bs).length = bs.length / 2 := by
  induction bs using wordsOfBytes.induct with
  | case1 => rfl
  | case2 => simp [wordsOfBytes]
  | case3 first second rest ih => simp only [wordsOfBytes, List.length_cons, ih]; omega

/-- Word k is made of the bytes 2k and 2k + 1. -/
theorem wordsOfBytes_getElem? {bs : List Byte} :
    ∀ {k : Nat}, k < bs.length / 2 → ∃ hi lo, bs[2 * k]? = some hi ∧ bs[2 * k + 1]? = some lo ∧
      (wordsOfBytes bs)[k]? = some (hi ++ lo) := by
  induction bs using wordsOfBytes.induct with
  | case1 => exact fun h => absurd h (by simp)
  | case2 => exact fun h => absurd h (by simp)
  | case3 first second rest ih =>
    intro k hk
    cases k with
    | zero => exact ⟨first, second, rfl, rfl, rfl⟩
    | succ k =>
      obtain ⟨hi, lo, hhi, hlo, hword⟩ := ih (k := k) (by simp only [List.length_cons] at hk; omega)
      exact ⟨hi, lo, hhi, hlo, hword⟩

/-- Settles O39: the two bytes of a word make the word, and so for each word of the payload. -/
theorem imageBytesParseBack : Obligations.ImageBytesParseBack := by
  intro i
  have hpayload : ∀ ws : List Word, wordsOfBytes (ws.flatMap bytesOfWord) = ws := by
    intro ws
    induction ws with
    | nil => rfl
    | cons w ws ih =>
      show bigEndian (highByte w) (lowByte w) :: wordsOfBytes (ws.flatMap bytesOfWord) = w :: ws
      rw [ih, bigEndian, highByte_append_lowByte]
  show some (Image.mk (bigEndian (highByte i.origin) (lowByte i.origin))
    (wordsOfBytes (i.payload.flatMap bytesOfWord))) = some i
  rw [hpayload, bigEndian, highByte_append_lowByte]

/-! ### Placing words -/

theorem placeWords_wf {ws : List Word} :
    ∀ {a : Nat} {m : Memory}, m.wf → (placeWords a ws m).wf := by
  induction ws with
  | nil => exact fun hwf => hwf
  | cons w ws ih =>
    intro a m hwf
    rw [placeWords]
    split
    · exact ih (Memory.write_wf hwf _ w)
    · exact hwf

/-- What memory reads as after words are placed: the clip at 65535 shows in no cell, since no
address is above it. -/
theorem placeWords_read {ws : List Word} :
    ∀ {a : Nat} {m : Memory}, m.wf → ∀ b : Word,
      (placeWords a ws m).read b =
        if a ≤ b.toNat then ws[b.toNat - a]?.getD (m.read b) else m.read b := by
  induction ws with
  | nil => intro a m _ b; simp [placeWords]
  | cons w ws ih =>
    intro a m hwf b
    have hb := b.isLt
    rw [placeWords]
    split
    case isFalse ha => rw [if_neg (by omega)]
    case isTrue ha =>
      rw [ih (Memory.write_wf hwf _ w) b, Memory.read_write hwf]
      have heq : b = BitVec.ofNat 16 a ↔ b.toNat = a := by
        rw [← BitVec.toNat_inj, BitVec.toNat_ofNat, Nat.mod_eq_of_lt ha]
      simp only [heq]
      obtain hlt | rfl | hgt := Nat.lt_trichotomy b.toNat a
      · rw [if_neg (by omega), if_neg (by omega), if_neg (by omega)]
      · simp
      · have hindex : b.toNat - a = b.toNat - (a + 1) + 1 := by omega
        rw [if_pos (by omega), if_neg (by omega), if_pos (by omega), hindex,
          List.getElem?_cons_succ]

/-- Settles O36: the words that are placed are those of the bytes, and the cells outside their range
read as before. -/
theorem loaderPlacesAndClips : Obligations.LoaderPlacesAndClips := by
  intro s b0 b1 rest hwf
  have hread := placeWords_read (ws := wordsOfBytes rest) (a := (b0 ++ b1 : Word).toNat) hwf
  refine ⟨s.setMem (placeWords (b0 ++ b1 : Word).toNat (wordsOfBytes rest) s.mem), rfl,
    fun k hk => ?_, fun a ha => ?_, rfl⟩
  · obtain ⟨hi, lo, hhi, hlo, hword⟩ := wordsOfBytes_getElem? (bs := rest) (k := k) (by omega)
    have haddr : (BitVec.ofNat 16 ((b0 ++ b1 : Word).toNat + k)).toNat =
        (b0 ++ b1 : Word).toNat + k := by
      rw [BitVec.toNat_ofNat]
      exact Nat.mod_eq_of_lt (by omega)
    refine ⟨hi, lo, hhi, hlo, (hread _).trans ?_⟩
    rw [haddr, if_pos (Nat.le_add_right _ _), Nat.add_sub_cancel_left, hword]
    rfl
  · refine (hread a).trans ?_
    have hlt := a.isLt
    split
    case isFalse => rfl
    case isTrue hle =>
      have hnone : (wordsOfBytes rest)[a.toNat - (b0 ++ b1 : Word).toNat]? = none := by
        rw [List.getElem?_eq_none_iff, wordsOfBytes_length]
        omega
      rw [hnone, Option.getD_none]

/-! ### Several images -/

theorem State.loadImages_cons (s : State) (bytes : List Byte) (more : List (List Byte)) :
    s.loadImages (bytes :: more) = (s.loadImage bytes).bind fun m => m.loadImages more := by
  rw [State.loadImages]
  cases s.loadImage bytes <;> rfl

/-- An image loads if it has an origin, and then memory is all that changes. -/
theorem State.loadImage_cases (s : State) (bytes : List Byte) :
    (bytes.length < 2 ∧ s.loadImage bytes = none) ∨
      (2 ≤ bytes.length ∧ ∃ o ws, s.loadImage bytes = some (s.setMem (placeWords o ws s.mem))) := by
  match bytes with
  | [] => exact .inl ⟨Nat.zero_lt_two, rfl⟩
  | [_] => exact .inl ⟨Nat.one_lt_two, rfl⟩
  | _ :: _ :: _ => exact .inr ⟨Nat.le_add_left _ _, _, _, rfl⟩

/-- Settles O37, by induction on the list of images. -/
theorem imagesLoadInOrderOrNotAtAll : Obligations.ImagesLoadInOrderOrNotAtAll := by
  refine ⟨fun s images => ?_, fun s images last => ?_⟩
  · induction images generalizing s with
    | nil => simp [State.loadImages]
    | cons bytes more ih =>
      rw [State.loadImages_cons, List.forall_mem_cons]
      obtain ⟨hshort, hnone⟩ | ⟨hlong, o, ws, hsome⟩ := State.loadImage_cases s bytes
      · simp [hnone, Nat.not_le_of_lt hshort]
      · rw [hsome, Option.bind_some, ih, and_iff_right hlong]
  · induction images generalizing s with
    | nil =>
      rw [List.nil_append, State.loadImages_cons]
      exact Option.bind_fun_some (s.loadImage last)
    | cons bytes more ih =>
      rw [List.cons_append, State.loadImages_cons, State.loadImages_cons, Option.bind_assoc]
      exact congrArg _ (funext fun m => ih m)

/-- The loader changes memory only, and keeps its canonical form. -/
theorem State.loadImages_setMem {images : List (List Byte)} {t : State} :
    ∀ {s : State}, s.loadImages images = some t → t = s.setMem t.mem ∧ (s.mem.wf → t.mem.wf) := by
  induction images with
  | nil => intro s h; cases h; exact ⟨rfl, id⟩
  | cons bytes more ih =>
    intro s h
    rw [State.loadImages_cons] at h
    obtain ⟨m, hm, hrest⟩ := Option.bind_eq_some_iff.mp h
    obtain ⟨-, hnone⟩ | ⟨-, o, ws, hsome⟩ := State.loadImage_cases s bytes
    · rw [hnone] at hm; cases hm
    · rw [hsome] at hm
      cases hm
      obtain ⟨ht, hwf⟩ := ih hrest
      exact ⟨ht, fun hs => hwf (placeWords_wf hs)⟩

/-! ### The invariant where a run begins -/

/-- What the invariant asks of a state that runs, with no service held. -/
theorem inv_of_running {s : State} (hwf : s.mem.wf) (hconfig : s.config.wf = true)
    (hrun : s.run = .running) (hfault : s.fault = none) (hhold : s.hold = none) : Inv s where
  memory := hwf
  config := hconfig
  fault := by rw [hfault]; simp [hrun]
  hold := by rw [hhold]; trivial
  halted := by simp [hrun]
  stopped := by simp [hrun]

/-- Settles O35: reset runs, with empty memory and the default configuration. -/
theorem resetMeetsInvariant : Obligations.ResetMeetsInvariant :=
  inv_of_running Memory.wf_nil (by decide) rfl rfl rfl

/-- Settles O38: the loader changes memory only, so what boot leaves runs as reset does. -/
theorem bootChangesMemoryOnly : Obligations.BootChangesMemoryOnly := by
  intro c images t h
  obtain ⟨ht, hwf⟩ := State.loadImages_setMem h
  refine ⟨ht, fun hc => ?_⟩
  have hmem : t.mem.wf := hwf Memory.wf_nil
  rw [ht]
  exact inv_of_running hmem hc rfl rfl rfl

end Sys2Proof.Machine

/-! ## The cycle (rules R110 to R116, R200, R201) -/

namespace Sys2Proof.Machine

open Sys2Proof.Safety Sys2Proof.Statements

/-! ### What a step is, by the state it begins in -/

theorem step_of_terminal {s : State} (h : s.run ≠ .running) : step s = .next s := by
  rw [step, State.engineStep]
  cases hrun : s.run with
  | running => exact absurd hrun h
  | halted | faulted | stopped => rfl

theorem step_of_no_hold {s : State} (hrun : s.run = .running) (hhold : s.hold = none) :
    step s = s.environmentActs.beginStep := by
  rw [step, State.engineStep, hrun]
  simp only [State.runningStep, hhold]

theorem step_of_stopReq {s : State} (hrun : s.run = .running) (hhold : s.hold = none)
    (hstop : s.environmentActs.stopReq = true) : step s = .next s.environmentActs.stop := by
  rw [step_of_no_hold hrun hhold, State.beginStep, if_pos hstop]

/-- The fetch, the increment and the instruction (rule R110). -/
theorem step_of_fetches {s : State} (h : Fetches s) :
    step s = exec (s.config.encoding.decode (s.environmentActs.memRead s.pc).1)
      ((s.environmentActs.memRead s.pc).2.setPc (s.pc + 1)) := by
  obtain ⟨hrun, hhold, hstop⟩ := h
  rw [step_of_no_hold hrun hhold, State.beginStep, hstop]
  simp [State.runInstruction, State.fetch]

/-- Settles O26: `step_of_fetches` for the instruction that the word decodes to. -/
theorem stepRunsDecodedInstruction : Obligations.StepRunsDecodedInstruction := by
  rintro s i h rfl
  exact step_of_fetches h

/-- Settles O27: a step of a terminal state answers it, and so does every further one. -/
theorem terminalStatesAreFrozen : Obligations.TerminalStatesAreFrozen := by
  refine fun s h => ⟨step_of_terminal h, fun n => ?_⟩
  induction n with
  | zero => rfl
  | succ n ih => rw [run_succ_of_next n (step_of_terminal h), ih]

/-- A stop writes RUN and ends what was held; the environment's event before it touches no field of
the engine's own. -/
theorem environmentActs_stop_spec (s : State) :
    s.environmentActs.stop.run = .stopped ∧ s.environmentActs.stop.hold = none ∧
      s.environmentActs.stop.cond = s.cond ∧ s.environmentActs.stop.pc = s.pc ∧
      s.environmentActs.stop.regs = s.regs ∧ s.environmentActs.stop.mem = s.mem ∧
      s.environmentActs.stop.output = s.output ∧ s.environmentActs.stop.fault = s.fault :=
  ⟨rfl, rfl, State.environmentActs_cond s, State.environmentActs_pc s, State.environmentActs_regs s,
    State.environmentActs_mem s, State.environmentActs_output s, State.environmentActs_fault s⟩

/-- Settles O28: the step is `State.stop` of what the environment left. -/
theorem stopRequestStopsBeforeFetch : Obligations.StopRequestStopsBeforeFetch := by
  intro s hrun hhold hstop
  obtain ⟨hrun', hhold', hcond, hpc, hregs, hmem, hout, hfault⟩ := environmentActs_stop_spec s
  exact ⟨_, step_of_stopReq hrun hhold hstop, hrun', hregs, hpc, hcond, hmem, hfault, hout, rfl,
    State.environmentActs_config s, hhold'⟩

/-- Settles O31: a terminal state answers itself, a held service what `resume` leaves, a stop
request `STOPPED`, and every instruction has a next state. -/
theorem everyStepAnswersNextState : Obligations.EveryStepAnswersNextState := by
  intro s
  by_cases hrun : s.run = .running
  · cases hhold : s.hold with
    | some w => exact ⟨_, step_of_hold hrun hhold⟩
    | none =>
      cases hstop : s.environmentActs.stopReq with
      | true => exact ⟨_, step_of_stopReq hrun hhold hstop⟩
      | false => rw [step_of_fetches ⟨hrun, hhold, hstop⟩]; exact exec_next _ _
  · exact ⟨s, step_of_terminal hrun⟩

/-! ### The step that waits (rules R116, R201) -/

theorem State.waitFor_cons {s : State} {c : Byte} {rest : List Byte} (h : s.input = c :: rest)
    (finish : State → State) : s.waitFor finish = finish s := by
  simp [State.waitFor, State.inAvail, h]

theorem State.waitFor_stop {s : State} (h : s.input = []) (hb : s.config.stopEndsWait = true)
    (hstop : s.stopReq = true) (finish : State → State) : s.waitFor finish = s.stop := by
  simp [State.waitFor, State.inAvail, h, hb, hstop]

theorem State.waitFor_nil {s : State} (hb : ¬ (s.config.stopEndsWait = true ∧ s.stopReq = true))
    (finish : State → State) : s.waitFor finish = finish s := by
  rw [← Bool.and_eq_true, Bool.not_eq_true] at hb
  simp [State.waitFor, hb]

/-- The rest of a service from its `InTake()` on, and the step of one that is held. -/
theorem State.resume_wait {w : Wait} (hw : w = .getc ∨ w = .inService) :
    ∃ finish : State → State,
      (∀ s : State, s.resume w = s.environmentActs.waitFor finish) ∧
      (∀ s : State, s.input = [] → finish s = s.setHold (some w)) ∧
      ∀ (s : State) (c : Byte) (rest : List Byte), s.input = c :: rest →
        (finish s).reg 0 = c.setWidth 16 ∧
          (finish s).cond = (if c = 0x00#8 then .zero else .positive) ∧
          (finish s).input = rest ∧
          (finish s).output = s.output ++ (if w = .inService then [c] else []) ∧
          (finish s).hold = none ∧ TrapFrame [0] s (finish s) := by
  obtain rfl | rfl := hw
  · exact ⟨State.finishGetc, fun _ => rfl, fun _ => State.finishGetc_nil,
      fun s c rest h => by simpa using finishGetc_spec h⟩
  · exact ⟨State.finishIn, fun _ => rfl, fun _ => State.finishIn_nil,
      fun s c rest h => by simpa using finishIn_spec h⟩

/-- Settles O29: a pending character is taken before the stop request is looked at; without one the
wait ends in `State.stop`, or the mark of the held step is written again, which changes nothing. -/
theorem waitingStepIsHeldUntilInput : Obligations.WaitingStepIsHeldUntilInput := by
  intro s w hw hrun hhold
  obtain ⟨finish, hresume, hnil, hcons⟩ := State.resume_wait hw
  rw [step_of_hold hrun hhold, hresume]
  refine ⟨fun c rest hin => ?_, fun hin => ⟨fun ⟨hb, hstop⟩ => ?_, fun hb => ?_⟩⟩
  · rw [State.waitFor_cons hin]
    obtain ⟨h0, hcond, hinput, hout, hheld, hframe⟩ := hcons _ c rest hin
    have ⟨_, _, _, hrun', _⟩ := hframe
    exact ⟨_, rfl, hheld, hinput, h0, hcond, by simpa using hout, by simpa [hrun] using hrun',
      hframe⟩
  · rw [State.waitFor_stop hin (by simpa using hb) hstop]
    exact ⟨_, rfl, environmentActs_stop_spec s⟩
  · rw [State.waitFor_nil (by simpa using hb), hnil _ hin,
      State.setHold_self (by simpa using hhold)]

/-! ### An environment with no future -/

/-- The engine runs, nothing is held, no stop request is up, and nothing is to come. -/
structure Quiet (s : State) : Prop where
  run         : s.run = .running
  hold        : s.hold = none
  stopReq     : s.stopReq = false
  environment : s.environment = []
  recurring   : s.recurring = []

theorem Quiet.environmentActs {s : State} (h : Quiet s) : s.environmentActs = s :=
  State.environmentActs_nil h.environment h.recurring

theorem Quiet.step_eq {s : State} (h : Quiet s) :
    step s = exec (s.config.encoding.decode (s.memRead s.pc).1)
      ((s.memRead s.pc).2.setPc (s.pc + 1)) := by
  have hfetches : Fetches s := ⟨h.run, h.hold, by rw [h.environmentActs, h.stopReq]⟩
  rw [step_of_fetches hfetches, h.environmentActs]

/-- The fetch from a cell other than KBSR is plain. -/
theorem Quiet.step_of_ne {s : State} (h : Quiet s) {a : Word} (hpc : s.pc = a)
    (ha : a ≠ s.config.kbsrAddr) :
    step s = exec (s.config.encoding.decode (s.mem.read a)) (s.setPc (a + 1)) := by
  subst hpc
  rw [h.step_eq, State.memRead_of_ne ha]

/-- Settles O48: two plain fetches, the second from the cell that the first step wrote. -/
theorem storedWordIsExecutedNext : Obligations.StoredWordIsExecutedNext := by
  intro s r hwf hrun hhold hstop henv hrec hpc hpc' hst
  have haddr : (s.setPc (s.pc + 1)).pcRelative (0 : BitVec 9) = s.pc + 1 := by
    simp [State.pcRelative, sext]
  have hstep : step s = .next ((s.setPc (s.pc + 1)).memWrite (s.pc + 1) (s.reg r)) := by
    rw [Quiet.step_of_ne ⟨hrun, hhold, hstop, henv, hrec⟩ rfl hpc, hst, exec, execSt, haddr,
      State.setPc_reg]
  have hquiet : Quiet ((s.setPc (s.pc + 1)).memWrite (s.pc + 1) (s.reg r)) :=
    ⟨hrun, hhold, hstop, henv, hrec⟩
  have hread : (s.mem.write (s.pc + 1) (s.reg r)).read (s.pc + 1) = s.reg r :=
    Memory.read_write_same hwf _ _
  have hpc2 : s.pc + 2 = s.pc + 1 + 1 := by rw [BitVec.add_assoc]; rfl
  refine ⟨_, hstep, rfl, ?_⟩
  rw [hquiet.step_of_ne (a := s.pc + 1) rfl hpc', hpc2]
  exact congrArg (fun v => exec (s.config.encoding.decode v) _) hread

/-- Settles O49: the fetch is a poll that finds a character, so the word is 0x8000, which is RTI. -/
theorem fetchFromKbsrWithInputFaults : Obligations.FetchFromKbsrWithInputFaults := by
  rintro s c rest ⟨hwf, hne⟩ hfetches hencoding hpc hin
  have hwf' := State.environmentActs_wf hwf
  have hconfig := State.environmentActs_config s
  have hread : s.environmentActs.memRead s.pc = (0x8000#16, s.environmentActs.kbPoll) := by
    rw [hpc, ← hconfig]
    exact State.memRead_kbsr_cons hwf' (by rwa [hconfig]) hin
  have hrti : Encoding.published.decode 0x8000#16 = .rti 0x8000#16 := by decide
  rw [step_of_fetches hfetches, hread, hencoding, hrti]
  refine ⟨_, rfl, rfl, ?_, ?_, ?_⟩
  · simp
  · simp [hin]
  · have hkbdr := State.kbPoll_read_kbdr_cons hwf' hin
    rw [hconfig, zext8_eq_setWidth] at hkbdr
    simpa using hkbdr

/-! ### An engine with empty memory (rules R90, R233) -/

/-- With nothing pending and nothing to come a poll of an empty memory leaves it empty. -/
theorem Quiet.pollAt_of_empty {s : State} (h : Quiet s) (hmem : s.mem = []) (hin : s.input = [])
    (a : Word) : s.pollAt a = s := by
  have hacts := h.environmentActs
  unfold State.pollAt
  split
  · have hwrite : Memory.write [] s.config.kbsrAddr 0x0000#16 = [] := rfl
    rw [State.kbPoll_nil (hacts.symm ▸ hin), hacts, State.memWrite, hmem, hwrite, ← hmem]
    rfl
  · rfl

theorem brTaken_mask_000 (c : Cond) : brTaken false false false c = false := by cases c <;> rfl

/-- The zero word is a BR that is never taken. -/
theorem Quiet.step_of_empty {s : State} (h : Quiet s) (hmem : s.mem = []) (hin : s.input = [])
    (hencoding : s.config.encoding = Encoding.published) :
    step s = .next (s.setPc (s.pc + 1)) := by
  have hnop : Encoding.published.decode 0x0000#16 = .br false false false 0 := by decide
  rw [h.step_eq, State.memRead_fst, State.memRead_snd, h.pollAt_of_empty hmem hin, hmem,
    Memory.read_nil, hencoding, hnop, exec_br, brTaken_mask_000]
  rfl

/-- Settles O50, by induction on the number of steps. -/
theorem zeroMemoryIsWalkedForEver : Obligations.ZeroMemoryIsWalkedForEver := by
  intro n
  induction n with
  | zero =>
    intro s _ _ _ _ _ _ _ _
    rw [BitVec.add_zero]
    rfl
  | succ n ih =>
    intro s hmem hrun hhold hstop henv hrec hin hencoding
    have hquiet : Quiet s := ⟨hrun, hhold, hstop, henv, hrec⟩
    rw [run_succ_of_next n (hquiet.step_of_empty hmem hin hencoding),
      ih (s.setPc (s.pc + 1)) hmem hrun hhold hstop henv hrec hin hencoding, addr_succ]
    rfl

end Sys2Proof.Machine

/-! ## The invariant (rules R29, R116, R167, R190 to R192, R200) -/

namespace Sys2Proof.Machine

open Sys2Proof.Safety Sys2Proof.Statements

/-! ### Fields that an instruction leaves -/

theorem loadFrom_wf {s : State} (hwf : s.mem.wf) (d : Reg) (a : Word) :
    (s.loadFrom d a).mem.wf := State.pollAt_wf hwf a

theorem indirect_wf {s : State} (hwf : s.mem.wf) (o : BitVec 9) : (s.indirect o).2.mem.wf :=
  State.pollAt_wf hwf _

/-- Every instruction keeps the canonical form of memory. -/
theorem exec_wf {i : Instr} {s t : State} (h : exec i s = .next t) (hwf : s.mem.wf) : t.mem.wf := by
  cases hstores : storesMemory i with
  | true =>
    cases i with
    | st | str => cases h; exact Memory.write_wf hwf _ _
    | sti => cases h; exact Memory.write_wf (indirect_wf hwf _) _ _
    | _ => cases hstores
  | false =>
    cases hreads : readsMemory i with
    | false => rw [exec_mem_of_not_stores_of_not_reads h hstores hreads]; exact hwf
    | true =>
      cases i with
      | ld | ldr => cases h; exact loadFrom_wf hwf _ _
      | ldi => cases h; exact loadFrom_wf (indirect_wf hwf _) _ _
      | trapPuts | trapPutsp => cases h; exact State.writeString_wf _ (s := s.link) hwf
      | sti => cases hstores
      | _ => cases hreads

theorem exec_config {i : Instr} {s t : State} (h : exec i s = .next t) : t.config = s.config := by
  obtain ⟨hconfig, -⟩ := worldIsNeverWritten i s t h
  exact hconfig

/-- The instruction can leave its step unfinished. -/
def mayHold (i : Instr) : Prop := takesCharacter i ∨ i = .trapPuts ∨ i = .trapPutsp

theorem exec_fault_hold {i : Instr} {s t : State} (h : exec i s = .next t)
    (hlegal : i.illegal = false) (hhold : ¬ mayHold i) : t.fault = s.fault ∧ t.hold = s.hold := by
  cases i with
  | trapUnknown | rti | res => cases hlegal
  | trapGetc | trapIn | trapPuts | trapPutsp => simp [mayHold, takesCharacter] at hhold
  | br => rw [exec_br] at h; cases h; exact ⟨rfl, rfl⟩
  | ld | ldi | ldr | sti => cases h; simp
  | addReg | addImm | andReg | andImm | not | jmp | jsr | jsrr | lea | st | str | trapOut
  | trapHalt => cases h; exact ⟨rfl, rfl⟩

/-! ### What the invariant says while the engine runs -/

/-- The invariant of a running state, but for what it says of a held service. -/
structure Runs (s : State) : Prop where
  memory : s.mem.wf
  config : s.config.wf = true
  run    : s.run = .running
  fault  : s.fault = none

theorem Runs.sound {s : State} (h : Runs s) : Sound s := by
  obtain ⟨hne, -⟩ := Bool.and_eq_true_iff.mp h.config
  exact ⟨h.memory, by simpa using hne⟩

theorem Runs.environmentActs {s : State} (h : Runs s) : Runs s.environmentActs :=
  ⟨by simpa using h.memory, by simpa using h.config, by simpa using h.run, by simpa using h.fault⟩

theorem Runs.pollAt {s : State} (h : Runs s) (a : Word) : Runs (s.pollAt a) :=
  ⟨State.pollAt_wf h.memory a, by simpa using h.config, by simpa using h.run,
    by simpa using h.fault⟩

theorem Runs.setPc {s : State} (h : Runs s) (v : Word) : Runs (s.setPc v) :=
  ⟨h.memory, h.config, h.run, h.fault⟩

theorem Runs.link {s : State} (h : Runs s) : Runs s.link :=
  ⟨h.memory, h.config, h.run, h.fault⟩

theorem Runs.emit {s : State} (h : Runs s) (bs : List Byte) : Runs (s.emit bs) :=
  ⟨h.memory, h.config, h.run, h.fault⟩

theorem Runs.setHold {s : State} (h : Runs s) (w : Option Wait) : Runs (s.setHold w) :=
  ⟨h.memory, h.config, h.run, h.fault⟩

/-- With no service held the invariant asks no more. -/
theorem Runs.inv {s : State} (h : Runs s) (hhold : s.hold = none) : Inv s :=
  inv_of_running h.memory h.config h.run h.fault hhold

/-- What the invariant says of a held service `w`. -/
def HeldTrue (s : State) (w : Wait) : Prop :=
  s.reg 7 = s.pc ∧ (w = .inService → s.config.inPrompt <:+ s.output) ∧
    (w = .puts ∨ w = .putsp → NeverEnds s)

theorem Runs.inv_held {s : State} {w : Wait} (h : Runs s) (hhold : s.hold = some w)
    (hheld : HeldTrue s w) : Inv s where
  memory := h.memory
  config := h.config
  fault := by rw [h.fault]; simp [h.run]
  hold := by
    obtain ⟨hlink, hprompt, hnever⟩ := hheld
    rw [hhold]
    cases w with
    | getc => exact ⟨h.run, hlink⟩
    | inService => exact ⟨h.run, hlink, hprompt rfl⟩
    | puts => exact ⟨h.run, hlink, hnever (.inl rfl)⟩
    | putsp => exact ⟨h.run, hlink, hnever (.inr rfl)⟩
  halted := by simp [h.run]
  stopped := by simp [h.run]

theorem runs_of_inv {s : State} (h : Inv s) (hrun : s.run = .running) : Runs s := by
  refine ⟨h.memory, h.config, hrun, ?_⟩
  have hfault := h.fault
  cases hf : s.fault with
  | none => rfl
  | some f => rw [hf, hrun] at hfault; simp at hfault

theorem heldTrue_of_inv {s : State} {w : Wait} (h : Inv s) (hhold : s.hold = some w) :
    HeldTrue s w := by
  have hheld := h.hold
  rw [hhold] at hheld
  cases w with
  | getc => obtain ⟨-, hlink⟩ := hheld; exact ⟨hlink, nofun, by simp⟩
  | inService => obtain ⟨-, hlink, hprompt⟩ := hheld; exact ⟨hlink, fun _ => hprompt, by simp⟩
  | puts | putsp => obtain ⟨-, hlink, hnever⟩ := hheld; exact ⟨hlink, nofun, fun _ => hnever⟩

/-! ### The services that can be held -/

theorem Runs.inv_finishGetc {s : State} (h : Runs s) (hlink : s.reg 7 = s.pc) :
    Inv s.finishGetc := by
  obtain ⟨c, rest, -, heq⟩ | ⟨-, heq⟩ := State.finishGetc_cases s
  · rw [heq]; exact Runs.inv ⟨h.memory, h.config, h.run, h.fault⟩ rfl
  · rw [heq]
    exact (h.setHold _).inv_held rfl ⟨hlink, nofun, by simp⟩

theorem Runs.inv_finishIn {s : State} (h : Runs s) (hlink : s.reg 7 = s.pc)
    (hprompt : s.config.inPrompt <:+ s.output) : Inv s.finishIn := by
  obtain ⟨c, rest, -, heq⟩ | ⟨-, heq⟩ := State.finishIn_cases s
  · rw [heq]; exact Runs.inv ⟨h.memory, h.config, h.run, h.fault⟩ rfl
  · rw [heq]
    exact (h.setHold _).inv_held rfl ⟨hlink, fun _ => hprompt, by simp⟩

theorem Runs.inv_writeString {s : State} {w : Wait} (hw : w = .puts ∨ w = .putsp) (h : Runs s)
    (hhold : s.hold = none) (hlink : s.reg 7 = s.pc) : Inv (s.writeString w) := by
  obtain ⟨hregs, hpc, -, hrun, hfault, -, hconfig⟩ := State.writeString_frame w s
  have hruns : Runs (s.writeString w) :=
    ⟨State.writeString_wf w h.memory, hconfig ▸ h.config, hrun.trans h.run, hfault.trans h.fault⟩
  obtain ⟨ws, -, ⟨-, hsame⟩ | ⟨hnever, -, hheld, -⟩⟩ := writeString_words w h.sound
  · exact hruns.inv (hsame.trans hhold)
  · refine hruns.inv_held hheld ⟨?_, ?_, fun _ => neverEnds_writeString w h.sound hnever⟩
    · rw [State.reg, hregs, hpc]; exact hlink
    · rintro rfl; simp at hw

theorem Runs.inv_stop {s : State} (h : Runs s) (hstop : s.stopReq = true) : Inv s.stop where
  memory := h.memory
  config := h.config
  fault := by
    have hnone : s.stop.fault = none := h.fault
    rw [hnone]; nofun
  hold := trivial
  halted := nofun
  stopped := fun _ => hstop

/-! ### Every instruction -/

theorem Runs.inv_raise {s : State} (h : Runs s) (hhold : s.hold = none) {k : FaultKind} {w a : Word}
    (htrue : FaultTrue (s.raise k w a) ⟨k, w, a⟩) : Inv (s.raise k w a) where
  memory := h.memory
  config := h.config
  fault := ⟨rfl, htrue⟩
  hold := by
    have hnone : (s.raise k w a).hold = none := hhold
    rw [hnone]; trivial
  halted := nofun
  stopped := nofun

/-- The record of a well-formed faulting form is true, since its word decodes to it. -/
theorem Runs.inv_of_illegal {i : Instr} {s t : State} (h : Runs s) (hhold : s.hold = none)
    (hwf : i.wf s.config.encoding = true) (hexec : exec i s = .next t)
    (hillegal : i.illegal = true) : Inv t := by
  obtain ⟨-, hencoding⟩ := Bool.and_eq_true_iff.mp h.config
  have hdecode := decodeEncodeRoundTrip _ hencoding i hwf
  have hpc : s.pc = s.pc - 1 + 1 := (BitVec.sub_add_cancel s.pc 1).symm
  cases i with
  | rti w => cases hexec; exact h.inv_raise hhold ⟨hpc, fun _ => .inl hdecode, nofun⟩
  | res w => cases hexec; exact h.inv_raise hhold ⟨hpc, fun _ => .inr hdecode, nofun⟩
  | trapUnknown w =>
    cases hexec
    exact h.link.inv_raise hhold ⟨hpc, nofun, fun _ => ⟨hdecode, by simp⟩⟩
  | _ => cases hillegal

theorem Runs.inv_halt {s : State} (h : Runs s) (hhold : s.hold = none) :
    Inv ((s.link.emit s.config.haltNotice).setRun .halted) where
  memory := h.memory
  config := h.config
  fault := by
    have hnone : ((s.link.emit s.config.haltNotice).setRun .halted).fault = none := h.fault
    rw [hnone]; nofun
  hold := by
    have hnone : ((s.link.emit s.config.haltNotice).setRun .halted).hold = none := hhold
    rw [hnone]; trivial
  halted := fun _ => ⟨by simp, List.suffix_append _ _⟩
  stopped := nofun

/-- Every well-formed instruction, begun in a running state that meets the invariant. -/
theorem Runs.inv_of_exec {i : Instr} {s t : State} (h : Runs s) (hhold : s.hold = none)
    (hwf : i.wf s.config.encoding = true) (hexec : exec i s = .next t) : Inv t := by
  cases hlegal : i.illegal with
  | true => exact h.inv_of_illegal hhold hwf hexec hlegal
  | false =>
    cases i with
    | trapGetc => cases hexec; exact h.link.inv_finishGetc (by simp)
    | trapIn =>
      cases hexec
      exact (h.link.emit _).inv_finishIn (by simp) (List.suffix_append _ _)
    | trapPuts => cases hexec; exact h.link.inv_writeString (.inl rfl) hhold (by simp)
    | trapPutsp => cases hexec; exact h.link.inv_writeString (.inr rfl) hhold (by simp)
    | trapHalt => cases hexec; exact h.inv_halt hhold
    | _ =>
      obtain ⟨hfault, hhold'⟩ := exec_fault_hold hexec hlegal (by simp [mayHold, takesCharacter])
      have hrun := exec_run hexec hlegal nofun
      exact inv_of_running (exec_wf hexec h.memory) (exec_config hexec ▸ h.config)
        (hrun.trans h.run) (hfault.trans h.fault) (hhold'.trans hhold)

/-! ### Every step -/

/-- A wait goes on or ends, by a character or by the stop request. -/
theorem Runs.inv_waitFor {s : State} {finish : State → State} (h : Runs s)
    (hfinish : Inv (finish s)) : Inv (s.waitFor finish) := by
  rw [State.waitFor]
  split
  case isTrue hends =>
    obtain ⟨hboth, -⟩ := Bool.and_eq_true_iff.mp hends
    obtain ⟨-, hstop⟩ := Bool.and_eq_true_iff.mp hboth
    exact h.inv_stop hstop
  case isFalse => exact hfinish

theorem Runs.inv_resume {s : State} {w : Wait} (h : Runs s) (hheld : HeldTrue s w) :
    Inv (s.resume w) := by
  obtain ⟨hlink, hprompt, -⟩ := hheld
  have hlink' : s.environmentActs.reg 7 = s.environmentActs.pc := by simpa using hlink
  cases w with
  | getc => exact h.environmentActs.inv_waitFor (h.environmentActs.inv_finishGetc hlink')
  | inService =>
    exact h.environmentActs.inv_waitFor
      (h.environmentActs.inv_finishIn hlink' (by simpa using hprompt rfl))
  | puts => exact (h.setHold none).inv_writeString (.inl rfl) rfl hlink
  | putsp => exact (h.setHold none).inv_writeString (.inr rfl) rfl hlink

/-- Settles O32: a terminal state stays; a held service by `Runs.inv_resume`; a stop request by
`Runs.inv_stop`; a fetched word decodes to a well-formed instruction. -/
theorem everyStepKeepsInvariant : Obligations.EveryStepKeepsInvariant := by
  intro s t hinv hstep
  by_cases hrun : s.run = .running
  · have h := runs_of_inv hinv hrun
    cases hhold : s.hold with
    | some w =>
      rw [step_of_hold hrun hhold] at hstep
      cases hstep
      exact h.inv_resume (heldTrue_of_inv hinv hhold)
    | none =>
      cases hstop : s.environmentActs.stopReq with
      | true =>
        rw [step_of_stopReq hrun hhold hstop] at hstep
        cases hstep
        exact h.environmentActs.inv_stop hstop
      | false =>
        rw [step_of_fetches ⟨hrun, hhold, hstop⟩] at hstep
        refine ((h.environmentActs.pollAt s.pc).setPc (s.pc + 1)).inv_of_exec ?_ ?_ hstep
        · simpa using hhold
        · simpa using decodedInstructionsAreWellFormed s.config.encoding _
  · rw [step_of_terminal hrun] at hstep
    cases hstep
    exact hinv

/-! ### Every run -/

theorem waitFor_config {finish : State → State} (hfinish : ∀ s, (finish s).config = s.config)
    (s : State) : (s.waitFor finish).config = s.config := by
  rw [State.waitFor]
  split
  · rfl
  · exact hfinish s

theorem finishGetc_config (s : State) : s.finishGetc.config = s.config := by
  obtain ⟨⟨-, -, -, hconfig⟩, -⟩ := tookFrom_finishGetc s
  exact hconfig

theorem finishIn_config (s : State) : s.finishIn.config = s.config := by
  obtain ⟨⟨-, -, -, hconfig⟩, -⟩ := tookFrom_finishIn s
  exact hconfig

theorem writeString_config (w : Wait) (s : State) : (s.writeString w).config = s.config := by
  obtain ⟨-, -, -, -, -, -, hconfig⟩ := State.writeString_frame w s
  exact hconfig

theorem resume_config (s : State) (w : Wait) : (s.resume w).config = s.config := by
  cases w with
  | getc => exact (waitFor_config finishGetc_config _).trans (by simp)
  | inService => exact (waitFor_config finishIn_config _).trans (by simp)
  | puts | putsp => exact writeString_config _ (s.setHold none)

/-- No step changes the configuration (rule R7). -/
theorem step_config {s t : State} (hstep : step s = .next t) : t.config = s.config := by
  by_cases hrun : s.run = .running
  · cases hhold : s.hold with
    | some w =>
      rw [step_of_hold hrun hhold] at hstep
      cases hstep
      exact resume_config s w
    | none =>
      cases hstop : s.environmentActs.stopReq with
      | true =>
        rw [step_of_stopReq hrun hhold hstop] at hstep
        cases hstep
        exact State.environmentActs_config s
      | false =>
        rw [step_of_fetches ⟨hrun, hhold, hstop⟩] at hstep
        exact (exec_config hstep).trans (by simp)
  · rw [step_of_terminal hrun] at hstep
    cases hstep
    rfl

/-- Settles O33: each step has a next state, which keeps the invariant and the configuration; so by
induction on their number. -/
theorem everyRunGoesOnInInvariant : Obligations.EveryRunGoesOnInInvariant := by
  intro n
  induction n with
  | zero => exact fun s hinv => ⟨s, rfl, hinv, rfl⟩
  | succ n ih =>
    intro s hinv
    obtain ⟨m, hstep⟩ := everyStepAnswersNextState s
    obtain ⟨t, hrun, ht, hconfig⟩ := ih m (everyStepKeepsInvariant s m hinv hstep)
    exact ⟨t, (run_succ_of_next n hstep).trans hrun, ht, hconfig.trans (step_config hstep)⟩

end Sys2Proof.Machine
